-- ==== Sys2Proof/Word.lean ====
section
/-! DEFINITION. The word types of the decoder and its stored pixel. -/

namespace Sys2Proof

/-- `u8` (00_scope.md R8). -/
abbrev Byte := BitVec 8

/-- A host register, `REG_W` = 32 bits (00_scope.md R6). -/
abbrev Word := BitVec 32

/-- `u64`, the width `CNT_W` of every counter (00_scope.md R6). -/
abbrev U64 := BitVec 64

/-- The variant tag of a pixel (00_scope.md R15; 10_state.md R23). -/
inductive Kind where
  | rgb
  | rgba
deriving DecidableEq, Repr, Inhabited

/-- A stored pixel, `{kind, r, g, b, a}` (10_state.md R24). -/
structure Pixel where
  kind : Kind
  r : Byte
  g : Byte
  b : Byte
  a : Byte
deriving DecidableEq, Repr, Inhabited

end Sys2Proof
end

