-- ==== Sys2Proof/Syntax.lean ====
section
/-! DEFINITION. The instruction set: the six operations of the QOI operation stream (opcode_table.json). -/

namespace Sys2Proof

/-- A decoded operation, the record type at the head of 42_op_decoder.md. The signed deltas are mathematical
integers (00_scope.md R8); their ranges are checked by `Instr.wf`. -/
inductive Instr where
  /-- RGB{r, g, b}. -/
  | rgb (r g b : Byte)
  /-- RGBA{r, g, b, a}. -/
  | rgba (r g b a : Byte)
  /-- Index{slot}, slot 0..63. -/
  | index (slot : Fin 64)
  /-- Diff{dr, dg, db}, each -2..1. -/
  | diff (dr dg db : Int)
  /-- Luma{dg, dr_minus_dg, db_minus_dg}: dg -32..31, the chroma deltas -8..7. -/
  | luma (dg drDg dbDg : Int)
  /-- Run{length}, 1..62. -/
  | run (length : Nat)
deriving DecidableEq, Repr

end Sys2Proof
end

