-- ==== Sys2Proof/WellFormed.lean ====
section
/-! DEFINITION. The operand ranges of the encoding (30_encoding.md R95, R100). -/

namespace Sys2Proof

/-- `x` lies in `lo..hi`, both ends included (00_scope.md R9). -/
def inRange (lo hi x : Int) : Bool := decide (lo ≤ x) && decide (x ≤ hi)

/-- The operands are ones the encoding can hold (30_encoding.md R95). Literal bytes and the slot are so by their
types. -/
def Instr.wf : Instr → Bool
  | .rgb _ _ _ => true
  | .rgba _ _ _ _ => true
  | .index _ => true
  | .diff dr dg db => inRange (-2) 1 dr && inRange (-2) 1 dg && inRange (-2) 1 db
  | .luma dg drDg dbDg => inRange (-32) 31 dg && inRange (-8) 7 drDg && inRange (-8) 7 dbDg
  | .run length => decide (1 ≤ length) && decide (length ≤ 62)

end Sys2Proof
end

