-- ==== Sys2Proof/Decode.lean ====
section
/-! DEFINITION. Decoding an operation from bytes, and the encoder after it (30_encoding.md, 42_op_decoder.md). -/

namespace Sys2Proof

/-- Which of the six operations a leading byte starts (42_op_decoder.md R161). -/
inductive OpKind where
  | rgb
  | rgba
  | index
  | diff
  | luma
  | run
deriving DecidableEq, Repr

/-- Why a byte string is no operation. Every leading byte decodes (30_encoding.md R98), so the only ways to fail
are an empty string and missing trailing bytes. -/
inductive DecodeError where
  /-- There is no leading byte. -/
  | noLeadingByte
  /-- The leading byte needs `need` trailing bytes and only `got` are there. -/
  | missingTrailingBytes (need got : Nat)
deriving DecidableEq, Repr

/-- The short tag, bits 7:6 of a leading byte (30_encoding.md R93). -/
def shortTag (c : Byte) : BitVec 2 := c.extractLsb' 6 2

/-- The tag-local payload `p6`, bits 5:0 of a leading byte (30_encoding.md R93). -/
def tagPayload (c : Byte) : BitVec 6 := c.extractLsb' 0 6

/-- `Kind(c)`: the full-byte tags first, then the short tag (42_op_decoder.md R161; 30_encoding.md R94). -/
def opKind (c : Byte) : OpKind :=
  if c = 0xFE then .rgb
  else if c = 0xFF then .rgba
  else if shortTag c = 0b00 then .index
  else if shortTag c = 0b01 then .diff
  else if shortTag c = 0b10 then .luma
  else .run

/-- The number of trailing bytes of each operation (42_op_decoder.md R161). -/
def OpKind.need : OpKind → Nat
  | .rgb => 3
  | .rgba => 4
  | .index => 0
  | .diff => 0
  | .luma => 1
  | .run => 0

/-- `Need(c)` (42_op_decoder.md R161). -/
def opNeedOf (c : Byte) : Nat := (opKind c).need

/-- A biased field as the signed integer it stands for: the raw unsigned field plus the bias (30_encoding.md R95). -/
def biased {n : Nat} (raw : BitVec n) (bias : Int) : Int := (raw.toNat : Int) + bias

/-- `DecodeOp(OP_LEAD, OP_TB)`, one decode rule per operation (42_op_decoder.md R165 to R170). -/
def decodeOp (lead : Byte) (tb : Vector Byte 4) : Instr :=
  match opKind lead with
  | .rgb => .rgb tb[0] tb[1] tb[2]
  | .rgba => .rgba tb[0] tb[1] tb[2] tb[3]
  | .index => .index (tagPayload lead).toFin
  | .diff =>
    .diff (biased (lead.extractLsb' 0 2) (-2)) (biased (lead.extractLsb' 2 2) (-2))
      (biased (lead.extractLsb' 4 2) (-2))
  | .luma =>
    .luma (biased (tagPayload lead) (-32)) (biased (tb[0].extractLsb' 0 4) (-8))
      (biased (tb[0].extractLsb' 4 4) (-8))
  | .run => .run ((tagPayload lead).toNat + 1)

/-- The first four bytes of a string as the trailing-byte registers hold them; a byte that is not there is 0. -/
def trailingBytes (bs : List Byte) : Vector Byte 4 :=
  #v[bs.getD 0 0, bs.getD 1 0, bs.getD 2 0, bs.getD 3 0]

/-- Decodes the operation at the head of a byte string and returns it with the bytes after it (30_encoding.md R92,
R97). Total on any bytes. -/
def decode : List Byte → Except DecodeError (Instr × List Byte)
  | [] => .error .noLeadingByte
  | lead :: rest =>
    if rest.length < opNeedOf lead then .error (.missingTrailingBytes (opNeedOf lead) rest.length)
    else .ok (decodeOp lead (trailingBytes rest), rest.drop (opNeedOf lead))

/-- The five bytes an operation can take, of a word numbered as the opcode table numbers it: the first byte is bits
7..0, the second bits 15..8, and so on; the bits above `nbits` are 0. -/
def tableBytes (nbits w : Nat) : List Byte :=
  [BitVec.ofNat 8 (w % 2 ^ nbits), BitVec.ofNat 8 (w % 2 ^ nbits / 2 ^ 8), BitVec.ofNat 8 (w % 2 ^ nbits / 2 ^ 16),
    BitVec.ofNat 8 (w % 2 ^ nbits / 2 ^ 24), BitVec.ofNat 8 (w % 2 ^ nbits / 2 ^ 32)]

/-- What the decoder reads from a word of the opcode table's numbering. -/
def decodeTableWord (nbits w : Nat) : Option Instr :=
  match decode (tableBytes nbits w) with
  | .ok (i, _) => some i
  | .error _ => none

/-! ## The encoder -/

/-- The raw `n`-bit field of a signed operand: the operand less its bias (30_encoding.md R100). -/
def rawField (n : Nat) (x bias : Int) : BitVec n := BitVec.ofInt n (x - bias)

/-- The bytes of an operation (30_encoding.md R93, R100). An operand out of range is an assembly error there; it
is no well-formed instruction here, and its raw field wraps. -/
def encode : Instr → List Byte
  | .rgb r g b => [0xFE, r, g, b]
  | .rgba r g b a => [0xFF, r, g, b, a]
  | .index slot => [0b00#2 ++ BitVec.ofFin (w := 6) slot]
  | .diff dr dg db => [0b01#2 ++ rawField 2 db (-2) ++ rawField 2 dg (-2) ++ rawField 2 dr (-2)]
  | .luma dg drDg dbDg => [0b10#2 ++ rawField 6 dg (-32), rawField 4 dbDg (-8) ++ rawField 4 drDg (-8)]
  | .run length => [0b11#2 ++ BitVec.ofNat 6 (length - 1)]

/-- The bytes of a sequence of operations, with no padding between them (30_encoding.md R92). -/
def encodeAll (ops : List Instr) : List Byte := ops.flatMap encode

/-- The magic bytes (30_encoding.md R91). -/
def magic : List Byte := [0x71, 0x6F, 0x69, 0x66]

/-- The end marker, `END` of the notation (30_encoding.md R90, R100). -/
def endMarker : List Byte := [0, 0, 0, 0, 0, 0, 0, 1]

/-- The four bytes of a header field, most significant first (20_memory.md R68). -/
def bigEndian (x : Word) : List Byte :=
  [x.extractLsb' 24 8, x.extractLsb' 16 8, x.extractLsb' 8 8, x.extractLsb' 0 8]

/-- The 14 header bytes, `QOIF w, h, ch, cs` of the notation (30_encoding.md R90, R100). -/
def headerBytes (w h : Word) (ch cs : Byte) : List Byte := magic ++ bigEndian w ++ bigEndian h ++ [ch, cs]

/-- The pseudo-instruction `RUNX n` (30_encoding.md R101). -/
def runx (n : Nat) : List Instr :=
  List.replicate (n / 62) (.run 62) ++ if n % 62 = 0 then [] else [.run (n % 62)]

end Sys2Proof
end

