-- ==== Sys2Proof/Config.lean ====
section
/-! DEFINITION. What an implementation fixes (`FB_BYTES`) and the free values: opaque constants with no body, so
that nothing can be proved of any one of them. Every free value is applied to the state's `epoch`. -/

namespace Sys2Proof

/-- `FB_BYTES`, the framebuffer capacity in bytes: OPEN, a parameter (00_scope.md R6; 93_implementation_defined.md
I18). Only `State.reset` names it; a machine's capacity is the field `fbBytes` of its state. Log entry 1. -/
opaque Config.fbBytes : Nat

/-- The value START leaves in PREV, unspecified (46_host_commands.md R261; 93_implementation_defined.md I14), by
epoch. Log entry 6. -/
opaque Config.freePixel : Nat → Pixel

/-- What the framebuffer read port shows at a byte the spec leaves unspecified (20_memory.md R67;
93_implementation_defined.md I15), by epoch and address. Log entry 7. -/
opaque Config.freeFbByte : Nat → Nat → Byte

/-- What a half of PIXCOUNT or OPCOUNT reads as in phase ERROR, unspecified (60_exceptions.md R286;
93_implementation_defined.md I8), by epoch and register offset. Log entry 8. -/
opaque Config.freeCountWord : Nat → Nat → Word

/-- OP_LEAD_POS where `14 + PAYLOAD_LEN - 1` needs more than 64 bits (42_op_decoder.md R163 states no value), by
epoch. Log entry 9. -/
opaque Config.freeLeadPos : Nat → U64

end Sys2Proof
end

