-- ==== Sys2Proof/Machine/State.lean ====
section
/-! DEFINITION. The state of the decoder and of the agents around it, the reasons a step can stop, and reset. -/

namespace Sys2Proof.Machine

/-- PHASE (10_state.md R21). The encodings 5..7 never occur. -/
inductive Phase where
  | idle
  | header
  | payload
  | done
  | error
deriving DecidableEq, Repr

/-- ERR_CODE (60_exceptions.md R281). The reserved codes 9..14 are never written and have no name here (log
entry 18). -/
inductive ErrCode where
  | none
  | endOfInput
  | invalidMagic
  | unknownChannelMode
  | unknownColorSpace
  | unexpectedEndOfInput
  | missingPredecessor
  | pixelCountMismatch
  | capacityExceeded
  /-- Reserved, never raised (42_op_decoder.md R162). -/
  | internalConsistency
deriving DecidableEq, Repr

/-- What the byte source presents: the pins `in_valid`, `in_data`, `in_eof` (20_memory.md R61). -/
structure InPins where
  valid : Bool
  data : Byte
  eof : Bool
deriving DecidableEq, Repr

/-- An input token (20_memory.md R62). -/
inductive Token where
  | byte (b : Byte)
  | eof
deriving DecidableEq, Repr

/-- What the agents around the decoder do on one clock edge, apart from the byte source: the pins `rst`,
`reg_addr`, `reg_we`, `reg_wdata`, `reg_re` (20_memory.md R61), a framebuffer read address if the host looks at
`fb_rdata`, and whether the decoder itself holds `in_ready` = 0 on this edge (70_reset_and_hazards.md R335). -/
structure Edge where
  rst : Bool
  regAddr : Byte
  regWe : Bool
  regWdata : Word
  regRe : Bool
  fbRaddr : Option Nat
  busy : Bool
deriving DecidableEq, Repr

/-- An edge on which nobody does anything: no reset, no host access, and the decoder takes a token if one is
presented. -/
def Edge.idle : Edge :=
  { rst := false, regAddr := 0, regWe := false, regWdata := 0, regRe := false, fbRaddr := none, busy := false }

/-- The framebuffer: address and byte, addresses strictly rising, no entry equal to what an unlisted address reads
as (`Memory.wf`). -/
abbrev Memory := List Host.Cell

/-- What an address that nothing has written reads as inside the model: DESIGN CHOICE, unsafe, log entry 4. The
host's read port never shows it (log entry 7). -/
def Memory.unlisted : Byte := 0

/-- The zero sentinel RGBA{0,0,0,0} (44_pixel_cache.md R224). -/
def sentinel : Pixel := { kind := .rgba, r := 0, g := 0, b := 0, a := 0 }

/-- The architectural state, one field per element of 10_state.md R20, and after it the model's own fields. -/
structure State where
  /-- PHASE (10_state.md R21). -/
  phase : Phase
  /-- IRQ_EN (10_state.md R31). -/
  irqEn : Bool
  /-- WIDTH (10_state.md R35). -/
  width : Word
  /-- HEIGHT (10_state.md R35). -/
  height : Word
  /-- CHANNELS (10_state.md R36). -/
  channels : Byte
  /-- COLORSPACE (10_state.md R36). -/
  colorspace : Byte
  /-- HDR_VALID (10_state.md R32). -/
  hdrValid : Bool
  /-- EXPECTED (10_state.md R37). -/
  expected : U64
  /-- IN_OFFSET (10_state.md R39). -/
  inOffset : U64
  /-- PAYLOAD_LEN (10_state.md R43). -/
  payloadLen : U64
  /-- OPCOUNT (10_state.md R42). -/
  opCount : U64
  /-- PIXCOUNT (10_state.md R38). -/
  pixCount : U64
  /-- ERR_CODE (10_state.md R33). -/
  errCode : ErrCode
  /-- ERR_VALUE (10_state.md R34). -/
  errValue : Byte
  /-- ERR_OFFSET (10_state.md R40). -/
  errOffset : U64
  /-- ERR_OPINDEX (10_state.md R41). -/
  errOpIndex : U64
  /-- ZPEND (10_state.md R28). -/
  zpend : BitVec 3
  /-- OP_LEAD (10_state.md R29). -/
  opLead : Byte
  /-- OP_NEED (10_state.md R29). -/
  opNeed : BitVec 3
  /-- OP_GOT (10_state.md R29). -/
  opGot : BitVec 3
  /-- OP_TB[0..3] (10_state.md R29). -/
  opTb : Vector Byte 4
  /-- OP_LEAD_POS (10_state.md R29). -/
  opLeadPos : U64
  /-- MP (10_state.md R44). -/
  mp : Bool
  /-- PREV_VALID (10_state.md R26). -/
  prevValid : Bool
  /-- PREV (10_state.md R26). -/
  prev : Pixel
  /-- CACHE[0..63] (10_state.md R27). -/
  cache : Vector Pixel 64
  /-- FB[0..FB_BYTES-1] (10_state.md R45). -/
  fb : Memory
  /-- FB_BYTES, a parameter no step changes (00_scope.md R6). The model's own field, log entry 1. -/
  fbBytes : Nat
  /-- How many decoder steps, taken STARTs and resets there have been: what the free values are applied to. The
  model's own field, log entry 10. -/
  epoch : Nat
  /-- What the byte source presents, in order; each entry stays until an edge with `in_ready` = 1. The model's own
  field, log entry 11. -/
  source : List InPins
  /-- What happens on the coming clock edges; `Edge.idle` once the list is used up. The model's own field, log
  entry 11. -/
  edges : List Edge
  /-- What `reg_rdata` returned at the latest register read. The model's own field, log entry 12. -/
  regRdata : Word
  /-- What `fb_rdata` returned at the latest framebuffer read. The model's own field, log entry 12. -/
  fbRdata : Byte
deriving DecidableEq, Repr

/-- Why a step stops with a fault. -/
inductive Fault where
  /-- A framebuffer write reaches an address at or above FB_BYTES, which does not exist (20_memory.md R65). Raised
  by `memWrite`. Safe: 20_memory.md R66 derives that no reachable state does this, and the model stops where it
  has no address to write. Log entry 13. -/
  | framebufferOverrun (addr : Nat)
deriving DecidableEq, Repr

/-- Why an instruction has no meaning. -/
inductive Refusal where
  /-- The instruction has no meaning yet; raised by an arm of `exec` only. Safe. No arm raises it. -/
  | notModelled (mnemonic : String)
deriving DecidableEq, Repr

/-- The outcome of a step of this machine. -/
abbrev Result := Host.Outcome State Fault Refusal

/-- The machine right after reset (70_reset_and_hazards.md R320). PREV, CACHE and FB, unspecified there, take the
values of log entries 2, 3 and 4. -/
def State.reset : State where
  phase := .idle
  irqEn := false
  width := 0
  height := 0
  channels := 0
  colorspace := 0
  hdrValid := false
  expected := 0
  inOffset := 0
  payloadLen := 0
  opCount := 0
  pixCount := 0
  errCode := .none
  errValue := 0
  errOffset := 0
  errOpIndex := 0
  zpend := 0
  opLead := 0
  opNeed := 0
  opGot := 0
  opTb := Vector.replicate 4 0
  opLeadPos := 0
  mp := false
  prevValid := false
  prev := sentinel
  cache := Vector.replicate 64 sentinel
  fb := []
  fbBytes := Config.fbBytes
  epoch := 0
  source := []
  edges := []
  regRdata := 0
  fbRdata := 0

end Sys2Proof.Machine
end

