-- ==== Sys2Proof/Machine/Flags.lean ====
section
/-! DEFINITION. The only flags of the decoder: STATUS, `irq`, `in_ready`, CTRL and FORMAT (10_state.md R31, R32,
R36; 60_exceptions.md R292), and the numeric codes of PHASE and ERR_CODE. -/

namespace Sys2Proof.Machine

/-- The encoding of PHASE in STATUS (10_state.md R21). -/
def phaseCode : Phase → BitVec 3
  | .idle => 0
  | .header => 1
  | .payload => 2
  | .done => 3
  | .error => 4

/-- `code(E)` (60_exceptions.md R281). -/
def errCodeBits : ErrCode → BitVec 4
  | .none => 0
  | .endOfInput => 1
  | .invalidMagic => 2
  | .unknownChannelMode => 3
  | .unknownColorSpace => 4
  | .unexpectedEndOfInput => 5
  | .missingPredecessor => 6
  | .pixelCountMismatch => 7
  | .capacityExceeded => 8
  | .internalConsistency => 15

/-- PHASE is HEADER or PAYLOAD: a decode is in progress and a token can be taken (20_memory.md R61, R62). -/
def Phase.busy : Phase → Bool
  | .idle => false
  | .header => true
  | .payload => true
  | .done => false
  | .error => false

/-- PHASE is DONE or ERROR (60_exceptions.md R292). -/
def Phase.ended : Phase → Bool
  | .idle => false
  | .header => false
  | .payload => false
  | .done => true
  | .error => true

/-- `irq`, a level (60_exceptions.md R292). -/
def irq (s : State) : Bool := s.irqEn && s.phase.ended

/-- `in_ready` on an edge the decoder does not stall (20_memory.md R61). -/
def inReady (s : State) : Bool := s.phase.busy

/-- CTRL as it reads: `{30'b0, IRQ_EN, 1'b0}` (46_host_commands.md R264). -/
def ctrlWord (s : State) : Word := 0#30 ++ BitVec.ofBool s.irqEn ++ 0#1

/-- STATUS: IRQ, HDR_VALID and PHASE under 27 reserved bits (10_state.md R32). -/
def statusWord (s : State) : Word :=
  0#27 ++ BitVec.ofBool (irq s) ++ BitVec.ofBool s.hdrValid ++ phaseCode s.phase

/-- FORMAT: COLORSPACE over CHANNELS under 16 reserved bits (10_state.md R36). -/
def formatWord (s : State) : Word := 0#16 ++ s.colorspace ++ s.channels

end Sys2Proof.Machine
end

