-- ==== Sys2Proof/Machine/Operands.lean ====
section
/-! DEFINITION. Pixel arithmetic: the operands of the six operations as pixels, the hash, the serialised bytes. -/

namespace Sys2Proof.Machine

/-- `wrap8(x) = x mod 256` for any integer x (00_scope.md R9). -/
def wrap8 (x : Int) : Byte := BitVec.ofInt 8 x

/-- The RGB-kind pixel of a literal; it stores a = 0xFF (10_state.md R24; 43_pixel_ops.md R192). -/
def rgbPixel (r g b : Byte) : Pixel := { kind := .rgb, r := r, g := g, b := b, a := 0xFF }

/-- The RGBA-kind pixel of a literal (43_pixel_ops.md R193). -/
def rgbaPixel (r g b a : Byte) : Pixel := { kind := .rgba, r := r, g := g, b := b, a := a }

/-- Wrapping per-channel addition of signed deltas; kind and alpha are copied (43_pixel_ops.md R195, R198). -/
def addDeltas (p : Pixel) (dr dg db : Int) : Pixel :=
  { p with r := wrap8 (p.r.toNat + dr), g := wrap8 (p.g.toNat + dg), b := wrap8 (p.b.toNat + db) }

/-- `hash(p)` (44_pixel_cache.md R222). -/
def hash (p : Pixel) : Fin 64 :=
  ⟨(3 * p.r.toNat + 5 * p.g.toNat + 7 * p.b.toNat + 11 * p.a.toNat) % 64, Nat.mod_lt _ (by decide)⟩

/-- `Serialize(p)`, governed by the channel mode alone (45_framebuffer.md R243). -/
def serialize (channels : Byte) (p : Pixel) : List Byte :=
  if channels = 3 then [p.r, p.g, p.b] else [p.r, p.g, p.b, p.a]

end Sys2Proof.Machine
end

