-- ==== Sys2Proof/Machine/Ops.lean ====
section
/-! DEFINITION. The named operations over the framebuffer, the cache, the counters and the error registers; raising
an error, START and reset. -/

namespace Sys2Proof.Machine

/-- Goes on with `f` from a next state; a fault or a refusal ends the step. -/
def andThen (o : Result) (f : State → Result) : Result :=
  match o with
  | .next s => f s
  | .fault r => .fault r
  | .refused r => .refused r

/-- `sat64(x) = min(x, 2^64 - 1)` (00_scope.md R10). -/
def sat64 (x : Nat) : U64 := BitVec.ofNat 64 (min x (2 ^ 64 - 1))

/-! ## The framebuffer -/

/-- The canonical form of `Memory.wf`, all addresses being at least `lo`. -/
def Memory.wfFrom : Nat → Memory → Bool
  | _, [] => true
  | lo, (a, v) :: m => decide (lo ≤ a) && v != Memory.unlisted && Memory.wfFrom (a + 1) m

/-- The canonical form: addresses strictly rising, no entry equal to what an unlisted address reads as. -/
def Memory.wf (m : Memory) : Bool := Memory.wfFrom 0 m

/-- FB[a]. -/
def Memory.read : Memory → Nat → Byte
  | [], _ => Memory.unlisted
  | (b, w) :: m, a => if a = b then w else Memory.read m a

/-- FB[a] <- v. -/
def Memory.write : Memory → Nat → Byte → Memory
  | [], a, v => if v = Memory.unlisted then [] else [(a, v)]
  | (b, w) :: m, a, v =>
    if a < b then (if v = Memory.unlisted then (b, w) :: m else (a, v) :: (b, w) :: m)
    else if a = b then (if v = Memory.unlisted then m else (a, v) :: m)
    else (b, w) :: Memory.write m a v

/-- FB[addr + k] <- bytes[k] for every k (20_memory.md R66). -/
def Memory.writeBytes (m : Memory) (addr : Nat) : List Byte → Memory
  | [] => m
  | v :: vs => Memory.writeBytes (m.write addr v) (addr + 1) vs

/-- `MemWrite(addr, n, bytes)` (20_memory.md R66). An address at or above FB_BYTES does not exist (R65): log entry
13. -/
def memWrite (addr n : Nat) (bytes : List Byte) (s : State) : Result :=
  if addr + n ≤ s.fbBytes then .next { s with fb := s.fb.writeBytes addr (bytes.take n) }
  else .fault (.framebufferOverrun (addr + n - 1))

/-! ## Counters, PREV, the cache -/

/-- IN_OFFSET <- sat64(IN_OFFSET + 1) (40_header.md R120; 41_stream_extractor.md R141). -/
def State.countInput (s : State) : State := { s with inOffset := sat64 (s.inOffset.toNat + 1) }

/-- PAYLOAD_LEN <- sat64(PAYLOAD_LEN + 1) (41_stream_extractor.md R143). -/
def State.countPayload (s : State) : State := { s with payloadLen := sat64 (s.payloadLen.toNat + 1) }

/-- PIXCOUNT <- sat64(PIXCOUNT + 1) (45_framebuffer.md R241). -/
def State.countPixel (s : State) : State := { s with pixCount := sat64 (s.pixCount.toNat + 1) }

/-- OPCOUNT <- sat64(OPCOUNT + 1), and no operation is open any more (42_op_decoder.md R164). -/
def State.countOp (s : State) : State :=
  { s with opCount := sat64 (s.opCount.toNat + 1), opNeed := 0, opGot := 0 }

/-- MP <- 1 (43_pixel_ops.md R190). -/
def State.latchMp (s : State) : State := { s with mp := true }

/-- PREV <- p, PREV_VALID <- 1 (43_pixel_ops.md R191, R194). -/
def State.setPrev (s : State) (p : Pixel) : State := { s with prev := p, prevValid := true }

/-- `cache[slot]` (44_pixel_cache.md R221). -/
def State.cacheRead (s : State) (slot : Fin 64) : Pixel := s.cache[slot]

/-- `cache[slot] <- p` (44_pixel_cache.md R223). -/
def State.cacheWrite (s : State) (slot : Fin 64) (p : Pixel) : State := { s with cache := s.cache.set slot p }

/-! ## Pixels -/

/-- `Emit(p)` (45_framebuffer.md R241). -/
def emit (p : Pixel) (s : State) : Result :=
  if s.pixCount.toNat < s.expected.toNat then
    andThen (memWrite (s.pixCount.toNat * s.channels.toNat) s.channels.toNat (serialize s.channels p) s)
      fun t => .next t.countPixel
  else .next s.countPixel

/-- `repeat n times: Emit(p)` (43_pixel_ops.md R197). -/
def emitTimes : Nat → Pixel → State → Result
  | 0, _, s => .next s
  | n + 1, p, s => andThen (emit p s) (emitTimes n p)

/-- `Commit(p)` (43_pixel_ops.md R191). -/
def commit (p : Pixel) (s : State) : Result :=
  andThen (emit p s) fun t => .next ((t.cacheWrite (hash p) p).setPrev p)

/-- The frame of `Execute(op)` around one operation's rule (43_pixel_ops.md R190): nothing while MP = 1; an
operation that reads PREV sets MP when there is none. -/
def executeFrame (readsPrev : Bool) (rule : State → Result) (s : State) : Result :=
  if s.mp then .next s
  else if readsPrev && !s.prevValid then .next s.latchMp
  else rule s

/-! ## Errors, START, reset -/

/-- `raise E(value, offset, opindex)` (60_exceptions.md R284). -/
def State.raise (s : State) (code : ErrCode) (value : Byte) (offset opIndex : U64) : State :=
  { s with errCode := code, errValue := value, errOffset := offset, errOpIndex := opIndex, phase := .error }

/-- What a taken START writes (46_host_commands.md R261). PREV becomes unspecified: a free value, log entry 6. -/
def State.started (s : State) : State :=
  { s with
    cache := Vector.replicate 64 sentinel
    prevValid := false
    prev := Config.freePixel s.epoch
    mp := false
    width := 0
    height := 0
    channels := 0
    colorspace := 0
    hdrValid := false
    expected := 0
    inOffset := 0
    payloadLen := 0
    opCount := 0
    pixCount := 0
    zpend := 0
    opLead := 0
    opNeed := 0
    opGot := 0
    opTb := Vector.replicate 4 0
    opLeadPos := 0
    errCode := .none
    errValue := 0
    errOffset := 0
    errOpIndex := 0
    phase := .header
    epoch := s.epoch + 1 }

/-- START: taken in IDLE, DONE and ERROR, ignored while a decode is in progress (46_host_commands.md R261, R262). -/
def State.start (s : State) : State := if s.phase.busy then s else s.started

/-- An edge with `rst` = 1 (70_reset_and_hazards.md R320): every state element takes its reset value, the ones R320
leaves unspecified those of `State.reset` (log entry 5). FB_BYTES, the byte source and the coming edges are not
the decoder's state and stay; so do the values of the read ports. -/
def State.resetEdge (s : State) : State :=
  { State.reset with
    fbBytes := s.fbBytes
    epoch := s.epoch + 1
    source := s.source
    edges := s.edges
    regRdata := s.regRdata
    fbRdata := s.fbRdata }

end Sys2Proof.Machine
end

