-- ==== Sys2Proof/Machine/CacheRef.lean ====
section
/-! DEFINITION. The cache reference INDEX (43_pixel_ops.md R194). -/

namespace Sys2Proof.Machine

/-- The rule of OP_INDEX: emit the cached pixel and make it PREV; no cache write (43_pixel_ops.md R194). -/
def indexRule (slot : Fin 64) (s : State) : Result :=
  andThen (emit (s.cacheRead slot) s) fun t => .next (t.setPrev (s.cacheRead slot))

/-- OP_INDEX (43_pixel_ops.md R194). -/
def execIndex (slot : Fin 64) (s : State) : Result := executeFrame false (indexRule slot) s

end Sys2Proof.Machine
end

