-- ==== Sys2Proof/Machine/Differential.lean ====
section
/-! DEFINITION. The differentials DIFF and LUMA (43_pixel_ops.md R195, R196). -/

namespace Sys2Proof.Machine

/-- OP_DIFF (43_pixel_ops.md R195). -/
def execDiff (dr dg db : Int) (s : State) : Result :=
  executeFrame true (fun t => commit (addDeltas t.prev dr dg db) t) s

/-- OP_LUMA: the chroma deltas are relative to dg, and the sums are formed on integers (43_pixel_ops.md R196). -/
def execLuma (dg drDg dbDg : Int) (s : State) : Result :=
  executeFrame true (fun t => commit (addDeltas t.prev (drDg + dg) dg (dbDg + dg)) t) s

end Sys2Proof.Machine
end

