-- ==== Sys2Proof/Machine/Literal.lean ====
section
/-! DEFINITION. The literal operations RGB and RGBA (43_pixel_ops.md R192, R193). -/

namespace Sys2Proof.Machine

/-- OP_RGB (43_pixel_ops.md R192). -/
def execRgb (r g b : Byte) (s : State) : Result := executeFrame false (commit (rgbPixel r g b)) s

/-- OP_RGBA (43_pixel_ops.md R193). -/
def execRgba (r g b a : Byte) (s : State) : Result := executeFrame false (commit (rgbaPixel r g b a)) s

end Sys2Proof.Machine
end

