-- ==== Sys2Proof/Machine/Repeat.lean ====
section
/-! DEFINITION. The run RUN (43_pixel_ops.md R197). -/

namespace Sys2Proof.Machine

/-- OP_RUN: emit PREV length times; PREV and the cache stay (43_pixel_ops.md R197). -/
def execRun (length : Nat) (s : State) : Result :=
  executeFrame true (fun t => emitTimes length t.prev t) s

end Sys2Proof.Machine
end

