-- ==== Sys2Proof/Machine/OpDecoder.lean ====
section
/-! DEFINITION. The byte-aligned tag dispatcher: payload bytes become operations (42_op_decoder.md R163, R164). -/

namespace Sys2Proof.Machine

/-- The input offset of the leading byte that has just been counted, `14 + PAYLOAD_LEN - 1` (42_op_decoder.md
R163). Where that needs more than 64 bits the spec states no value: a free value, log entry 9. -/
def leadOffset (s : State) : U64 :=
  if 14 + s.payloadLen.toNat - 1 < 2 ^ 64 then BitVec.ofNat 64 (14 + s.payloadLen.toNat - 1)
  else Config.freeLeadPos s.epoch

/-- `Complete()` (42_op_decoder.md R164). -/
def complete (s : State) : Result :=
  andThen (exec (decodeOp s.opLead s.opTb) s) fun t => .next t.countOp

/-- A leading byte is taken: OP_LEAD <- c, OP_LEAD_POS <- its input offset (42_op_decoder.md R163). -/
def State.takeLead (s : State) (c : Byte) : State := { s with opLead := c, opLeadPos := leadOffset s }

/-- An operation that needs trailing bytes is open (42_op_decoder.md R163). -/
def State.openOp (s : State) (need : Nat) : State := { s with opNeed := BitVec.ofNat 3 need, opGot := 0 }

/-- A trailing byte is taken: OP_TB[OP_GOT] <- c, OP_GOT <- OP_GOT + 1 (42_op_decoder.md R163). -/
def State.takeTrailing (s : State) (c : Byte) : State :=
  { s with opTb := s.opTb.setIfInBounds s.opGot.toNat c, opGot := s.opGot + 1 }

/-- `PayloadByte(c)` (42_op_decoder.md R163). -/
def payloadByte (c : Byte) (s : State) : Result :=
  if s.opNeed = 0 then
    if opNeedOf c = 0 then complete (s.takeLead c) else .next ((s.takeLead c).openOp (opNeedOf c))
  else if (s.takeTrailing c).opGot = s.opNeed then complete (s.takeTrailing c)
  else .next (s.takeTrailing c)

end Sys2Proof.Machine
end

