-- ==== Sys2Proof/Machine/Extractor.lean ====
section
/-! DEFINITION. The end-marker stream extractor and the end of a decode (41_stream_extractor.md,
45_framebuffer.md R246). -/

namespace Sys2Proof.Machine

/-- `Release(c)` (41_stream_extractor.md R143). -/
def release (c : Byte) (s : State) : Result := payloadByte c s.countPayload

/-- `repeat n times: Release(0x00)` (41_stream_extractor.md R141). -/
def releaseZeros : Nat → State → Result
  | 0, s => .next s
  | n + 1, s => andThen (release 0 s) (releaseZeros n)

/-- `Finish(marker_offset)` (45_framebuffer.md R246). -/
def finish (markerOffset : U64) (s : State) : State :=
  if s.opNeed ≠ 0 then s.raise .unexpectedEndOfInput 0 s.opLeadPos s.opCount
  else if s.mp then s.raise .missingPredecessor 0 14 0
  else if s.pixCount ≠ s.expected then s.raise .pixelCountMismatch 0 markerOffset s.opCount
  else { s with phase := .done }

/-- ZPEND <- n. -/
def State.setZpend (s : State) (n : BitVec 3) : State := { s with zpend := n }

/-- `marker_offset`, the input offset of the end marker's first byte: 14 + PAYLOAD_LEN (45_framebuffer.md R246;
60_exceptions.md R282), saturating like ERR_OFFSET, which it is for (00_scope.md R6). Until IN_OFFSET saturates this is the
`pos - 7` that 41_stream_extractor.md R141 writes: DEDUCED, log entry 21. -/
def markerOffset (s : State) : U64 := sat64 (14 + s.payloadLen.toNat)

/-- The extractor's step on a byte, IN_OFFSET already advanced past it (41_stream_extractor.md R141). -/
def extractByte (b : Byte) (s : State) : Result :=
  if b = 0x00 then
    if s.zpend.toNat < 7 then .next (s.setZpend (s.zpend + 1)) else release 0x00 s
  else if b = 0x01 ∧ s.zpend = 7 then .next (finish (markerOffset s) (s.setZpend 0))
  else andThen (releaseZeros s.zpend.toNat s) fun t => release b (t.setZpend 0)

/-- A decoder step in phase PAYLOAD (41_stream_extractor.md R141, R145). -/
def payloadStep (t : Token) (s : State) : Result :=
  match t with
  | .eof => .next (s.raise .endOfInput 0 s.inOffset 0)
  | .byte b => extractByte b s.countInput

end Sys2Proof.Machine
end

