-- ==== Sys2Proof/Machine/Header.lean ====
section
/-! DEFINITION. The header parser (40_header.md). -/

namespace Sys2Proof.Machine

/-- `MagicByte(pos, b)` (40_header.md R123). -/
def magicByte (pos : Nat) (b : Byte) (s : State) : State :=
  if b ≠ magic.getD pos 0 then s.raise .invalidMagic 0 (BitVec.ofNat 64 pos) 0 else s

/-- A big-endian field shifted by one byte: `(x * 256 + b) mod 2^32` (40_header.md R125, R126). -/
def shiftInByte (x : Word) (b : Byte) : Word := BitVec.ofNat 32 (x.toNat * 256 + b.toNat)

/-- `WidthByte(b)` (40_header.md R125). -/
def widthByte (b : Byte) (s : State) : State := { s with width := shiftInByte s.width b }

/-- `HeightByte(b)` (40_header.md R126). -/
def heightByte (b : Byte) (s : State) : State := { s with height := shiftInByte s.height b }

/-- `ChannelByte(b)` (40_header.md R127). -/
def channelByte (b : Byte) (s : State) : State :=
  if b = 3 ∨ b = 4 then { s with channels := b } else s.raise .unknownChannelMode b 12 0

/-- EXPECTED <- zext_64(WIDTH) * zext_64(HEIGHT), exact (40_header.md R131). -/
def State.setExpected (s : State) : State :=
  { s with expected := s.width.zeroExtend 64 * s.height.zeroExtend 64 }

/-- The capacity check and the entry to PAYLOAD (40_header.md R132). -/
def capacityCheck (s : State) : State :=
  if s.expected.toNat * s.channels.toNat > s.fbBytes then s.raise .capacityExceeded 0 14 0
  else { s with hdrValid := true, phase := .payload }

/-- `HeaderDone()` (40_header.md R131, R132). -/
def headerDone (s : State) : State := capacityCheck s.setExpected

/-- `ColorSpaceByte(b)` (40_header.md R128). -/
def colorSpaceByte (b : Byte) (s : State) : State :=
  if b = 0 ∨ b = 1 then headerDone { s with colorspace := b } else s.raise .unknownColorSpace b 13 0

/-- The header field a byte at input offset `pos` belongs to (40_header.md R120, R121). No reachable state of phase
HEADER has an offset above 13 (10_state.md R48), and none is given an effect: log entry 14. -/
def headerField (pos : Nat) (b : Byte) (s : State) : State :=
  if pos ≤ 3 then magicByte pos b s
  else if pos ≤ 7 then widthByte b s
  else if pos ≤ 11 then heightByte b s
  else if pos = 12 then channelByte b s
  else if pos = 13 then colorSpaceByte b s
  else s

/-- A decoder step in phase HEADER (40_header.md R120, R122). -/
def headerStep (t : Token) (s : State) : State :=
  match t with
  | .eof => s.raise .endOfInput 0 s.inOffset 0
  | .byte b => headerField s.inOffset.toNat b s.countInput

end Sys2Proof.Machine
end

