-- ==== Sys2Proof/Machine/HostPort.lean ====
section
/-! DEFINITION. The host's ports: the register block and the framebuffer read port (10_state.md R30,
46_host_commands.md, 20_memory.md R64, R67). -/

namespace Sys2Proof.Machine

/-- The mapped registers (10_state.md R30). -/
inductive HostReg where
  | ctrl
  | status
  | errCode
  | errValue
  | width
  | height
  | format
  | expectedLo
  | expectedHi
  | pixCountLo
  | pixCountHi
  | inOffsetLo
  | inOffsetHi
  | errOffsetLo
  | errOffsetHi
  | errOpIndexLo
  | errOpIndexHi
  | opCountLo
  | opCountHi
  | payloadLenLo
  | payloadLenHi
deriving DecidableEq, Repr

/-- The register map (10_state.md R30). An offset that is not listed maps no register: the reserved offsets and
every offset with bits 1:0 other than 0 (46_host_commands.md R266). -/
def registerMap : List (Byte × HostReg) :=
  [(0x00, .ctrl), (0x04, .status), (0x08, .errCode), (0x0C, .errValue), (0x10, .width), (0x14, .height),
    (0x18, .format), (0x20, .expectedLo), (0x24, .expectedHi), (0x28, .pixCountLo), (0x2C, .pixCountHi),
    (0x30, .inOffsetLo), (0x34, .inOffsetHi), (0x38, .errOffsetLo), (0x3C, .errOffsetHi), (0x40, .errOpIndexLo),
    (0x44, .errOpIndexHi), (0x48, .opCountLo), (0x4C, .opCountHi), (0x50, .payloadLenLo), (0x54, .payloadLenHi)]

/-- The register at an offset. -/
def registerAt (addr : Byte) : Option HostReg := registerMap.lookup addr

/-- Bits 31:0 of a 64-bit register (20_memory.md R70). -/
def loHalf (x : U64) : Word := x.extractLsb' 0 32

/-- Bits 63:32 of a 64-bit register (20_memory.md R70). -/
def hiHalf (x : U64) : Word := x.extractLsb' 32 32

/-- PIXCOUNT and OPCOUNT have a specified value: everywhere but in ERROR, and there after PixelCountMismatch
(60_exceptions.md R286). -/
def countsSpecified (s : State) : Bool := s.phase != .error || s.errCode == .pixelCountMismatch

/-- A half of PIXCOUNT or OPCOUNT as the host reads it; a free value where it is unspecified (46_host_commands.md
R267; log entry 8). -/
def countHalf (s : State) (offset : Nat) (half : Word) : Word :=
  if countsSpecified s then half else Config.freeCountWord s.epoch offset

/-- The live value of a register (10_state.md R31 to R43). -/
def registerValue (s : State) : HostReg → Word
  | .ctrl => ctrlWord s
  | .status => statusWord s
  | .errCode => (errCodeBits s.errCode).zeroExtend 32
  | .errValue => s.errValue.zeroExtend 32
  | .width => s.width
  | .height => s.height
  | .format => formatWord s
  | .expectedLo => loHalf s.expected
  | .expectedHi => hiHalf s.expected
  | .pixCountLo => countHalf s 0x28 (loHalf s.pixCount)
  | .pixCountHi => countHalf s 0x2C (hiHalf s.pixCount)
  | .inOffsetLo => loHalf s.inOffset
  | .inOffsetHi => hiHalf s.inOffset
  | .errOffsetLo => loHalf s.errOffset
  | .errOffsetHi => hiHalf s.errOffset
  | .errOpIndexLo => loHalf s.errOpIndex
  | .errOpIndexHi => hiHalf s.errOpIndex
  | .opCountLo => countHalf s 0x48 (loHalf s.opCount)
  | .opCountHi => countHalf s 0x4C (hiHalf s.opCount)
  | .payloadLenLo => loHalf s.payloadLen
  | .payloadLenHi => hiHalf s.payloadLen

/-- A register read (46_host_commands.md R266, R267). -/
def registerRead (s : State) (addr : Byte) : Word :=
  match registerAt addr with
  | some r => registerValue s r
  | none => 0

/-- A write to CTRL: IRQ_EN first, then START (46_host_commands.md R261, R263, R264). -/
def writeCtrl (data : Word) (s : State) : State :=
  if data.getLsbD 0 then { s with irqEn := data.getLsbD 1 }.start else { s with irqEn := data.getLsbD 1 }

/-- A register write: only CTRL has an effect (46_host_commands.md R265, R266). -/
def registerWrite (addr : Byte) (data : Word) (s : State) : State :=
  match registerAt addr with
  | some .ctrl => writeCtrl data s
  | _ => s

/-- `FB_AW`: ceil(log2(FB_BYTES)) bits, at least 1 (00_scope.md R6). -/
def fbAddrWidth (fbBytes : Nat) : Nat := max 1 (if fbBytes ≤ 1 then 0 else Nat.log2 (fbBytes - 1) + 1)

/-- The framebuffer bytes that hold the result: 0 .. EXPECTED·bpp - 1 in phase DONE (20_memory.md R67). -/
def inResult (s : State) (a : Nat) : Bool :=
  s.phase == .done && decide (a < s.expected.toNat * s.channels.toNat)

/-- The framebuffer read port (20_memory.md R67): the byte of the result, a free value where the byte is unspecified
(93_implementation_defined.md I15; log entry 7), 0 at and above FB_BYTES. -/
def fbPortRead (s : State) (a : Nat) : Byte :=
  if a < s.fbBytes then (if inResult s a then s.fb.read a else Config.freeFbByte s.epoch a) else 0

/-- What the host reads on an edge: the values before anything of this edge happens (20_memory.md R64). The
framebuffer address has FB_AW bits (20_memory.md R61; log entry 16). -/
def hostReads (e : Edge) (s : State) : State :=
  { s with
    regRdata := if e.regRe then registerRead s e.regAddr else s.regRdata
    fbRdata :=
      match e.fbRaddr with
      | some a => fbPortRead s (a % 2 ^ fbAddrWidth s.fbBytes)
      | none => s.fbRdata }

/-- The host's access on an edge: its reads, then its write (log entry 15). -/
def hostAccess (e : Edge) (s : State) : State :=
  if e.regWe then registerWrite e.regAddr e.regWdata (hostReads e s) else hostReads e s

end Sys2Proof.Machine
end

