-- ==== Sys2Proof/Machine/Clock.lean ====
section
/-! DEFINITION. One clock edge: reset, the host's access, and at most one decoder step (20_memory.md R62, R64;
70_reset_and_hazards.md R320). -/

namespace Sys2Proof.Machine

/-- The token the source's pins present; EOF wins over a byte (20_memory.md R62). -/
def InPins.token (p : InPins) : Option Token :=
  if p.eof then some .eof else if p.valid then some (.byte p.data) else none

/-- A decoder step on a consumed token (00_scope.md R11). Outside HEADER and PAYLOAD no token is consumed
(20_memory.md R62). -/
def decoderStep (t : Token) (s : State) : Result :=
  match s.phase with
  | .header => .next (headerStep t s)
  | .payload => payloadStep t s
  | .idle => .next s
  | .done => .next s
  | .error => .next s

/-- The decoder looks at what the source presents and consumes a token if there is one (20_memory.md R62). An entry
of the source that presents nothing is a stall of the source. -/
def takeToken (s : State) : Result :=
  match s.source with
  | [] => .next s
  | p :: rest =>
    match p.token with
    | none => .next { s with source := rest }
    | some t => decoderStep t { s with source := rest, epoch := s.epoch + 1 }

/-- One clock edge. Reset has priority over everything (70_reset_and_hazards.md R320). Otherwise the host's access
is first, and a token is consumed only if `in_ready` was 1 before it, so none on the edge of a taken START
(20_memory.md R64). -/
def clockEdge (e : Edge) (s : State) : Result :=
  if e.rst then .next s.resetEdge
  else if inReady s && !e.busy then takeToken (hostAccess e s)
  else .next (hostAccess e s)

/-- What happens on the next clock edge, and the edges after it. -/
def State.nextEdge (s : State) : Edge := s.edges.headD Edge.idle

/-- The next clock edge is over. -/
def State.popEdge (s : State) : State := { s with edges := s.edges.tail }

/-! ## Placing an operation -/

/-- The pins that present one byte. -/
def InPins.ofByte (b : Byte) : InPins := { valid := true, data := b, eof := false }

/-- The pins that present the end of the input. -/
def InPins.ofEof : InPins := { valid := false, data := 0, eof := true }

/-- A state of phase PAYLOAD with no operation open: the state itself where it is in PAYLOAD, otherwise what a START
and the header of an image of no pixels in channel mode RGBA leave (log entry 19). -/
def State.inPayload (s : State) : State :=
  if s.phase = .payload then { s with opNeed := 0, opGot := 0 }
  else { s.started with phase := .payload, hdrValid := true, channels := 4 }

/-- The operation whose bytes are `lead` and then `trailing` has been consumed up to its last byte, `last`, which the
source presents next; on the next edge nobody else does anything. A last byte of 0x00 is released only when seven
zeros are pending (41_stream_extractor.md R141), so then ZPEND is 7; otherwise it is 0. Log entry 19. -/
def State.placeOp (s : State) (lead : Byte) (trailing : List Byte) : State :=
  let t := s.inPayload
  let bytes := lead :: trailing.take (opNeedOf lead)
  let last := bytes.getLastD 0
  let consumed := bytes.length - 1
  let zeros : BitVec 3 := if last = 0 then 7 else 0
  { t with
    opLead := if consumed = 0 then t.opLead else lead
    opLeadPos := if consumed = 0 then t.opLeadPos else leadOffset t.countPayload
    opNeed := BitVec.ofNat 3 consumed
    opGot := BitVec.ofNat 3 (consumed - 1)
    opTb := if consumed = 0 then t.opTb else trailingBytes (trailing.take (consumed - 1))
    payloadLen := sat64 (t.payloadLen.toNat + consumed)
    zpend := zeros
    inOffset := sat64 (14 + t.payloadLen.toNat + consumed + zeros.toNat)
    source := InPins.ofByte last :: t.source
    edges := Edge.idle :: t.edges }

end Sys2Proof.Machine
end

