-- ==== Sys2Proof/Machine/Step.lean ====
section
/-! DEFINITION. The step, one clock edge (20_memory.md R64), and the placing of an operation before it. -/

namespace Sys2Proof.Machine

/-- One step: the next clock edge. -/
def step (s : State) : Host.Outcome State Fault Refusal := clockEdge s.nextEdge s.popEdge

/-- `s` with the operation of a table word placed so that the next step completes it (log entry 19). -/
def State.withFetchWord (s : State) (nbits w : Nat) : State :=
  s.placeOp ((tableBytes nbits w).headD 0) (tableBytes nbits w).tail

end Sys2Proof.Machine
end

