-- ==== Sys2Proof/Machine/Staged.lean ====
section
/-! DEFINITION. The staged reference decoder S of 60_exceptions.md R290: the same result, computed stage by stage on the
whole input. No step uses it; claims compare the machine with it. -/

namespace Sys2Proof.Machine

/-- How a staged decode fails: the code of R281 and the context of R282. -/
structure Failure where
  code : ErrCode
  value : Byte
  offset : Nat
  opIndex : Nat
deriving DecidableEq, Repr

/-- The output tuple of a successful decode, and the color space (45_framebuffer.md R244). -/
structure Image where
  width : Word
  height : Word
  channels : Byte
  colorspace : Byte
  bytes : List Byte
deriving DecidableEq, Repr

/-- Stage 1 at offset `k`: the failure the header byte there causes, if any (R290 step 1). -/
def headerFailure (x : List Byte) (k : Nat) : Option Failure :=
  if x.length ≤ k then some ⟨.endOfInput, 0, x.length, 0⟩
  else if k ≤ 3 ∧ x.getD k 0 ≠ magic.getD k 0 then some ⟨.invalidMagic, 0, k, 0⟩
  else if k = 12 ∧ x.getD k 0 ≠ 3 ∧ x.getD k 0 ≠ 4 then some ⟨.unknownChannelMode, x.getD k 0, k, 0⟩
  else if k = 13 ∧ x.getD k 0 ≠ 0 ∧ x.getD k 0 ≠ 1 then some ⟨.unknownColorSpace, x.getD k 0, k, 0⟩
  else none

/-- A big-endian u32 at offset `k` (20_memory.md R68). -/
def wordAt (x : List Byte) (k : Nat) : Word :=
  BitVec.ofNat 32 ((x.getD k 0).toNat * 2 ^ 24 + (x.getD (k + 1) 0).toNat * 2 ^ 16
    + (x.getD (k + 2) 0).toNat * 2 ^ 8 + (x.getD (k + 3) 0).toNat)

/-- The end marker ends at offset `m` of the input (R290 step 3). -/
def markerEndsAt (x : List Byte) (m : Nat) : Bool :=
  decide (21 ≤ m) && (x.drop (m - 7)).take 8 == endMarker

/-- Stage 3: the offset of the last byte of the first end marker (R290 step 3; 41_stream_extractor.md R142). -/
def markerEnd (x : List Byte) : Option Nat := (List.range x.length).find? (markerEndsAt x)

/-- Stage 4: the operations of a payload in order, and the bytes of an operation the payload cuts (R290 step 4).
`fuel` bounds the number of operations; the payload's length is enough. -/
def splitOps : Nat → List Byte → List Instr × List Byte
  | 0, bs => ([], bs)
  | fuel + 1, bs =>
    match decode bs with
    | .ok (i, rest) => (i :: (splitOps fuel rest).1, (splitOps fuel rest).2)
    | .error _ => ([], bs)

/-- The reconstructor's state: previous pixel, cache, output (R290 step 5). -/
structure Recon where
  prev : Option Pixel
  cache : Vector Pixel 64
  out : List Pixel

/-- "initial state = previous_pixel: None, cache: 64× zero-sentinel, output: empty" (46_host_commands.md R261). -/
def Recon.initial : Recon := { prev := none, cache := Vector.replicate 64 sentinel, out := [] }

/-- A pixel that is appended, cached and made the previous pixel (43_pixel_ops.md R191). -/
def Recon.commit (st : Recon) (p : Pixel) : Recon :=
  { prev := some p, cache := st.cache.set (hash p) p, out := st.out ++ [p] }

/-- One operation of the reconstructor; none is MissingPredecessor (43_pixel_ops.md R190 to R197). -/
def Recon.exec (st : Recon) : Instr → Option Recon
  | .rgb r g b => some (st.commit (rgbPixel r g b))
  | .rgba r g b a => some (st.commit (rgbaPixel r g b a))
  | .index slot => some { st with prev := some st.cache[slot], out := st.out ++ [st.cache[slot]] }
  | .diff dr dg db => st.prev.map fun p => st.commit (addDeltas p dr dg db)
  | .luma dg drDg dbDg => st.prev.map fun p => st.commit (addDeltas p (drDg + dg) dg (dbDg + dg))
  | .run length => st.prev.map fun p => { st with out := st.out ++ List.replicate length p }

/-- Stage 5: the pixels of a sequence of operations (R290 step 5). -/
def reconstruct (ops : List Instr) : Option (List Pixel) := (ops.foldlM Recon.exec Recon.initial).map Recon.out

/-- Stages 4 to 6 on the payload `p` of an image of `expected` pixels (R290 steps 4 to 6). -/
def stagedPayload (expected : Nat) (p : List Byte) : Except Failure (List Pixel) :=
  let (ops, cut) := splitOps p.length p
  if cut ≠ [] then .error ⟨.unexpectedEndOfInput, 0, 14 + (p.length - cut.length), ops.length⟩
  else
    match reconstruct ops with
    | none => .error ⟨.missingPredecessor, 0, 14, 0⟩
    | some out =>
      if out.length ≠ expected then .error ⟨.pixelCountMismatch, 0, 14 + p.length, ops.length⟩ else .ok out

/-- The staged reference decoder S on the input `x` followed by EOF (60_exceptions.md R290). -/
def staged (fbBytes : Nat) (x : List Byte) : Except Failure Image :=
  match (List.range 14).findSome? (headerFailure x) with
  | some f => .error f
  | none =>
    let expected := (wordAt x 4).toNat * (wordAt x 8).toNat
    if expected * (x.getD 12 0).toNat > fbBytes then .error ⟨.capacityExceeded, 0, 14, 0⟩
    else
      match markerEnd x with
      | none => .error ⟨.endOfInput, 0, x.length, 0⟩
      | some m =>
        match stagedPayload expected ((x.drop 14).take (m - 21)) with
        | .error f => .error f
        | .ok out =>
          .ok { width := wordAt x 4, height := wordAt x 8, channels := x.getD 12 0, colorspace := x.getD 13 0,
                bytes := out.flatMap (serialize (x.getD 12 0)) }

end Sys2Proof.Machine
end

