-- ==== Sys2Proof/Safety.lean ====
section
/-! DEFINITION. The terms claims are stated in: the invariant of every reachable state, the frames, and running the
machine on an input. -/

namespace Sys2Proof

open Sys2Proof.Machine

/-- The largest value of a counter, 2^64 - 1. -/
def counterMax : Nat := 2 ^ 64 - 1

/-- A pixel as the decoder stores it: RGB-kind pixels store a = 0xFF (10_state.md R24). -/
def storedPixel (p : Pixel) : Prop := p.kind = .rgb → p.a = 0xFF

/-- The header fields in phase PAYLOAD and DONE: a legal channel mode, the exact product, and a framebuffer that
holds the image (40_header.md R127, R131, R132). -/
structure HeaderAccepted (s : State) : Prop where
  hdrValid : s.hdrValid = true
  channels : s.channels = 3 ∨ s.channels = 4
  expected : s.expected.toNat = s.width.toNat * s.height.toNat
  capacity : s.expected.toNat * s.channels.toNat ≤ s.fbBytes

/-- What is true of every reachable state: 10_state.md R48 and the rules its clauses cite. -/
structure Inv (s : State) : Prop where
  /-- OP_NEED ∈ {0, 1, 3, 4} (R48 item 2). -/
  opNeed : s.opNeed.toNat = 0 ∨ s.opNeed.toNat = 1 ∨ s.opNeed.toNat = 3 ∨ s.opNeed.toNat = 4
  /-- OP_NEED is what the leading byte of the open operation needs (10_state.md R29). -/
  opNeedOfLead : s.opNeed.toNat ≠ 0 → s.opNeed.toNat = opNeedOf s.opLead
  /-- OP_GOT < OP_NEED whenever an operation is open (R48 item 2). -/
  opGot : s.opNeed.toNat ≠ 0 → s.opGot.toNat < s.opNeed.toNat
  /-- In HEADER nothing of the payload has happened (R48 item 3) and no field is there before its bytes (R35, R36). -/
  header : s.phase = .header →
    s.inOffset.toNat ≤ 13 ∧ s.payloadLen = 0 ∧ s.opCount = 0 ∧ s.pixCount = 0 ∧ s.zpend = 0 ∧ s.opNeed = 0
      ∧ s.mp = false ∧ s.prevValid = false ∧ s.hdrValid = false ∧ s.expected = 0 ∧ s.colorspace = 0
      ∧ (s.inOffset.toNat ≤ 4 → s.width = 0) ∧ (s.inOffset.toNat ≤ 8 → s.height = 0)
      ∧ (s.inOffset.toNat ≤ 12 → s.channels = 0)
      ∧ (s.inOffset.toNat = 13 → s.channels = 3 ∨ s.channels = 4)
  /-- In PAYLOAD, IN_OFFSET = 14 + PAYLOAD_LEN + ZPEND until saturation (R48 item 4). -/
  payload : s.phase = .payload →
    HeaderAccepted s ∧ s.inOffset.toNat = min (14 + s.payloadLen.toNat + s.zpend.toNat) counterMax
  /-- In DONE (R48 item 7), its IN_OFFSET read as saturating (R39; log entry 21). -/
  done : s.phase = .done →
    HeaderAccepted s ∧ s.inOffset.toNat = min (22 + s.payloadLen.toNat) counterMax ∧ s.pixCount = s.expected
      ∧ s.opNeed = 0 ∧ s.mp = false
  /-- PIXCOUNT = 0 whenever PREV_VALID = 0 (R48 item 5). -/
  pixCount : s.prevValid = false → s.pixCount = 0
  /-- MP = 1 implies PREV_VALID = 0 (R48 item 6). -/
  mp : s.mp = true → s.prevValid = false
  /-- After the first operation there is a previous pixel or MP is set (43_pixel_ops.md R200). -/
  firstOp : s.opCount ≠ 0 → s.prevValid = true ∨ s.mp = true
  /-- The error registers are 0 outside ERROR (60_exceptions.md R284). -/
  noError : s.phase ≠ .error → s.errCode = .none ∧ s.errValue = 0 ∧ s.errOffset = 0 ∧ s.errOpIndex = 0
  /-- In ERROR the code is one of 1 to 8 (10_state.md R33; 42_op_decoder.md R162). -/
  error : s.phase = .error → s.errCode ≠ .none ∧ s.errCode ≠ .internalConsistency
  /-- CHANNELS is one of 0, 3, 4 (10_state.md R20). -/
  channels : s.channels = 0 ∨ s.channels = 3 ∨ s.channels = 4
  /-- COLORSPACE is one of 0, 1 (10_state.md R20). -/
  colorspace : s.colorspace = 0 ∨ s.colorspace = 1
  /-- PREV, while it is valid, and every cache slot are stored pixels (10_state.md R24). Between a reset and the next
  START the clauses on the cache rest on the values the model chose for it (log entries 3 and 5). -/
  prevStored : s.prevValid = true → storedPixel s.prev
  cacheStored : ∀ slot : Fin 64, storedPixel (s.cacheRead slot)
  /-- A slot holds the sentinel or a pixel at its own hash (44_pixel_cache.md R227). -/
  cacheHome : ∀ slot : Fin 64, s.cacheRead slot = sentinel ∨ hash (s.cacheRead slot) = slot
  /-- The framebuffer is canonical and holds no address outside 0..FB_BYTES-1 (20_memory.md R65, R66). -/
  fbCanonical : s.fb.wf = true
  fbInside : ∀ c ∈ s.fb, c.1 < s.fbBytes

/-! ## Frames -/

/-- `t` differs from `s` at most in what an operation writes: PIXCOUNT, the framebuffer, the cache, PREV, PREV_VALID
and MP (43_pixel_ops.md R190 to R197). -/
def OnlyPixelState (s t : State) : Prop :=
  t = { s with pixCount := t.pixCount, fb := t.fb, cache := t.cache, prev := t.prev, prevValid := t.prevValid,
               mp := t.mp }

/-- `t` differs from `s` at most in what a header byte writes, the error registers and PHASE (40_header.md R130). -/
def OnlyHeaderState (s t : State) : Prop :=
  t = { s with inOffset := t.inOffset, width := t.width, height := t.height, channels := t.channels,
               colorspace := t.colorspace, expected := t.expected, hdrValid := t.hdrValid, phase := t.phase,
               errCode := t.errCode, errValue := t.errValue, errOffset := t.errOffset, errOpIndex := t.errOpIndex }

/-- `t` differs from `s` at most in the model's own fields for what the host read and for the coming edges. -/
def OnlyHostView (s t : State) : Prop :=
  t = { s with regRdata := t.regRdata, fbRdata := t.fbRdata, edges := t.edges }

/-- What every Emit relies on: a legal channel mode and an image that fits the framebuffer, as 40_header.md R127 and
R132 establish (20_memory.md R66), and a canonical framebuffer. Every state of phase PAYLOAD is so, by `Inv`. -/
structure CanEmit (s : State) : Prop where
  channels : s.channels = 3 ∨ s.channels = 4
  capacity : s.expected.toNat * s.channels.toNat ≤ s.fbBytes
  canonical : s.fb.wf = true

/-- The byte FB[a] after the pixels `out` have been emitted from `s`: pixel number PIXCOUNT + k, if it is below
EXPECTED, at (PIXCOUNT + k)·CHANNELS in the channel mode's bytes; every other byte as in `s` (45_framebuffer.md R241,
R242, R243). -/
def byteAfterEmits (s : State) : List Pixel → Nat → Nat → Byte
  | [], _, a => s.fb.read a
  | p :: out, i, a =>
    if i < s.expected.toNat ∧ i * s.channels.toNat ≤ a ∧ a < (i + 1) * s.channels.toNat then
      (serialize s.channels p).getD (a - i * s.channels.toNat) 0
    else byteAfterEmits s out (i + 1) a

/-- `t` is `s` after the pixels `out` have been emitted in order: PIXCOUNT counts them all, and every byte of the
framebuffer is the one `byteAfterEmits` says (45_framebuffer.md R241 to R243). -/
def Emits (s t : State) (out : List Pixel) : Prop :=
  t.pixCount = sat64 (s.pixCount.toNat + out.length)
    ∧ ∀ a, t.fb.read a = byteAfterEmits s out s.pixCount.toNat a

/-- `t`'s cache is `s`'s with `p` at its hash and every other slot as before (44_pixel_cache.md R223). -/
def CachesPixel (s t : State) (p : Pixel) : Prop :=
  ∀ slot : Fin 64, t.cacheRead slot = if slot = hash p then p else s.cacheRead slot

/-! ## Kinds erased -/

/-- A pixel with its kind bit dropped (10_state.md R25). -/
def Pixel.eraseKind (p : Pixel) : Pixel := { p with kind := .rgba }

/-- A state with the kind bit of PREV and of every cache slot dropped (10_state.md R25). -/
def eraseKinds (s : State) : State :=
  { s with prev := Pixel.eraseKind s.prev, cache := s.cache.map Pixel.eraseKind }

/-! ## Operations and bytes in sequence -/

/-- The operation reads PREV: Diff, Luma and Run (43_pixel_ops.md R190). -/
def readsPrev : Instr → Bool
  | .rgb _ _ _ => false
  | .rgba _ _ _ _ => false
  | .index _ => false
  | .diff _ _ _ => true
  | .luma _ _ _ => true
  | .run _ => true

/-- The operations executed one after another (42_op_decoder.md R171). -/
def execAll : List Instr → State → Result
  | [], s => .next s
  | i :: ops, s => andThen (exec i s) (execAll ops)

/-- The payload bytes released one after another (41_stream_extractor.md R143). -/
def releaseAll : List Byte → State → Result
  | [], s => .next s
  | c :: bs, s => andThen (release c s) (releaseAll bs)

/-- The bytes of the open operation received so far; none where no operation is open (10_state.md R29). -/
def openBytes (s : State) : List Byte :=
  if s.opNeed = 0 then [] else s.opLead :: s.opTb.toList.take s.opGot.toNat

/-- The end marker does not end anywhere in `bs` before its last byte. -/
def firstMarkerIsLast (bs : List Byte) : Prop :=
  ∀ q, q <+: bs → endMarker <:+ q → q = bs

/-- Two states agree on what operations write and on the counts of what has been decoded. -/
def SamePixelState (s t : State) : Prop :=
  s.pixCount = t.pixCount ∧ s.fb = t.fb ∧ s.cache = t.cache ∧ s.prev = t.prev ∧ s.prevValid = t.prevValid
    ∧ s.mp = t.mp

/-! ## Running an input -/

/-- The token the next clock edge consumes, if any (20_memory.md R62, R64). -/
def consumedToken (s : State) : Option Token :=
  if s.nextEdge.rst || !inReady s || s.nextEdge.busy then none
  else
    match s.source with
    | [] => none
    | p :: _ => p.token

/-- The next clock edge carries a START that is taken (46_host_commands.md R261; 20_memory.md R64). -/
def takesStart (s : State) : Bool :=
  !s.nextEdge.rst && s.nextEdge.regWe && s.nextEdge.regAddr == 0x00 && s.nextEdge.regWdata.getLsbD 0
    && !s.phase.busy

/-- The decode of the input `x` followed by EOF, started by START from `s`: the source presents every token and
nobody else does anything (70_reset_and_hazards.md R324). -/
def startedOn (s : State) (x : List Byte) : State :=
  { s.start with source := x.map InPins.ofByte ++ [InPins.ofEof], edges := [] }

/-- The successive decoder steps on a list of tokens (00_scope.md R11). -/
def decoderSteps : List Token → State → Result
  | [], s => .next s
  | t :: ts, s => andThen (decoderStep t s) (decoderSteps ts)

/-- `k` successive clock edges. -/
def clockEdges : Nat → State → Result
  | 0, s => .next s
  | k + 1, s => andThen (step s) (clockEdges k)

/-- What the host reads of a decode that has ended: PHASE, the header fields, and the result bytes or the error code
(45_framebuffer.md R244; 60_exceptions.md R286). -/
def AgreesWith (t : State) : Except Failure Image → Prop
  | .ok image =>
    t.phase = .done ∧ t.width = image.width ∧ t.height = image.height ∧ t.channels = image.channels
      ∧ t.colorspace = image.colorspace ∧ image.bytes.length = t.expected.toNat * t.channels.toNat
      ∧ ∀ a, a < image.bytes.length → fbPortRead t a = image.bytes.getD a 0
  | .error f => t.phase = .error ∧ t.errCode = f.code

end Sys2Proof
end

