-- ==== Sys2Proof/Certificates/Slice0/Obligations.lean ====
section
/-! DEFINITION. The statements for the provers. Each docstring names the rule of spec/ it formalises. -/

open Sys2Proof Sys2Proof.Machine

/-! ## Encoding -/

/-- Decoding an encoded well-formed operation gives it back, whatever bytes follow (30_encoding.md R93, R95). -/
def Obligations.DecodingAnEncodedOperationGivesItBack : Prop :=
  ∀ (i : Instr) (rest : List Byte), i.wf = true → decode (encode i ++ rest) = .ok (i, rest)

/-- What decodes is a well-formed operation, and its bytes are the ones encoded (30_encoding.md R98). -/
def Obligations.DecodedBytesAreTheEncodedOperation : Prop :=
  ∀ (bs rest : List Byte) (i : Instr), decode bs = .ok (i, rest) → i.wf = true ∧ bs = encode i ++ rest

/-- The leading-byte map assigns every byte an operation and a length (30_encoding.md R96), and the operands are the
unsigned fields of the bytes less their biases: in OP_DIFF db is the most significant pair, in the second byte of OP_LUMA
db_minus_dg is the high nibble (30_encoding.md R93, R95; 42_op_decoder.md R165 to R170). -/
def Obligations.LeadingByteMapCoversEveryByte : Prop :=
  ∀ (lead : Byte) (tb : Vector Byte 4),
    (lead.toNat ≤ 0x3F → opNeedOf lead = 0 ∧ ∃ slot : Fin 64, decodeOp lead tb = .index slot
      ∧ slot.val = (lead &&& 0x3F).toNat)
    ∧ (0x40 ≤ lead.toNat ∧ lead.toNat ≤ 0x7F → opNeedOf lead = 0
      ∧ decodeOp lead tb = .diff ((lead.toNat % 4 : Nat) - 2) ((lead.toNat / 4 % 4 : Nat) - 2)
          ((lead.toNat / 16 % 4 : Nat) - 2))
    ∧ (0x80 ≤ lead.toNat ∧ lead.toNat ≤ 0xBF → opNeedOf lead = 1
      ∧ decodeOp lead tb = .luma ((lead.toNat % 64 : Nat) - 32) ((tb[0].toNat % 16 : Nat) - 8)
          ((tb[0].toNat / 16 : Nat) - 8))
    ∧ (0xC0 ≤ lead.toNat ∧ lead.toNat ≤ 0xFD → opNeedOf lead = 0
      ∧ decodeOp lead tb = .run ((lead &&& 0x3F).toNat + 1))
    ∧ (lead = 0xFE → opNeedOf lead = 3 ∧ decodeOp lead tb = .rgb tb[0] tb[1] tb[2])
    ∧ (lead = 0xFF → opNeedOf lead = 4 ∧ decodeOp lead tb = .rgba tb[0] tb[1] tb[2] tb[3])

/-- Words written out from the encodings decode to the operations they stand for: the examples of 42_op_decoder.md
R165 to R170, and the LUMA word AA A5 of 43_pixel_ops.md R196, whose two nibbles differ. -/
def Obligations.WordsOfTheSpecDecode : Prop :=
  decode [0xFE, 0x10, 0x20, 0x30] = .ok (.rgb 0x10 0x20 0x30, [])
    ∧ decode [0xFF, 0x01, 0x02, 0x03, 0x04] = .ok (.rgba 1 2 3 4, [])
    ∧ decode [0x25] = .ok (.index 37, [])
    ∧ decode [0x47] = .ok (.diff 1 (-1) (-2), [])
    ∧ decode [0xA0, 0x88] = .ok (.luma 0 0 0, [])
    ∧ decode [0xAA, 0xA5] = .ok (.luma 10 (-3) 2, [])
    ∧ decode [0xC4] = .ok (.run 5, [])

/-- The pseudo-instruction RUNX emits n copies of the previous pixel and leaves PREV and the cache (30_encoding.md
R101). -/
def Obligations.RunxEmitsThatManyCopies : Prop :=
  ∀ (n : Nat) (s : State), 1 ≤ n → CanEmit s → s.mp = false → s.prevValid = true →
    (∀ i ∈ runx n, i.wf = true)
      ∧ ∃ t, execAll (runx n) s = .next t ∧ Emits s t (List.replicate n s.prev) ∧ OnlyPixelState s t
        ∧ t.cache = s.cache ∧ t.prev = s.prev ∧ t.prevValid = true ∧ t.mp = false

/-! ## A step runs the decoded operation -/

/-- When the bytes of the open operation and the byte the extractor releases decode to an operation, the step is the
operation's `exec` on the state with the byte taken, followed by the completion that counts it (20_memory.md R62;
41_stream_extractor.md R141, R143; 42_op_decoder.md R163, R164). A byte other than 0x00 is released at once when no
zero is pending; a 0x00 releases the oldest of seven pending zeros. -/
def Obligations.StepRunsTheDecodedOperation : Prop :=
  ∀ (s : State) (p : InPins) (rest : List InPins) (b : Byte) (i : Instr),
    Inv s → s.phase = .payload → s.nextEdge.rst = false → s.nextEdge.busy = false →
    s.source = p :: rest → p.token = some (.byte b) →
    (s.zpend = 0 ∧ b ≠ 0 ∨ s.zpend = 7 ∧ b = 0) →
    decode (openBytes s ++ [b]) = .ok (i, []) →
    let v : State :=
      { hostAccess s.nextEdge s.popEdge with
        source := rest, epoch := s.epoch + 1, inOffset := sat64 (s.inOffset.toNat + 1),
        payloadLen := sat64 (s.payloadLen.toNat + 1) }
    let u : State := if s.opNeed = 0 then v.takeLead b else v.takeTrailing b
    step s = andThen (exec i u) fun t =>
      .next { t with opCount := sat64 (t.opCount.toNat + 1), opNeed := 0, opGot := 0 }

/-- A word placed by `withFetchWord` is the operation the next step executes and completes, on the pixel state of the
state it was placed in (log entry 19). -/
def Obligations.PlacedWordRunsAtTheNextStep : Prop :=
  ∀ (s : State) (nbits w : Nat), ∃ (i : Instr) (u : State),
    decodeTableWord nbits w = some i
      ∧ step (s.withFetchWord nbits w) = andThen (exec i u) (fun t =>
          .next { t with opCount := sat64 (t.opCount.toNat + 1), opNeed := 0, opGot := 0 })
      ∧ SamePixelState s.inPayload u ∧ u.phase = .payload ∧ u.expected = s.inPayload.expected
      ∧ u.channels = s.inPayload.channels ∧ u.fbBytes = s.fbBytes

/-- The bytes of a well-formed operation, released when no operation is open, execute that operation once and complete
it, and nothing else (42_op_decoder.md R160, R163, R164). -/
def Obligations.ReleasedOperationExecutesOnce : Prop :=
  ∀ (i : Instr) (s : State), i.wf = true → s.opNeed = 0 → ∃ u,
    releaseAll (encode i) s = andThen (exec i u) (fun t =>
        .next { t with opCount := sat64 (t.opCount.toNat + 1), opNeed := 0, opGot := 0 })
      ∧ u = { s with payloadLen := sat64 (s.payloadLen.toNat + (encode i).length), opLead := u.opLead,
                     opLeadPos := u.opLeadPos, opNeed := u.opNeed, opGot := u.opGot, opTb := u.opTb }
      ∧ (14 + s.payloadLen.toNat < 2 ^ 64 - 1 → u.opLeadPos.toNat = 14 + s.payloadLen.toNat)

/-- Released operations are executed strictly in payload order, each exactly once (42_op_decoder.md R171). -/
def Obligations.OperationsExecuteInPayloadOrder : Prop :=
  ∀ (ops : List Instr) (s : State), (∀ i ∈ ops, i.wf = true) → CanEmit s → s.opNeed = 0 →
    ∃ t u, releaseAll (encodeAll ops) s = .next t ∧ execAll ops s = .next u ∧ SamePixelState t u
      ∧ t.opCount = sat64 (s.opCount.toNat + ops.length)
      ∧ t.payloadLen = sat64 (s.payloadLen.toNat + (encodeAll ops).length) ∧ t.opNeed = 0

/-! ## The six operations -/

/-- OP_RGB (43_pixel_ops.md R192): the RGB-kind pixel of the literal, a = 0xFF, is emitted, cached at its hash and made
PREV; nothing else changes. -/
def Obligations.RgbCommitsTheLiteralPixel : Prop :=
  ∀ (s : State) (r g b : Byte), CanEmit s → s.mp = false → encode (.rgb r g b) = [0xFE, r, g, b] ∧
    ∃ t, exec (.rgb r g b) s = .next t ∧ OnlyPixelState s t ∧ Emits s t [⟨.rgb, r, g, b, 0xFF⟩]
      ∧ CachesPixel s t ⟨.rgb, r, g, b, 0xFF⟩ ∧ t.prev = ⟨.rgb, r, g, b, 0xFF⟩ ∧ t.prevValid = true ∧ t.mp = false

/-- OP_RGBA (43_pixel_ops.md R193): the RGBA-kind pixel of the literal is emitted, cached at its hash and made PREV;
nothing else changes. -/
def Obligations.RgbaCommitsTheLiteralPixel : Prop :=
  ∀ (s : State) (r g b a : Byte), CanEmit s → s.mp = false → encode (.rgba r g b a) = [0xFF, r, g, b, a] ∧
    ∃ t, exec (.rgba r g b a) s = .next t ∧ OnlyPixelState s t ∧ Emits s t [⟨.rgba, r, g, b, a⟩]
      ∧ CachesPixel s t ⟨.rgba, r, g, b, a⟩ ∧ t.prev = ⟨.rgba, r, g, b, a⟩ ∧ t.prevValid = true ∧ t.mp = false

/-- OP_INDEX (43_pixel_ops.md R194): the cached pixel is emitted and made PREV; the cache is not written and nothing
else changes. -/
def Obligations.IndexEmitsTheCachedPixel : Prop :=
  ∀ (s : State) (slot : Fin 64), CanEmit s → s.mp = false →
    ∃ t, exec (.index slot) s = .next t ∧ OnlyPixelState s t ∧ Emits s t [s.cacheRead slot]
      ∧ t.cache = s.cache ∧ t.prev = s.cacheRead slot ∧ t.prevValid = true ∧ t.mp = false

/-- OP_DIFF (43_pixel_ops.md R195): PREV with wrapping per-channel addition of the deltas, kind and alpha copied, is
emitted, cached at its hash and made PREV; nothing else changes. -/
def Obligations.DiffCommitsTheWrappedSum : Prop :=
  ∀ (s : State) (dr dg db : Int), CanEmit s → s.mp = false → s.prevValid = true →
    ∃ t p, exec (.diff dr dg db) s = .next t ∧ p.kind = s.prev.kind
      ∧ (p.r.toNat : Int) = ((s.prev.r.toNat : Int) + dr) % 256
      ∧ (p.g.toNat : Int) = ((s.prev.g.toNat : Int) + dg) % 256
      ∧ (p.b.toNat : Int) = ((s.prev.b.toNat : Int) + db) % 256 ∧ p.a = s.prev.a
      ∧ OnlyPixelState s t ∧ Emits s t [p] ∧ CachesPixel s t p ∧ t.prev = p ∧ t.prevValid = true ∧ t.mp = false

/-- OP_LUMA (43_pixel_ops.md R196): as Diff, with dr = dr_minus_dg + dg and db = db_minus_dg + dg on integers. -/
def Obligations.LumaCommitsTheGreenRelativeSum : Prop :=
  ∀ (s : State) (dg drDg dbDg : Int), CanEmit s → s.mp = false → s.prevValid = true →
    ∃ t p, exec (.luma dg drDg dbDg) s = .next t ∧ p.kind = s.prev.kind
      ∧ (p.r.toNat : Int) = ((s.prev.r.toNat : Int) + (drDg + dg)) % 256
      ∧ (p.g.toNat : Int) = ((s.prev.g.toNat : Int) + dg) % 256
      ∧ (p.b.toNat : Int) = ((s.prev.b.toNat : Int) + (dbDg + dg)) % 256 ∧ p.a = s.prev.a
      ∧ OnlyPixelState s t ∧ Emits s t [p] ∧ CachesPixel s t p ∧ t.prev = p ∧ t.prevValid = true ∧ t.mp = false

/-- OP_RUN (43_pixel_ops.md R197): length copies of PREV are emitted; PREV, the cache and everything else stay. -/
def Obligations.RunRepeatsThePreviousPixel : Prop :=
  ∀ (s : State) (length : Nat), CanEmit s → s.mp = false → s.prevValid = true →
    ∃ t, exec (.run length) s = .next t ∧ OnlyPixelState s t ∧ Emits s t (List.replicate length s.prev)
      ∧ t.cache = s.cache ∧ t.prev = s.prev ∧ t.prevValid = true ∧ t.mp = false

/-- The frame of Execute (43_pixel_ops.md R190): nothing while MP = 1; Diff, Luma and Run without a previous pixel set
MP and nothing else; no operation raises. -/
def Obligations.MissingPredecessorIsLatched : Prop :=
  ∀ (i : Instr) (s : State),
    (s.mp = true → exec i s = .next s)
    ∧ (s.mp = false → readsPrev i = true → s.prevValid = false → exec i s = .next { s with mp := true })
    ∧ (CanEmit s → ∃ t, exec i s = .next t ∧ t.phase = s.phase ∧ t.errCode = s.errCode
        ∧ (s.mp = false → (readsPrev i = true → s.prevValid = true) → t.mp = false ∧ t.prevValid = true))

/-- `hash` in any unsigned width W ≥ 6 with wrap-around (44_pixel_cache.md R222, R225). -/
def Obligations.HashIsWidthIndependent : Prop :=
  ∀ (p : Pixel),
    (hash p).val = (3 * p.r.toNat + 5 * p.g.toNat + 7 * p.b.toNat + 11 * p.a.toNat) % 64
    ∧ ∀ w : Nat, 6 ≤ w →
      (hash p).val = (3#w * p.r.setWidth w + 5#w * p.g.setWidth w + 7#w * p.b.setWidth w
        + 11#w * p.a.setWidth w).toNat % 64

/-- Emit (45_framebuffer.md R241, R243): pixel i below EXPECTED is written at i·CHANNELS as R, G, B, and A in channel
mode RGBA; every other byte stays; a pixel at or past EXPECTED is counted and not written. -/
def Obligations.EmitWritesThePixelInsideTheImage : Prop :=
  ∀ (p : Pixel) (s : State), CanEmit s →
    ∃ t, emit p s = .next t ∧ t = { s with pixCount := t.pixCount, fb := t.fb }
      ∧ t.pixCount.toNat = min (s.pixCount.toNat + 1) (2 ^ 64 - 1)
      ∧ (s.expected.toNat ≤ s.pixCount.toNat → t.fb = s.fb)
      ∧ (s.pixCount.toNat < s.expected.toNat → s.channels = 3 → ∀ a, t.fb.read a =
          if a = 3 * s.pixCount.toNat then p.r else if a = 3 * s.pixCount.toNat + 1 then p.g
          else if a = 3 * s.pixCount.toNat + 2 then p.b else s.fb.read a)
      ∧ (s.pixCount.toNat < s.expected.toNat → s.channels = 4 → ∀ a, t.fb.read a =
          if a = 4 * s.pixCount.toNat then p.r else if a = 4 * s.pixCount.toNat + 1 then p.g
          else if a = 4 * s.pixCount.toNat + 2 then p.b else if a = 4 * s.pixCount.toNat + 3 then p.a
          else s.fb.read a)

/-! ## The header -/

/-- The 14 bytes of a legal header, after START: the fields hold it, EXPECTED is the exact product, and the decode goes
on in PAYLOAD if the image fits, or ends in CapacityExceeded (40_header.md R120, R121, R125, R126, R131, R132). -/
def Obligations.LegalHeaderIsParsed : Prop :=
  ∀ (s : State) (w h : Word) (ch cs : Byte), s.phase.busy = false → (ch = 3 ∨ ch = 4) → (cs = 0 ∨ cs = 1) →
    ∃ t, decoderSteps ((headerBytes w h ch cs).map .byte) s.start = .next t
      ∧ OnlyHeaderState s.start t ∧ t.width = w ∧ t.height = h ∧ t.channels = ch ∧ t.colorspace = cs
      ∧ t.inOffset = 14 ∧ t.expected.toNat = w.toNat * h.toNat
      ∧ (w.toNat * h.toNat * ch.toNat ≤ s.fbBytes → t.phase = .payload ∧ t.hdrValid = true ∧ t.errCode = .none)
      ∧ (s.fbBytes < w.toNat * h.toNat * ch.toNat → t.phase = .error ∧ t.hdrValid = false
          ∧ t.errCode = .capacityExceeded ∧ t.errValue = 0 ∧ t.errOffset = 14 ∧ t.errOpIndex = 0)

/-- MagicByte (40_header.md R123): the first differing byte raises InvalidMagic at its offset, a matching one only
advances. -/
def Obligations.MagicIsComparedByteByByte : Prop :=
  ∀ (s : State) (b : Byte), s.phase = .header → s.inOffset.toNat ≤ 3 →
    magic = [0x71, 0x6F, 0x69, 0x66]
    ∧ (b ≠ magic.getD s.inOffset.toNat 0 → decoderStep (.byte b) s = .next
      { s with inOffset := s.inOffset + 1, phase := .error, errCode := .invalidMagic, errValue := 0,
               errOffset := s.inOffset, errOpIndex := 0 })
    ∧ (b = magic.getD s.inOffset.toNat 0 → decoderStep (.byte b) s = .next { s with inOffset := s.inOffset + 1 })

/-- WidthByte and HeightByte (40_header.md R125, R126). -/
def Obligations.DimensionBytesShiftIn : Prop :=
  ∀ (s : State) (b : Byte), s.phase = .header →
    (4 ≤ s.inOffset.toNat ∧ s.inOffset.toNat ≤ 7 → ∃ w, decoderStep (.byte b) s = .next
      { s with inOffset := s.inOffset + 1, width := w } ∧ w.toNat = (s.width.toNat * 256 + b.toNat) % 2 ^ 32)
    ∧ (8 ≤ s.inOffset.toNat ∧ s.inOffset.toNat ≤ 11 → ∃ h, decoderStep (.byte b) s = .next
      { s with inOffset := s.inOffset + 1, height := h } ∧ h.toNat = (s.height.toNat * 256 + b.toNat) % 2 ^ 32)

/-- ChannelByte (40_header.md R127). -/
def Obligations.ChannelByteIsChecked : Prop :=
  ∀ (s : State) (b : Byte), s.phase = .header → s.inOffset = 12 →
    (b = 3 ∨ b = 4 → decoderStep (.byte b) s = .next { s with inOffset := 13, channels := b })
    ∧ (b ≠ 3 ∧ b ≠ 4 → decoderStep (.byte b) s = .next
      { s with inOffset := 13, phase := .error, errCode := .unknownChannelMode, errValue := b, errOffset := 12,
               errOpIndex := 0 })

/-- ColorSpaceByte and HeaderDone (40_header.md R128, R131, R132). -/
def Obligations.ColorSpaceByteEndsTheHeader : Prop :=
  ∀ (s : State) (b : Byte), s.phase = .header → s.inOffset = 13 →
    (b ≠ 0 ∧ b ≠ 1 → decoderStep (.byte b) s = .next
      { s with inOffset := 14, phase := .error, errCode := .unknownColorSpace, errValue := b, errOffset := 13,
               errOpIndex := 0 })
    ∧ (b = 0 ∨ b = 1 → ∃ e : U64, e.toNat = s.width.toNat * s.height.toNat
      ∧ (e.toNat * s.channels.toNat ≤ s.fbBytes → decoderStep (.byte b) s = .next
          { s with inOffset := 14, colorspace := b, expected := e, hdrValid := true, phase := .payload })
      ∧ (s.fbBytes < e.toNat * s.channels.toNat → decoderStep (.byte b) s = .next
          { s with inOffset := 14, colorspace := b, expected := e, phase := .error, errCode := .capacityExceeded,
                   errValue := 0, errOffset := 14, errOpIndex := 0 }))

/-- EOF in the header and in the payload, whatever MP, ZPEND and the open operation are (40_header.md R122;
41_stream_extractor.md R145). -/
def Obligations.EofRaisesEndOfInput : Prop :=
  ∀ s : State, s.phase = .header ∨ s.phase = .payload →
    decoderStep .eof s = .next
      { s with phase := .error, errCode := .endOfInput, errValue := 0, errOffset := s.inOffset, errOpIndex := 0 }

/-- The header fields, EXPECTED and HDR_VALID change only in phase HEADER, until the next START or reset (10_state.md
R22, R32; 40_header.md R130). -/
def Obligations.HeaderFieldsAreImmutable : Prop :=
  ∀ s t : State, step s = .next t → s.nextEdge.rst = false → takesStart s = false → s.phase ≠ .header →
    t.width = s.width ∧ t.height = s.height ∧ t.channels = s.channels ∧ t.colorspace = s.colorspace
      ∧ t.expected = s.expected ∧ t.hdrValid = s.hdrValid

/-! ## The extractor and the end of a decode -/

/-- The extractor releases exactly the bytes before the first end marker, each once, in order, and then finishes
(41_stream_extractor.md R141, R142). The offset Finish is given is that of the marker's first byte as
45_framebuffer.md R246 gives it, 14 + PAYLOAD_LEN, saturating (00_scope.md R6). That it is also the pos - 7 of R141 is the
model's reading once IN_OFFSET has saturated (log entry 21). -/
def Obligations.ExtractorReleasesExactlyThePayload : Prop :=
  ∀ (s : State) (payload : List Byte), s.phase = .payload → s.zpend = 0 →
    firstMarkerIsLast (payload ++ endMarker) →
    decoderSteps ((payload ++ endMarker).map .byte) s =
      andThen (releaseAll payload s) fun t =>
        .next (finish (sat64 (14 + s.payloadLen.toNat + payload.length))
          { t with inOffset := sat64 (s.inOffset.toNat + payload.length + 8) })

/-- A run of k zeros and then a byte x (41_stream_extractor.md R144). The offset Finish is given is the
14 + PAYLOAD_LEN of 45_framebuffer.md R246, saturating (00_scope.md R6); that it is also the pos - 7 of R141 is the model's
reading once IN_OFFSET has saturated (log entry 21). -/
def Obligations.ZeroRunCases : Prop :=
  ∀ (s : State) (k : Nat) (x : Byte), s.phase = .payload → s.zpend = 0 → x ≠ 0 →
    (k < 7 ∨ x ≠ 1 → decoderSteps ((List.replicate k 0 ++ [x]).map .byte) s =
      andThen (releaseAll (List.replicate k 0 ++ [x]) s) fun t =>
        .next { t with inOffset := sat64 (s.inOffset.toNat + k + 1) })
    ∧ (7 ≤ k → x = 1 → decoderSteps ((List.replicate k 0 ++ [x]).map .byte) s =
      andThen (releaseAll (List.replicate (k - 7) 0) s) fun t =>
        .next (finish (sat64 (14 + s.payloadLen.toNat + (k - 7))) { t with inOffset := sat64 (s.inOffset.toNat + k + 1) }))

/-- The 0x01 that completes the end marker runs Finish, its errors in order of priority (45_framebuffer.md R246). The
offset it reports for a wrong count is that of the marker's first byte, 14 + PAYLOAD_LEN (60_exceptions.md R282),
saturating (00_scope.md R6). Until IN_OFFSET saturates that is the pos - 7 of 41_stream_extractor.md R141; from there on the
two differ, and that R246 holds is the model's reading (log entry 21). -/
def Obligations.FinishReportsInPriority : Prop :=
  ∀ s : State, s.phase = .payload → s.zpend = 7 →
    ∃ t, decoderStep (.byte 0x01) s = .next t
      ∧ t = { s with inOffset := sat64 (s.inOffset.toNat + 1), zpend := 0, phase := t.phase, errCode := t.errCode,
                     errValue := t.errValue, errOffset := t.errOffset, errOpIndex := t.errOpIndex }
      ∧ (s.opNeed ≠ 0 → t.phase = .error ∧ t.errCode = .unexpectedEndOfInput ∧ t.errValue = 0
          ∧ t.errOffset = s.opLeadPos ∧ t.errOpIndex = s.opCount)
      ∧ (s.opNeed = 0 → s.mp = true → t.phase = .error ∧ t.errCode = .missingPredecessor ∧ t.errValue = 0
          ∧ t.errOffset = 14 ∧ t.errOpIndex = 0)
      ∧ (s.opNeed = 0 → s.mp = false → s.pixCount ≠ s.expected → t.phase = .error
          ∧ t.errCode = .pixelCountMismatch ∧ t.errValue = 0 ∧ t.errOffset.toNat = min (14 + s.payloadLen.toNat) (2 ^ 64 - 1)
          ∧ t.errOpIndex = s.opCount)
      ∧ (s.opNeed = 0 → s.mp = false → s.pixCount = s.expected → t.phase = .done ∧ t.errCode = s.errCode
          ∧ t.errValue = s.errValue ∧ t.errOffset = s.errOffset ∧ t.errOpIndex = s.errOpIndex)
      ∧ (Inv s → s.inOffset.toNat < 2 ^ 64 - 1 → (s.inOffset - 7).toNat = 14 + s.payloadLen.toNat)

/-! ## Errors -/

/-- `raise` records the cause and its context, ends the decode, and changes nothing else; `irq` follows IRQ_EN
(60_exceptions.md R284). -/
def Obligations.RaiseRecordsTheCause : Prop :=
  ∀ (s : State) (code : ErrCode) (value : Byte) (offset opIndex : U64),
    s.raise code value offset opIndex =
        { s with errCode := code, errValue := value, errOffset := offset, errOpIndex := opIndex, phase := .error }
      ∧ irq (s.raise code value offset opIndex) = s.irqEn
      ∧ (statusWord (s.raise code value offset opIndex)).extractLsb' 0 3 = 4

/-- The context of every error a decoder step raises (60_exceptions.md R282); ERR_OFFSET saturates (00_scope.md R6). -/
def Obligations.ErrorContextIsThatOfTheTable : Prop :=
  ∀ (s t : State) (tok : Token), Inv s → s.phase ≠ .error → decoderStep tok s = .next t → t.phase = .error →
    match t.errCode with
    | .endOfInput => tok = .eof ∧ t.errValue = 0 ∧ t.errOffset = t.inOffset ∧ t.errOpIndex = 0
    | .invalidMagic => t.errValue = 0 ∧ t.errOffset.toNat ≤ 3 ∧ t.errOffset = s.inOffset ∧ t.errOpIndex = 0
    | .unknownChannelMode => tok = .byte t.errValue ∧ t.errOffset = 12 ∧ t.errOpIndex = 0
    | .unknownColorSpace => tok = .byte t.errValue ∧ t.errOffset = 13 ∧ t.errOpIndex = 0
    | .unexpectedEndOfInput => t.errValue = 0 ∧ t.errOffset = t.opLeadPos ∧ t.errOpIndex = t.opCount
    | .missingPredecessor => t.errValue = 0 ∧ t.errOffset = 14 ∧ t.errOpIndex = 0
    | .pixelCountMismatch => t.errValue = 0 ∧ t.errOffset.toNat = min (14 + t.payloadLen.toNat) (2 ^ 64 - 1)
        ∧ t.errOpIndex = t.opCount
    | .capacityExceeded => t.errValue = 0 ∧ t.errOffset = 14 ∧ t.errOpIndex = 0
    | .none => False
    | .internalConsistency => False

/-! ## Phases and steps -/

/-- The complete transition relation of PHASE (70_reset_and_hazards.md R323). -/
def Obligations.PhaseTransitionsAreThoseOfTheTable : Prop :=
  ∀ s t : State, Inv s → step s = .next t →
    (s.nextEdge.rst = true → t.phase = .idle)
    ∧ (takesStart s = true → t.phase = .header)
    ∧ (s.nextEdge.rst = false → takesStart s = false → consumedToken s = none → t.phase = s.phase)
    ∧ (∀ tok, consumedToken s = some tok → s.phase = .header ∨ s.phase = .payload)
    ∧ (consumedToken s = some .eof → t.phase = .error)
    ∧ (∀ b, consumedToken s = some (.byte b) → s.phase = .header →
        if s.inOffset.toNat ≤ 3 then t.phase = if b = magic.getD s.inOffset.toNat 0 then .header else .error
        else if s.inOffset.toNat ≤ 11 then t.phase = .header
        else if s.inOffset.toNat = 12 then t.phase = if b = 3 ∨ b = 4 then .header else .error
        else t.phase =
          if (b = 0 ∨ b = 1) ∧ s.width.toNat * s.height.toNat * s.channels.toNat ≤ s.fbBytes then .payload
          else .error)
    ∧ (∀ b, consumedToken s = some (.byte b) → s.phase = .payload →
        t.phase =
          if b = 0x01 ∧ s.zpend = 7 then
            (if s.opNeed = 0 ∧ s.mp = false ∧ s.pixCount = s.expected then .done else .error)
          else .payload)

/-- IN_OFFSET counts the consumed bytes since START and saturates; EOF does not count (10_state.md R39). What is
consumed is said by the pins: `in_eof` = 1 is EOF whatever `in_valid` is (20_memory.md R62). -/
def Obligations.InputOffsetCountsConsumedBytes : Prop :=
  ∀ s t : State, step s = .next t → s.nextEdge.rst = false → takesStart s = false →
    t.inOffset.toNat =
      if (s.phase = .header ∨ s.phase = .payload) ∧ s.nextEdge.busy = false then
        match s.source with
        | [] => s.inOffset.toNat
        | p :: _ =>
          if p.eof = false ∧ p.valid = true then min (s.inOffset.toNat + 1) (2 ^ 64 - 1) else s.inOffset.toNat
      else s.inOffset.toNat

/-- In IDLE, DONE and ERROR no token is consumed and, without START or reset, every element of the decoder's state is
held but IRQ_EN, which a CTRL write sets (60_exceptions.md R285, R301; 41_stream_extractor.md R146). -/
def Obligations.QuiescentPhasesHoldTheirState : Prop :=
  ∀ s t : State, step s = .next t → s.phase.busy = false → s.nextEdge.rst = false →
    t.source = s.source
      ∧ (takesStart s = false → t = { s with irqEn := t.irqEn, edges := t.edges, regRdata := t.regRdata,
                                             fbRdata := t.fbRdata })

/-- PREV_VALID and MP never return to 0 within a decode (10_state.md R26, R44). -/
def Obligations.LatchesHoldWithinADecode : Prop :=
  ∀ s t : State, step s = .next t → s.nextEdge.rst = false → takesStart s = false →
    (s.prevValid = true → t.prevValid = true) ∧ (s.mp = true → t.mp = true)

/-! ## The host -/

/-- START in IDLE, DONE or ERROR, by a write to CTRL with bit 0 = 1: every element of the decode state takes the value of
46_host_commands.md R261, IRQ_EN that of bit 1, the framebuffer stays, and no token is consumed on this edge
(20_memory.md R64). PREV is left free. -/
def Obligations.StartInitialisesTheDecode : Prop :=
  ∀ s : State, takesStart s = true →
    ∃ t, step s = .next t
      ∧ t = { s with
          cache := t.cache, prevValid := false, prev := t.prev, mp := false, width := 0, height := 0, channels := 0,
          colorspace := 0, hdrValid := false, expected := 0, inOffset := 0, payloadLen := 0, opCount := 0,
          pixCount := 0, zpend := 0, opLead := 0, opNeed := 0, opGot := 0, opTb := t.opTb, opLeadPos := 0,
          errCode := .none, errValue := 0, errOffset := 0, errOpIndex := 0, phase := .header,
          irqEn := s.nextEdge.regWdata.getLsbD 1, epoch := t.epoch, edges := s.edges.tail,
          regRdata := t.regRdata, fbRdata := t.fbRdata }
      ∧ (∀ slot, t.cacheRead slot = ⟨.rgba, 0, 0, 0, 0⟩) ∧ (∀ k : Fin 4, t.opTb[k] = 0) ∧ irq t = false

/-- A write to CTRL while a decode is in progress sets IRQ_EN and nothing else (46_host_commands.md R262, R263). -/
def Obligations.StartWhileBusyIsIgnored : Prop :=
  ∀ (s : State) (data : Word), s.phase = .header ∨ s.phase = .payload →
    registerWrite 0x00 data s = { s with irqEn := data.getLsbD 1 }

/-- Every write to CTRL sets IRQ_EN to bit 1, in every phase; bits 31:2 have no effect; a write to any other offset has
none at all (46_host_commands.md R263, R264, R265). -/
def Obligations.OnlyControlIsWritable : Prop :=
  ∀ (s : State) (addr : Byte) (data : Word),
    (registerWrite 0x00 data s).irqEn = data.getLsbD 1
      ∧ (∀ other : Word, other.getLsbD 0 = data.getLsbD 0 → other.getLsbD 1 = data.getLsbD 1 →
          registerWrite 0x00 other s = registerWrite 0x00 data s)
      ∧ (addr ≠ 0x00 → registerWrite addr data s = s)
      ∧ registerRead s 0x00 = (if s.irqEn then 2 else 0)

/-- An offset that is not a multiple of 4, or maps no register, reads 0 and ignores writes (46_host_commands.md
R266). -/
def Obligations.UnmappedOffsetsReadZero : Prop :=
  ∀ (s : State) (addr : Byte) (data : Word), addr.toNat % 4 ≠ 0 ∨ addr = 0x1C ∨ 0x58 ≤ addr.toNat →
    registerRead s addr = 0 ∧ registerWrite addr data s = s

/-- The fields of STATUS (10_state.md R32; 60_exceptions.md R292). -/
def Obligations.StatusShowsPhaseAndInterrupt : Prop :=
  ∀ s : State,
    (registerRead s 0x04).toNat =
      (match s.phase with
        | .idle => 0
        | .header => 1
        | .payload => 2
        | .done => 3
        | .error => 4)
      + 8 * s.hdrValid.toNat + 16 * (irq s).toNat
      ∧ irq s = (s.irqEn && (s.phase == .done || s.phase == .error))

/-- The data registers of the map (10_state.md R30, R33 to R36, R40, R41, R43; 20_memory.md R70), ERR_CODE by the numbers
of 60_exceptions.md R281. -/
def Obligations.RegisterMapShowsTheState : Prop :=
  ∀ s : State,
    (registerRead s 0x08).toNat =
      (match s.errCode with
        | .none => 0
        | .endOfInput => 1
        | .invalidMagic => 2
        | .unknownChannelMode => 3
        | .unknownColorSpace => 4
        | .unexpectedEndOfInput => 5
        | .missingPredecessor => 6
        | .pixelCountMismatch => 7
        | .capacityExceeded => 8
        | .internalConsistency => 15)
      ∧ (registerRead s 0x0C).toNat = s.errValue.toNat
      ∧ registerRead s 0x10 = s.width ∧ registerRead s 0x14 = s.height
      ∧ (registerRead s 0x18).toNat = s.colorspace.toNat * 256 + s.channels.toNat
      ∧ registerRead s 0x24 ++ registerRead s 0x20 = s.expected
      ∧ registerRead s 0x34 ++ registerRead s 0x30 = s.inOffset
      ∧ registerRead s 0x3C ++ registerRead s 0x38 = s.errOffset
      ∧ registerRead s 0x44 ++ registerRead s 0x40 = s.errOpIndex
      ∧ registerRead s 0x54 ++ registerRead s 0x50 = s.payloadLen

/-- PIXCOUNT and OPCOUNT read live outside ERROR, and in ERROR after PixelCountMismatch (10_state.md R38, R42;
60_exceptions.md R286). -/
def Obligations.CountsAreReadableWhereSpecified : Prop :=
  ∀ s : State, s.phase ≠ .error ∨ s.errCode = .pixelCountMismatch →
    registerRead s 0x2C ++ registerRead s 0x28 = s.pixCount ∧ registerRead s 0x4C ++ registerRead s 0x48 = s.opCount

/-- A read returns the value before anything of its edge happens, and never changes the decoder's state
(46_host_commands.md R267; 20_memory.md R64): where the host writes nothing and the decoder looks at no token, only the
model's record of what was read changes. On an edge that reads and writes (`reg_re` = `reg_we` = 1) that the read returns
the value before the write is the model's reading of the two rules, which name no such edge (log entry 15, DEDUCED). That
an address is taken modulo 2^FB_AW is log entry 16, and the record itself log entry 12. -/
def Obligations.ReadsHaveNoSideEffect : Prop :=
  ∀ s t : State, step s = .next t → s.nextEdge.rst = false →
    (s.nextEdge.regRe = true → t.regRdata = registerRead s s.nextEdge.regAddr)
      ∧ (∀ a, s.nextEdge.fbRaddr = some a → a < s.fbBytes → t.fbRdata = fbPortRead s a)
      ∧ (s.nextEdge.regWe = false → s.phase.busy = false ∨ s.nextEdge.busy = true ∨ s.source = [] →
          OnlyHostView s t)

/-- The framebuffer read port: the byte of the result in DONE, 0 at and above FB_BYTES (20_memory.md R67). -/
def Obligations.FramebufferPortShowsTheResult : Prop :=
  ∀ (s : State) (a : Nat),
    (s.fbBytes ≤ a → fbPortRead s a = 0)
      ∧ (Inv s → s.phase = .done → a < s.expected.toNat * s.channels.toNat → fbPortRead s a = s.fb.read a)

/-! ## Reset -/

/-- An edge with `rst` = 1, in whatever phase and whatever else happens on it (70_reset_and_hazards.md R320): every
element the rule gives a value takes it; no token is consumed and no host access is performed. The values of PREV,
CACHE and FB are the model's choice and not stated. -/
def Obligations.ResetEdgeRestoresEveryElement : Prop :=
  ∀ s : State, s.nextEdge.rst = true →
    ∃ t, step s = .next t
      ∧ t = { s with
          phase := .idle, irqEn := false, hdrValid := false, width := 0, height := 0, channels := 0, colorspace := 0,
          expected := 0, inOffset := 0, payloadLen := 0, opCount := 0, pixCount := 0, errCode := .none, errValue := 0,
          errOffset := 0, errOpIndex := 0, zpend := 0, opLead := 0, opNeed := 0, opGot := 0, opTb := t.opTb,
          opLeadPos := 0, mp := false, prevValid := false, prev := t.prev, cache := t.cache, fb := t.fb,
          epoch := t.epoch, edges := s.edges.tail }
      ∧ ∀ k : Fin 4, t.opTb[k] = 0

/-- The outputs after reset (70_reset_and_hazards.md R321). -/
def Obligations.OutputsAfterReset : Prop :=
  inReady State.reset = false ∧ irq State.reset = false ∧ (∀ addr, registerRead State.reset addr = 0)
    ∧ ∀ s t : State, s.nextEdge.rst = true → step s = .next t →
      inReady t = false ∧ irq t = false ∧ ∀ addr, registerRead t addr = 0

/-! ## Invariants -/

/-- The invariant holds at reset (10_state.md R48; the values of PREV, CACHE and FB are log entries 2, 3 and 4). -/
def Obligations.ResetStateMeetsTheInvariant : Prop := Inv State.reset

/-- Every step keeps the invariant, from every state that meets it (10_state.md R48). On an edge with `rst` = 1 the
clauses on the cache, `cacheStored` and `cacheHome`, hold by the model's choice of log entry 5 alone: R320 leaves CACHE
unspecified there, and R24 and R227 speak of the cache a START and operations have written. -/
def Obligations.EveryStepKeepsTheInvariant : Prop :=
  ∀ s t : State, Inv s → step s = .next t → Inv t

/-- From every state that meets the invariant a step answers a next state: no write falls outside the framebuffer and no
step faults (20_memory.md R66; log entry 13). -/
def Obligations.NoReachableStepFaults : Prop :=
  ∀ s : State, Inv s → ∃ t, step s = .next t

/-! ## Whole decodes -/

/-- The byte-serial machine, started by START and fed `x` and then EOF, ends as the staged reference decoder says:
DONE with the same image exactly when it succeeds, ERROR with the same code exactly when it fails (60_exceptions.md
R290). -/
def Obligations.MachineAgreesWithTheStagedDecoder : Prop :=
  ∀ (s : State) (x : List Byte), s.phase.busy = false → s.fb.wf = true →
    ∃ k t, k ≤ x.length + 1 ∧ clockEdges k (startedOn s x) = .next t
      ∧ AgreesWith t (staged s.fbBytes x)

/-- A failing decode reports the context of the staged reference decoder's failure, in that priority, while the input is
shorter than the counters can count (60_exceptions.md R282, R289). -/
def Obligations.ErrorReportIsThatOfTheStagedDecoder : Prop :=
  ∀ (s : State) (x : List Byte) (f : Failure), s.phase.busy = false → s.fb.wf = true → x.length < 2 ^ 63 →
    staged s.fbBytes x = .error f →
    ∃ k t, k ≤ x.length + 1 ∧ clockEdges k (startedOn s x) = .next t ∧ t.phase = .error
      ∧ t.errCode = f.code ∧ t.errValue = f.value ∧ t.errOffset.toNat = f.offset ∧ t.errOpIndex.toNat = f.opIndex

/-- A decode of n bytes followed by EOF ends in DONE or ERROR after at most n + 1 tokens (70_reset_and_hazards.md
R336). -/
def Obligations.EveryDecodeEnds : Prop :=
  ∀ (s : State) (x : List Byte), s.phase.busy = false → s.fb.wf = true →
    ∃ k t, k ≤ x.length + 1 ∧ clockEdges k (startedOn s x) = .next t ∧ (t.phase = .done ∨ t.phase = .error)

/-- One decode never affects the result of the next (70_reset_and_hazards.md R325): two machines with the same FB_BYTES,
whatever they decoded before, end the decode of the same input with the same outcome. -/
def Obligations.EarlierDecodesDoNotMatter : Prop :=
  ∀ (s s' : State) (x : List Byte), s.phase.busy = false → s'.phase.busy = false → s.fbBytes = s'.fbBytes →
    s.fb.wf = true → s'.fb.wf = true →
    ∃ k k' t t', clockEdges k (startedOn s x) = .next t ∧ clockEdges k' (startedOn s' x) = .next t'
      ∧ t.phase.ended = true ∧ t.phase = t'.phase ∧ t.errCode = t'.errCode
      ∧ (t.phase = .done → t.width = t'.width ∧ t.height = t'.height ∧ t.channels = t'.channels
          ∧ t.colorspace = t'.colorspace
          ∧ ∀ a, a < t.expected.toNat * t.channels.toNat → fbPortRead t a = fbPortRead t' a)

/-! ## What cannot be observed -/

/-- The kind bit is not observable (10_state.md R25): states that differ only in kind bits step to states that differ
only in kind bits. On an edge with `rst` = 1 that the two caches and PREVs agree is the model's choice of log entry 5
(R320 leaves them unspecified), and after a START that the two PREVs do is that of log entry 6. -/
def Obligations.KindBitIsNotObservable : Prop :=
  ∀ s s' t : State, eraseKinds s = eraseKinds s' → step s = .next t →
    ∃ t', step s' = .next t' ∧ eraseKinds t = eraseKinds t'

/-- The color space has no effect on decoding (40_header.md R129). -/
def Obligations.ColorSpaceHasNoEffect : Prop :=
  ∀ (s t : State) (tok : Token) (cs : Byte), s.phase = .payload → decoderStep tok s = .next t →
    decoderStep tok { s with colorspace := cs } = .next { t with colorspace := cs }

/-! ## Input tokens -/

/-- What a step consumes, said by the pins (20_memory.md R62): `in_eof` = 1 is EOF, whatever `in_valid` and `in_data`
are; otherwise `in_valid` = 1 is the byte on `in_data`; each consumed token is one decoder step, after the edge's host
access (20_memory.md R64); a token that is not consumed stays with the source. Outside HEADER and PAYLOAD nothing is
consumed. Two clauses are the model's choice and no rule of the spec: that `epoch` advances with a consumed token (log
entry 10), and that the source is a list whose entry that presents nothing is dropped (log entry 11). -/
def Obligations.TokensAreTakenFromThePins : Prop :=
  ∀ s : State, s.nextEdge.rst = false →
    let v := hostAccess s.nextEdge s.popEdge
    (∀ p rest, (s.phase = .header ∨ s.phase = .payload) → s.nextEdge.busy = false → s.source = p :: rest →
      (p.eof = true → consumedToken s = some .eof
        ∧ step s = decoderStep .eof { v with source := rest, epoch := v.epoch + 1 }
        ∧ ∃ t, step s = .next t ∧ t.phase = .error ∧ t.errCode = .endOfInput)
      ∧ (p.eof = false → p.valid = true → consumedToken s = some (.byte p.data)
        ∧ step s = decoderStep (.byte p.data) { v with source := rest, epoch := v.epoch + 1 })
      ∧ (p.eof = false → p.valid = false → consumedToken s = none ∧ step s = .next { v with source := rest }))
    ∧ (¬(s.phase = .header ∨ s.phase = .payload) ∨ s.nextEdge.busy = true ∨ s.source = [] →
      consumedToken s = none ∧ step s = .next v ∧ v.source = s.source)
end

