-- ==== Sys2Proof/Laws/Memory.lean ====
section
/-! SUPPORT. The framebuffer: every operation keeps the canonical form, and a read after a write. -/

namespace Sys2Proof.Machine

theorem Memory.wfFrom_mono {lo lo' : Nat} (h : lo' ≤ lo) : ∀ {m : Memory}, m.wfFrom lo = true → m.wfFrom lo' = true
  | [], _ => rfl
  | (a, v) :: m, hm => by
    simp only [Memory.wfFrom, Bool.and_eq_true, decide_eq_true_eq] at hm ⊢
    exact ⟨⟨le_trans h hm.1.1, hm.1.2⟩, hm.2⟩

theorem Memory.read_below {lo a : Nat} (h : a < lo) : ∀ {m : Memory}, m.wfFrom lo = true → m.read a = Memory.unlisted
  | [], _ => rfl
  | (b, w) :: m, hm => by
    simp only [Memory.wfFrom, Bool.and_eq_true, decide_eq_true_eq] at hm
    have : a ≠ b := by omega
    simp only [Memory.read, this, if_false]
    exact Memory.read_below (by omega) hm.2

theorem Memory.wfFrom_write {a : Nat} {v : Byte} :
    ∀ {lo : Nat} {m : Memory}, lo ≤ a → m.wfFrom lo = true → (m.write a v).wfFrom lo = true
  | lo, [], ha, _ => by
    unfold Memory.write
    split
    · rfl
    · simp_all [Memory.wfFrom]
  | lo, (b, w) :: m, ha, hm => by
    simp only [Memory.wfFrom, Bool.and_eq_true, decide_eq_true_eq] at hm
    unfold Memory.write
    split
    · split
      · simp_all [Memory.wfFrom]
      · rename_i hv
        simp only [Memory.wfFrom, Bool.and_eq_true, decide_eq_true_eq, bne_iff_ne]
        exact ⟨⟨ha, hv⟩, ⟨by omega, by simpa using hm.1.2⟩, hm.2⟩
    · split
      · rename_i heq
        subst heq
        split
        · exact Memory.wfFrom_mono (by omega) hm.2
        · rename_i hv
          simp only [Memory.wfFrom, Bool.and_eq_true, decide_eq_true_eq, bne_iff_ne]
          exact ⟨⟨ha, hv⟩, hm.2⟩
      · simp only [Memory.wfFrom, Bool.and_eq_true, decide_eq_true_eq]
        exact ⟨hm.1, Memory.wfFrom_write (by omega) hm.2⟩

/-- A write keeps the canonical form. -/
theorem Memory.wf_write {m : Memory} (a : Nat) (v : Byte) (h : m.wf = true) : (m.write a v).wf = true :=
  Memory.wfFrom_write (Nat.zero_le a) h

theorem Memory.wf_writeBytes {bs : List Byte} :
    ∀ {m : Memory} {a : Nat}, m.wf = true → (m.writeBytes a bs).wf = true := by
  induction bs with
  | nil => intro m a h; exact h
  | cons v vs ih => intro m a h; exact ih (Memory.wf_write a v h)

theorem Memory.read_write_from {a c : Nat} {v : Byte} :
    ∀ {lo : Nat} {m : Memory}, m.wfFrom lo = true → (m.write a v).read c = if c = a then v else m.read c
  | _, [], _ => by
    unfold Memory.write
    by_cases hv : v = Memory.unlisted <;> by_cases hc : c = a <;> simp [Memory.read, hv, hc]
  | _, (b, w) :: m, hm => by
    simp only [Memory.wfFrom, Bool.and_eq_true, decide_eq_true_eq] at hm
    unfold Memory.write
    by_cases hab : a < b
    · have hne : a ≠ b := by omega
      have hbelow : Memory.read m a = Memory.unlisted := Memory.read_below (lo := b + 1) (by omega) hm.2
      by_cases hv : v = Memory.unlisted <;> by_cases hc : c = a <;> simp_all [Memory.read]
    · by_cases heq : a = b
      · subst heq
        have hbelow : Memory.read m a = Memory.unlisted := Memory.read_below (lo := a + 1) (by omega) hm.2
        by_cases hv : v = Memory.unlisted <;> by_cases hc : c = a <;> simp_all [Memory.read]
      · have ih := Memory.read_write_from (a := a) (c := c) (v := v) hm.2
        have hba : b ≠ a := fun h => heq h.symm
        by_cases hc : c = b
        · subst hc; simp [hab, heq, Memory.read, hba]
        · simp [hab, heq, Memory.read, hc, ih]

/-- A read after a write gives the value written, and every other byte as before. -/
theorem Memory.read_write {m : Memory} (a c : Nat) (v : Byte) (h : m.wf = true) :
    (m.write a v).read c = if c = a then v else m.read c := Memory.read_write_from h

/-- A read after writing several bytes. -/
theorem Memory.read_writeBytes {bs : List Byte} :
    ∀ {m : Memory} {a : Nat} (c : Nat), m.wf = true →
      (m.writeBytes a bs).read c = if a ≤ c ∧ c < a + bs.length then bs.getD (c - a) 0 else m.read c := by
  induction bs with
  | nil => intro m a c h; simp [Memory.writeBytes]
  | cons v vs ih =>
    intro m a c h
    rw [Memory.writeBytes, ih c (Memory.wf_write a v h), Memory.read_write a c v h]
    by_cases h1 : a + 1 ≤ c ∧ c < a + 1 + vs.length
    · have h2 : a ≤ c ∧ c < a + (v :: vs).length := by simp; omega
      rw [if_pos h1, if_pos h2]
      obtain ⟨k, rfl⟩ : ∃ k, c = a + 1 + k := ⟨c - (a + 1), by omega⟩
      have e1 : a + 1 + k - (a + 1) = k := by omega
      have e2 : a + 1 + k - a = k + 1 := by omega
      rw [e1, e2, List.getD_cons_succ]
    · rw [if_neg h1]
      by_cases hc : c = a
      · subst hc; simp
      · have h2 : ¬(a ≤ c ∧ c < a + (v :: vs).length) := by simp; omega
        rw [if_neg hc, if_neg h2]

theorem Memory.mem_write {a : Nat} {v : Byte} {c : Host.Cell} :
    ∀ {m : Memory}, c ∈ m.write a v → c ∈ m ∨ c = (a, v)
  | [], h => by
    unfold Memory.write at h
    split at h <;> simp_all
  | (b, w) :: m, h => by
    unfold Memory.write at h
    split at h
    · split at h
      · exact .inl h
      · rcases List.mem_cons.1 h with h | h
        · exact .inr h
        · exact .inl h
    · split at h
      · split at h
        · exact .inl (List.mem_cons_of_mem _ h)
        · rcases List.mem_cons.1 h with h | h
          · exact .inr h
          · exact .inl (List.mem_cons_of_mem _ h)
      · rcases List.mem_cons.1 h with h | h
        · exact .inl (by rw [h]; exact List.mem_cons_self)
        · rcases Memory.mem_write h with h | h
          · exact .inl (List.mem_cons_of_mem _ h)
          · exact .inr h

/-- Writing bytes below `n` lists no address at or above `n`. -/
theorem Memory.inside_writeBytes {n : Nat} {bs : List Byte} :
    ∀ {m : Memory} {a : Nat}, a + bs.length ≤ n → (∀ c ∈ m, c.1 < n) → ∀ c ∈ m.writeBytes a bs, c.1 < n := by
  induction bs with
  | nil => intro m a _ h; exact h
  | cons v vs ih =>
    intro m a ha h
    simp only [List.length_cons] at ha
    refine ih (by omega) fun c hc => ?_
    rcases Memory.mem_write hc with hc | rfl
    · exact h c hc
    · simp only; omega

/-- The framebuffer right after reset is canonical. -/
theorem reset_fb_wf : State.reset.fb.wf = true := rfl

end Sys2Proof.Machine
end

