-- ==== Sys2Proof/Laws/State.lean ====
section
/-! SUPPORT. One lemma per field per named update of State, so that no proof unfolds a record update. -/

namespace Sys2Proof.Machine

variable (s : State)

/-! ### countInput -/

@[simp] theorem countInput_phase : s.countInput.phase = s.phase := rfl
@[simp] theorem countInput_irqEn : s.countInput.irqEn = s.irqEn := rfl
@[simp] theorem countInput_width : s.countInput.width = s.width := rfl
@[simp] theorem countInput_height : s.countInput.height = s.height := rfl
@[simp] theorem countInput_channels : s.countInput.channels = s.channels := rfl
@[simp] theorem countInput_colorspace : s.countInput.colorspace = s.colorspace := rfl
@[simp] theorem countInput_hdrValid : s.countInput.hdrValid = s.hdrValid := rfl
@[simp] theorem countInput_expected : s.countInput.expected = s.expected := rfl
@[simp] theorem countInput_inOffset : s.countInput.inOffset = sat64 (s.inOffset.toNat + 1) := rfl
@[simp] theorem countInput_payloadLen : s.countInput.payloadLen = s.payloadLen := rfl
@[simp] theorem countInput_opCount : s.countInput.opCount = s.opCount := rfl
@[simp] theorem countInput_pixCount : s.countInput.pixCount = s.pixCount := rfl
@[simp] theorem countInput_errCode : s.countInput.errCode = s.errCode := rfl
@[simp] theorem countInput_errValue : s.countInput.errValue = s.errValue := rfl
@[simp] theorem countInput_errOffset : s.countInput.errOffset = s.errOffset := rfl
@[simp] theorem countInput_errOpIndex : s.countInput.errOpIndex = s.errOpIndex := rfl
@[simp] theorem countInput_zpend : s.countInput.zpend = s.zpend := rfl
@[simp] theorem countInput_opLead : s.countInput.opLead = s.opLead := rfl
@[simp] theorem countInput_opNeed : s.countInput.opNeed = s.opNeed := rfl
@[simp] theorem countInput_opGot : s.countInput.opGot = s.opGot := rfl
@[simp] theorem countInput_opTb : s.countInput.opTb = s.opTb := rfl
@[simp] theorem countInput_opLeadPos : s.countInput.opLeadPos = s.opLeadPos := rfl
@[simp] theorem countInput_mp : s.countInput.mp = s.mp := rfl
@[simp] theorem countInput_prevValid : s.countInput.prevValid = s.prevValid := rfl
@[simp] theorem countInput_prev : s.countInput.prev = s.prev := rfl
@[simp] theorem countInput_cache : s.countInput.cache = s.cache := rfl
@[simp] theorem countInput_fb : s.countInput.fb = s.fb := rfl
@[simp] theorem countInput_fbBytes : s.countInput.fbBytes = s.fbBytes := rfl
@[simp] theorem countInput_epoch : s.countInput.epoch = s.epoch := rfl
@[simp] theorem countInput_source : s.countInput.source = s.source := rfl
@[simp] theorem countInput_edges : s.countInput.edges = s.edges := rfl
@[simp] theorem countInput_regRdata : s.countInput.regRdata = s.regRdata := rfl
@[simp] theorem countInput_fbRdata : s.countInput.fbRdata = s.fbRdata := rfl

/-! ### countPayload -/

@[simp] theorem countPayload_phase : s.countPayload.phase = s.phase := rfl
@[simp] theorem countPayload_irqEn : s.countPayload.irqEn = s.irqEn := rfl
@[simp] theorem countPayload_width : s.countPayload.width = s.width := rfl
@[simp] theorem countPayload_height : s.countPayload.height = s.height := rfl
@[simp] theorem countPayload_channels : s.countPayload.channels = s.channels := rfl
@[simp] theorem countPayload_colorspace : s.countPayload.colorspace = s.colorspace := rfl
@[simp] theorem countPayload_hdrValid : s.countPayload.hdrValid = s.hdrValid := rfl
@[simp] theorem countPayload_expected : s.countPayload.expected = s.expected := rfl
@[simp] theorem countPayload_inOffset : s.countPayload.inOffset = s.inOffset := rfl
@[simp] theorem countPayload_payloadLen : s.countPayload.payloadLen = sat64 (s.payloadLen.toNat + 1) := rfl
@[simp] theorem countPayload_opCount : s.countPayload.opCount = s.opCount := rfl
@[simp] theorem countPayload_pixCount : s.countPayload.pixCount = s.pixCount := rfl
@[simp] theorem countPayload_errCode : s.countPayload.errCode = s.errCode := rfl
@[simp] theorem countPayload_errValue : s.countPayload.errValue = s.errValue := rfl
@[simp] theorem countPayload_errOffset : s.countPayload.errOffset = s.errOffset := rfl
@[simp] theorem countPayload_errOpIndex : s.countPayload.errOpIndex = s.errOpIndex := rfl
@[simp] theorem countPayload_zpend : s.countPayload.zpend = s.zpend := rfl
@[simp] theorem countPayload_opLead : s.countPayload.opLead = s.opLead := rfl
@[simp] theorem countPayload_opNeed : s.countPayload.opNeed = s.opNeed := rfl
@[simp] theorem countPayload_opGot : s.countPayload.opGot = s.opGot := rfl
@[simp] theorem countPayload_opTb : s.countPayload.opTb = s.opTb := rfl
@[simp] theorem countPayload_opLeadPos : s.countPayload.opLeadPos = s.opLeadPos := rfl
@[simp] theorem countPayload_mp : s.countPayload.mp = s.mp := rfl
@[simp] theorem countPayload_prevValid : s.countPayload.prevValid = s.prevValid := rfl
@[simp] theorem countPayload_prev : s.countPayload.prev = s.prev := rfl
@[simp] theorem countPayload_cache : s.countPayload.cache = s.cache := rfl
@[simp] theorem countPayload_fb : s.countPayload.fb = s.fb := rfl
@[simp] theorem countPayload_fbBytes : s.countPayload.fbBytes = s.fbBytes := rfl
@[simp] theorem countPayload_epoch : s.countPayload.epoch = s.epoch := rfl
@[simp] theorem countPayload_source : s.countPayload.source = s.source := rfl
@[simp] theorem countPayload_edges : s.countPayload.edges = s.edges := rfl
@[simp] theorem countPayload_regRdata : s.countPayload.regRdata = s.regRdata := rfl
@[simp] theorem countPayload_fbRdata : s.countPayload.fbRdata = s.fbRdata := rfl

/-! ### countPixel -/

@[simp] theorem countPixel_phase : s.countPixel.phase = s.phase := rfl
@[simp] theorem countPixel_irqEn : s.countPixel.irqEn = s.irqEn := rfl
@[simp] theorem countPixel_width : s.countPixel.width = s.width := rfl
@[simp] theorem countPixel_height : s.countPixel.height = s.height := rfl
@[simp] theorem countPixel_channels : s.countPixel.channels = s.channels := rfl
@[simp] theorem countPixel_colorspace : s.countPixel.colorspace = s.colorspace := rfl
@[simp] theorem countPixel_hdrValid : s.countPixel.hdrValid = s.hdrValid := rfl
@[simp] theorem countPixel_expected : s.countPixel.expected = s.expected := rfl
@[simp] theorem countPixel_inOffset : s.countPixel.inOffset = s.inOffset := rfl
@[simp] theorem countPixel_payloadLen : s.countPixel.payloadLen = s.payloadLen := rfl
@[simp] theorem countPixel_opCount : s.countPixel.opCount = s.opCount := rfl
@[simp] theorem countPixel_pixCount : s.countPixel.pixCount = sat64 (s.pixCount.toNat + 1) := rfl
@[simp] theorem countPixel_errCode : s.countPixel.errCode = s.errCode := rfl
@[simp] theorem countPixel_errValue : s.countPixel.errValue = s.errValue := rfl
@[simp] theorem countPixel_errOffset : s.countPixel.errOffset = s.errOffset := rfl
@[simp] theorem countPixel_errOpIndex : s.countPixel.errOpIndex = s.errOpIndex := rfl
@[simp] theorem countPixel_zpend : s.countPixel.zpend = s.zpend := rfl
@[simp] theorem countPixel_opLead : s.countPixel.opLead = s.opLead := rfl
@[simp] theorem countPixel_opNeed : s.countPixel.opNeed = s.opNeed := rfl
@[simp] theorem countPixel_opGot : s.countPixel.opGot = s.opGot := rfl
@[simp] theorem countPixel_opTb : s.countPixel.opTb = s.opTb := rfl
@[simp] theorem countPixel_opLeadPos : s.countPixel.opLeadPos = s.opLeadPos := rfl
@[simp] theorem countPixel_mp : s.countPixel.mp = s.mp := rfl
@[simp] theorem countPixel_prevValid : s.countPixel.prevValid = s.prevValid := rfl
@[simp] theorem countPixel_prev : s.countPixel.prev = s.prev := rfl
@[simp] theorem countPixel_cache : s.countPixel.cache = s.cache := rfl
@[simp] theorem countPixel_fb : s.countPixel.fb = s.fb := rfl
@[simp] theorem countPixel_fbBytes : s.countPixel.fbBytes = s.fbBytes := rfl
@[simp] theorem countPixel_epoch : s.countPixel.epoch = s.epoch := rfl
@[simp] theorem countPixel_source : s.countPixel.source = s.source := rfl
@[simp] theorem countPixel_edges : s.countPixel.edges = s.edges := rfl
@[simp] theorem countPixel_regRdata : s.countPixel.regRdata = s.regRdata := rfl
@[simp] theorem countPixel_fbRdata : s.countPixel.fbRdata = s.fbRdata := rfl

/-! ### countOp -/

@[simp] theorem countOp_phase : s.countOp.phase = s.phase := rfl
@[simp] theorem countOp_irqEn : s.countOp.irqEn = s.irqEn := rfl
@[simp] theorem countOp_width : s.countOp.width = s.width := rfl
@[simp] theorem countOp_height : s.countOp.height = s.height := rfl
@[simp] theorem countOp_channels : s.countOp.channels = s.channels := rfl
@[simp] theorem countOp_colorspace : s.countOp.colorspace = s.colorspace := rfl
@[simp] theorem countOp_hdrValid : s.countOp.hdrValid = s.hdrValid := rfl
@[simp] theorem countOp_expected : s.countOp.expected = s.expected := rfl
@[simp] theorem countOp_inOffset : s.countOp.inOffset = s.inOffset := rfl
@[simp] theorem countOp_payloadLen : s.countOp.payloadLen = s.payloadLen := rfl
@[simp] theorem countOp_opCount : s.countOp.opCount = sat64 (s.opCount.toNat + 1) := rfl
@[simp] theorem countOp_pixCount : s.countOp.pixCount = s.pixCount := rfl
@[simp] theorem countOp_errCode : s.countOp.errCode = s.errCode := rfl
@[simp] theorem countOp_errValue : s.countOp.errValue = s.errValue := rfl
@[simp] theorem countOp_errOffset : s.countOp.errOffset = s.errOffset := rfl
@[simp] theorem countOp_errOpIndex : s.countOp.errOpIndex = s.errOpIndex := rfl
@[simp] theorem countOp_zpend : s.countOp.zpend = s.zpend := rfl
@[simp] theorem countOp_opLead : s.countOp.opLead = s.opLead := rfl
@[simp] theorem countOp_opNeed : s.countOp.opNeed = 0 := rfl
@[simp] theorem countOp_opGot : s.countOp.opGot = 0 := rfl
@[simp] theorem countOp_opTb : s.countOp.opTb = s.opTb := rfl
@[simp] theorem countOp_opLeadPos : s.countOp.opLeadPos = s.opLeadPos := rfl
@[simp] theorem countOp_mp : s.countOp.mp = s.mp := rfl
@[simp] theorem countOp_prevValid : s.countOp.prevValid = s.prevValid := rfl
@[simp] theorem countOp_prev : s.countOp.prev = s.prev := rfl
@[simp] theorem countOp_cache : s.countOp.cache = s.cache := rfl
@[simp] theorem countOp_fb : s.countOp.fb = s.fb := rfl
@[simp] theorem countOp_fbBytes : s.countOp.fbBytes = s.fbBytes := rfl
@[simp] theorem countOp_epoch : s.countOp.epoch = s.epoch := rfl
@[simp] theorem countOp_source : s.countOp.source = s.source := rfl
@[simp] theorem countOp_edges : s.countOp.edges = s.edges := rfl
@[simp] theorem countOp_regRdata : s.countOp.regRdata = s.regRdata := rfl
@[simp] theorem countOp_fbRdata : s.countOp.fbRdata = s.fbRdata := rfl

/-! ### latchMp -/

@[simp] theorem latchMp_phase : s.latchMp.phase = s.phase := rfl
@[simp] theorem latchMp_irqEn : s.latchMp.irqEn = s.irqEn := rfl
@[simp] theorem latchMp_width : s.latchMp.width = s.width := rfl
@[simp] theorem latchMp_height : s.latchMp.height = s.height := rfl
@[simp] theorem latchMp_channels : s.latchMp.channels = s.channels := rfl
@[simp] theorem latchMp_colorspace : s.latchMp.colorspace = s.colorspace := rfl
@[simp] theorem latchMp_hdrValid : s.latchMp.hdrValid = s.hdrValid := rfl
@[simp] theorem latchMp_expected : s.latchMp.expected = s.expected := rfl
@[simp] theorem latchMp_inOffset : s.latchMp.inOffset = s.inOffset := rfl
@[simp] theorem latchMp_payloadLen : s.latchMp.payloadLen = s.payloadLen := rfl
@[simp] theorem latchMp_opCount : s.latchMp.opCount = s.opCount := rfl
@[simp] theorem latchMp_pixCount : s.latchMp.pixCount = s.pixCount := rfl
@[simp] theorem latchMp_errCode : s.latchMp.errCode = s.errCode := rfl
@[simp] theorem latchMp_errValue : s.latchMp.errValue = s.errValue := rfl
@[simp] theorem latchMp_errOffset : s.latchMp.errOffset = s.errOffset := rfl
@[simp] theorem latchMp_errOpIndex : s.latchMp.errOpIndex = s.errOpIndex := rfl
@[simp] theorem latchMp_zpend : s.latchMp.zpend = s.zpend := rfl
@[simp] theorem latchMp_opLead : s.latchMp.opLead = s.opLead := rfl
@[simp] theorem latchMp_opNeed : s.latchMp.opNeed = s.opNeed := rfl
@[simp] theorem latchMp_opGot : s.latchMp.opGot = s.opGot := rfl
@[simp] theorem latchMp_opTb : s.latchMp.opTb = s.opTb := rfl
@[simp] theorem latchMp_opLeadPos : s.latchMp.opLeadPos = s.opLeadPos := rfl
@[simp] theorem latchMp_mp : s.latchMp.mp = true := rfl
@[simp] theorem latchMp_prevValid : s.latchMp.prevValid = s.prevValid := rfl
@[simp] theorem latchMp_prev : s.latchMp.prev = s.prev := rfl
@[simp] theorem latchMp_cache : s.latchMp.cache = s.cache := rfl
@[simp] theorem latchMp_fb : s.latchMp.fb = s.fb := rfl
@[simp] theorem latchMp_fbBytes : s.latchMp.fbBytes = s.fbBytes := rfl
@[simp] theorem latchMp_epoch : s.latchMp.epoch = s.epoch := rfl
@[simp] theorem latchMp_source : s.latchMp.source = s.source := rfl
@[simp] theorem latchMp_edges : s.latchMp.edges = s.edges := rfl
@[simp] theorem latchMp_regRdata : s.latchMp.regRdata = s.regRdata := rfl
@[simp] theorem latchMp_fbRdata : s.latchMp.fbRdata = s.fbRdata := rfl

/-! ### setPrev -/

@[simp] theorem setPrev_phase (p : Pixel) : (s.setPrev p).phase = s.phase := rfl
@[simp] theorem setPrev_irqEn (p : Pixel) : (s.setPrev p).irqEn = s.irqEn := rfl
@[simp] theorem setPrev_width (p : Pixel) : (s.setPrev p).width = s.width := rfl
@[simp] theorem setPrev_height (p : Pixel) : (s.setPrev p).height = s.height := rfl
@[simp] theorem setPrev_channels (p : Pixel) : (s.setPrev p).channels = s.channels := rfl
@[simp] theorem setPrev_colorspace (p : Pixel) : (s.setPrev p).colorspace = s.colorspace := rfl
@[simp] theorem setPrev_hdrValid (p : Pixel) : (s.setPrev p).hdrValid = s.hdrValid := rfl
@[simp] theorem setPrev_expected (p : Pixel) : (s.setPrev p).expected = s.expected := rfl
@[simp] theorem setPrev_inOffset (p : Pixel) : (s.setPrev p).inOffset = s.inOffset := rfl
@[simp] theorem setPrev_payloadLen (p : Pixel) : (s.setPrev p).payloadLen = s.payloadLen := rfl
@[simp] theorem setPrev_opCount (p : Pixel) : (s.setPrev p).opCount = s.opCount := rfl
@[simp] theorem setPrev_pixCount (p : Pixel) : (s.setPrev p).pixCount = s.pixCount := rfl
@[simp] theorem setPrev_errCode (p : Pixel) : (s.setPrev p).errCode = s.errCode := rfl
@[simp] theorem setPrev_errValue (p : Pixel) : (s.setPrev p).errValue = s.errValue := rfl
@[simp] theorem setPrev_errOffset (p : Pixel) : (s.setPrev p).errOffset = s.errOffset := rfl
@[simp] theorem setPrev_errOpIndex (p : Pixel) : (s.setPrev p).errOpIndex = s.errOpIndex := rfl
@[simp] theorem setPrev_zpend (p : Pixel) : (s.setPrev p).zpend = s.zpend := rfl
@[simp] theorem setPrev_opLead (p : Pixel) : (s.setPrev p).opLead = s.opLead := rfl
@[simp] theorem setPrev_opNeed (p : Pixel) : (s.setPrev p).opNeed = s.opNeed := rfl
@[simp] theorem setPrev_opGot (p : Pixel) : (s.setPrev p).opGot = s.opGot := rfl
@[simp] theorem setPrev_opTb (p : Pixel) : (s.setPrev p).opTb = s.opTb := rfl
@[simp] theorem setPrev_opLeadPos (p : Pixel) : (s.setPrev p).opLeadPos = s.opLeadPos := rfl
@[simp] theorem setPrev_mp (p : Pixel) : (s.setPrev p).mp = s.mp := rfl
@[simp] theorem setPrev_prevValid (p : Pixel) : (s.setPrev p).prevValid = true := rfl
@[simp] theorem setPrev_prev (p : Pixel) : (s.setPrev p).prev = p := rfl
@[simp] theorem setPrev_cache (p : Pixel) : (s.setPrev p).cache = s.cache := rfl
@[simp] theorem setPrev_fb (p : Pixel) : (s.setPrev p).fb = s.fb := rfl
@[simp] theorem setPrev_fbBytes (p : Pixel) : (s.setPrev p).fbBytes = s.fbBytes := rfl
@[simp] theorem setPrev_epoch (p : Pixel) : (s.setPrev p).epoch = s.epoch := rfl
@[simp] theorem setPrev_source (p : Pixel) : (s.setPrev p).source = s.source := rfl
@[simp] theorem setPrev_edges (p : Pixel) : (s.setPrev p).edges = s.edges := rfl
@[simp] theorem setPrev_regRdata (p : Pixel) : (s.setPrev p).regRdata = s.regRdata := rfl
@[simp] theorem setPrev_fbRdata (p : Pixel) : (s.setPrev p).fbRdata = s.fbRdata := rfl

/-! ### cacheWrite -/

@[simp] theorem cacheWrite_phase (i : Fin 64) (p : Pixel) : (s.cacheWrite i p).phase = s.phase := rfl
@[simp] theorem cacheWrite_irqEn (i : Fin 64) (p : Pixel) : (s.cacheWrite i p).irqEn = s.irqEn := rfl
@[simp] theorem cacheWrite_width (i : Fin 64) (p : Pixel) : (s.cacheWrite i p).width = s.width := rfl
@[simp] theorem cacheWrite_height (i : Fin 64) (p : Pixel) : (s.cacheWrite i p).height = s.height := rfl
@[simp] theorem cacheWrite_channels (i : Fin 64) (p : Pixel) : (s.cacheWrite i p).channels = s.channels := rfl
@[simp] theorem cacheWrite_colorspace (i : Fin 64) (p : Pixel) : (s.cacheWrite i p).colorspace = s.colorspace := rfl
@[simp] theorem cacheWrite_hdrValid (i : Fin 64) (p : Pixel) : (s.cacheWrite i p).hdrValid = s.hdrValid := rfl
@[simp] theorem cacheWrite_expected (i : Fin 64) (p : Pixel) : (s.cacheWrite i p).expected = s.expected := rfl
@[simp] theorem cacheWrite_inOffset (i : Fin 64) (p : Pixel) : (s.cacheWrite i p).inOffset = s.inOffset := rfl
@[simp] theorem cacheWrite_payloadLen (i : Fin 64) (p : Pixel) : (s.cacheWrite i p).payloadLen = s.payloadLen := rfl
@[simp] theorem cacheWrite_opCount (i : Fin 64) (p : Pixel) : (s.cacheWrite i p).opCount = s.opCount := rfl
@[simp] theorem cacheWrite_pixCount (i : Fin 64) (p : Pixel) : (s.cacheWrite i p).pixCount = s.pixCount := rfl
@[simp] theorem cacheWrite_errCode (i : Fin 64) (p : Pixel) : (s.cacheWrite i p).errCode = s.errCode := rfl
@[simp] theorem cacheWrite_errValue (i : Fin 64) (p : Pixel) : (s.cacheWrite i p).errValue = s.errValue := rfl
@[simp] theorem cacheWrite_errOffset (i : Fin 64) (p : Pixel) : (s.cacheWrite i p).errOffset = s.errOffset := rfl
@[simp] theorem cacheWrite_errOpIndex (i : Fin 64) (p : Pixel) : (s.cacheWrite i p).errOpIndex = s.errOpIndex := rfl
@[simp] theorem cacheWrite_zpend (i : Fin 64) (p : Pixel) : (s.cacheWrite i p).zpend = s.zpend := rfl
@[simp] theorem cacheWrite_opLead (i : Fin 64) (p : Pixel) : (s.cacheWrite i p).opLead = s.opLead := rfl
@[simp] theorem cacheWrite_opNeed (i : Fin 64) (p : Pixel) : (s.cacheWrite i p).opNeed = s.opNeed := rfl
@[simp] theorem cacheWrite_opGot (i : Fin 64) (p : Pixel) : (s.cacheWrite i p).opGot = s.opGot := rfl
@[simp] theorem cacheWrite_opTb (i : Fin 64) (p : Pixel) : (s.cacheWrite i p).opTb = s.opTb := rfl
@[simp] theorem cacheWrite_opLeadPos (i : Fin 64) (p : Pixel) : (s.cacheWrite i p).opLeadPos = s.opLeadPos := rfl
@[simp] theorem cacheWrite_mp (i : Fin 64) (p : Pixel) : (s.cacheWrite i p).mp = s.mp := rfl
@[simp] theorem cacheWrite_prevValid (i : Fin 64) (p : Pixel) : (s.cacheWrite i p).prevValid = s.prevValid := rfl
@[simp] theorem cacheWrite_prev (i : Fin 64) (p : Pixel) : (s.cacheWrite i p).prev = s.prev := rfl
@[simp] theorem cacheWrite_cache (i : Fin 64) (p : Pixel) : (s.cacheWrite i p).cache = s.cache.set i p := rfl
@[simp] theorem cacheWrite_fb (i : Fin 64) (p : Pixel) : (s.cacheWrite i p).fb = s.fb := rfl
@[simp] theorem cacheWrite_fbBytes (i : Fin 64) (p : Pixel) : (s.cacheWrite i p).fbBytes = s.fbBytes := rfl
@[simp] theorem cacheWrite_epoch (i : Fin 64) (p : Pixel) : (s.cacheWrite i p).epoch = s.epoch := rfl
@[simp] theorem cacheWrite_source (i : Fin 64) (p : Pixel) : (s.cacheWrite i p).source = s.source := rfl
@[simp] theorem cacheWrite_edges (i : Fin 64) (p : Pixel) : (s.cacheWrite i p).edges = s.edges := rfl
@[simp] theorem cacheWrite_regRdata (i : Fin 64) (p : Pixel) : (s.cacheWrite i p).regRdata = s.regRdata := rfl
@[simp] theorem cacheWrite_fbRdata (i : Fin 64) (p : Pixel) : (s.cacheWrite i p).fbRdata = s.fbRdata := rfl

/-! ### raise -/

@[simp] theorem raise_phase (c : ErrCode) (v : Byte) (o n : U64) : (s.raise c v o n).phase = .error := rfl
@[simp] theorem raise_irqEn (c : ErrCode) (v : Byte) (o n : U64) : (s.raise c v o n).irqEn = s.irqEn := rfl
@[simp] theorem raise_width (c : ErrCode) (v : Byte) (o n : U64) : (s.raise c v o n).width = s.width := rfl
@[simp] theorem raise_height (c : ErrCode) (v : Byte) (o n : U64) : (s.raise c v o n).height = s.height := rfl
@[simp] theorem raise_channels (c : ErrCode) (v : Byte) (o n : U64) : (s.raise c v o n).channels = s.channels := rfl
@[simp] theorem raise_colorspace (c : ErrCode) (v : Byte) (o n : U64) : (s.raise c v o n).colorspace = s.colorspace := rfl
@[simp] theorem raise_hdrValid (c : ErrCode) (v : Byte) (o n : U64) : (s.raise c v o n).hdrValid = s.hdrValid := rfl
@[simp] theorem raise_expected (c : ErrCode) (v : Byte) (o n : U64) : (s.raise c v o n).expected = s.expected := rfl
@[simp] theorem raise_inOffset (c : ErrCode) (v : Byte) (o n : U64) : (s.raise c v o n).inOffset = s.inOffset := rfl
@[simp] theorem raise_payloadLen (c : ErrCode) (v : Byte) (o n : U64) : (s.raise c v o n).payloadLen = s.payloadLen := rfl
@[simp] theorem raise_opCount (c : ErrCode) (v : Byte) (o n : U64) : (s.raise c v o n).opCount = s.opCount := rfl
@[simp] theorem raise_pixCount (c : ErrCode) (v : Byte) (o n : U64) : (s.raise c v o n).pixCount = s.pixCount := rfl
@[simp] theorem raise_errCode (c : ErrCode) (v : Byte) (o n : U64) : (s.raise c v o n).errCode = c := rfl
@[simp] theorem raise_errValue (c : ErrCode) (v : Byte) (o n : U64) : (s.raise c v o n).errValue = v := rfl
@[simp] theorem raise_errOffset (c : ErrCode) (v : Byte) (o n : U64) : (s.raise c v o n).errOffset = o := rfl
@[simp] theorem raise_errOpIndex (c : ErrCode) (v : Byte) (o n : U64) : (s.raise c v o n).errOpIndex = n := rfl
@[simp] theorem raise_zpend (c : ErrCode) (v : Byte) (o n : U64) : (s.raise c v o n).zpend = s.zpend := rfl
@[simp] theorem raise_opLead (c : ErrCode) (v : Byte) (o n : U64) : (s.raise c v o n).opLead = s.opLead := rfl
@[simp] theorem raise_opNeed (c : ErrCode) (v : Byte) (o n : U64) : (s.raise c v o n).opNeed = s.opNeed := rfl
@[simp] theorem raise_opGot (c : ErrCode) (v : Byte) (o n : U64) : (s.raise c v o n).opGot = s.opGot := rfl
@[simp] theorem raise_opTb (c : ErrCode) (v : Byte) (o n : U64) : (s.raise c v o n).opTb = s.opTb := rfl
@[simp] theorem raise_opLeadPos (c : ErrCode) (v : Byte) (o n : U64) : (s.raise c v o n).opLeadPos = s.opLeadPos := rfl
@[simp] theorem raise_mp (c : ErrCode) (v : Byte) (o n : U64) : (s.raise c v o n).mp = s.mp := rfl
@[simp] theorem raise_prevValid (c : ErrCode) (v : Byte) (o n : U64) : (s.raise c v o n).prevValid = s.prevValid := rfl
@[simp] theorem raise_prev (c : ErrCode) (v : Byte) (o n : U64) : (s.raise c v o n).prev = s.prev := rfl
@[simp] theorem raise_cache (c : ErrCode) (v : Byte) (o n : U64) : (s.raise c v o n).cache = s.cache := rfl
@[simp] theorem raise_fb (c : ErrCode) (v : Byte) (o n : U64) : (s.raise c v o n).fb = s.fb := rfl
@[simp] theorem raise_fbBytes (c : ErrCode) (v : Byte) (o n : U64) : (s.raise c v o n).fbBytes = s.fbBytes := rfl
@[simp] theorem raise_epoch (c : ErrCode) (v : Byte) (o n : U64) : (s.raise c v o n).epoch = s.epoch := rfl
@[simp] theorem raise_source (c : ErrCode) (v : Byte) (o n : U64) : (s.raise c v o n).source = s.source := rfl
@[simp] theorem raise_edges (c : ErrCode) (v : Byte) (o n : U64) : (s.raise c v o n).edges = s.edges := rfl
@[simp] theorem raise_regRdata (c : ErrCode) (v : Byte) (o n : U64) : (s.raise c v o n).regRdata = s.regRdata := rfl
@[simp] theorem raise_fbRdata (c : ErrCode) (v : Byte) (o n : U64) : (s.raise c v o n).fbRdata = s.fbRdata := rfl

/-! ### takeLead -/

@[simp] theorem takeLead_phase (c : Byte) : (s.takeLead c).phase = s.phase := rfl
@[simp] theorem takeLead_irqEn (c : Byte) : (s.takeLead c).irqEn = s.irqEn := rfl
@[simp] theorem takeLead_width (c : Byte) : (s.takeLead c).width = s.width := rfl
@[simp] theorem takeLead_height (c : Byte) : (s.takeLead c).height = s.height := rfl
@[simp] theorem takeLead_channels (c : Byte) : (s.takeLead c).channels = s.channels := rfl
@[simp] theorem takeLead_colorspace (c : Byte) : (s.takeLead c).colorspace = s.colorspace := rfl
@[simp] theorem takeLead_hdrValid (c : Byte) : (s.takeLead c).hdrValid = s.hdrValid := rfl
@[simp] theorem takeLead_expected (c : Byte) : (s.takeLead c).expected = s.expected := rfl
@[simp] theorem takeLead_inOffset (c : Byte) : (s.takeLead c).inOffset = s.inOffset := rfl
@[simp] theorem takeLead_payloadLen (c : Byte) : (s.takeLead c).payloadLen = s.payloadLen := rfl
@[simp] theorem takeLead_opCount (c : Byte) : (s.takeLead c).opCount = s.opCount := rfl
@[simp] theorem takeLead_pixCount (c : Byte) : (s.takeLead c).pixCount = s.pixCount := rfl
@[simp] theorem takeLead_errCode (c : Byte) : (s.takeLead c).errCode = s.errCode := rfl
@[simp] theorem takeLead_errValue (c : Byte) : (s.takeLead c).errValue = s.errValue := rfl
@[simp] theorem takeLead_errOffset (c : Byte) : (s.takeLead c).errOffset = s.errOffset := rfl
@[simp] theorem takeLead_errOpIndex (c : Byte) : (s.takeLead c).errOpIndex = s.errOpIndex := rfl
@[simp] theorem takeLead_zpend (c : Byte) : (s.takeLead c).zpend = s.zpend := rfl
@[simp] theorem takeLead_opLead (c : Byte) : (s.takeLead c).opLead = c := rfl
@[simp] theorem takeLead_opNeed (c : Byte) : (s.takeLead c).opNeed = s.opNeed := rfl
@[simp] theorem takeLead_opGot (c : Byte) : (s.takeLead c).opGot = s.opGot := rfl
@[simp] theorem takeLead_opTb (c : Byte) : (s.takeLead c).opTb = s.opTb := rfl
@[simp] theorem takeLead_opLeadPos (c : Byte) : (s.takeLead c).opLeadPos = leadOffset s := rfl
@[simp] theorem takeLead_mp (c : Byte) : (s.takeLead c).mp = s.mp := rfl
@[simp] theorem takeLead_prevValid (c : Byte) : (s.takeLead c).prevValid = s.prevValid := rfl
@[simp] theorem takeLead_prev (c : Byte) : (s.takeLead c).prev = s.prev := rfl
@[simp] theorem takeLead_cache (c : Byte) : (s.takeLead c).cache = s.cache := rfl
@[simp] theorem takeLead_fb (c : Byte) : (s.takeLead c).fb = s.fb := rfl
@[simp] theorem takeLead_fbBytes (c : Byte) : (s.takeLead c).fbBytes = s.fbBytes := rfl
@[simp] theorem takeLead_epoch (c : Byte) : (s.takeLead c).epoch = s.epoch := rfl
@[simp] theorem takeLead_source (c : Byte) : (s.takeLead c).source = s.source := rfl
@[simp] theorem takeLead_edges (c : Byte) : (s.takeLead c).edges = s.edges := rfl
@[simp] theorem takeLead_regRdata (c : Byte) : (s.takeLead c).regRdata = s.regRdata := rfl
@[simp] theorem takeLead_fbRdata (c : Byte) : (s.takeLead c).fbRdata = s.fbRdata := rfl

/-! ### openOp -/

@[simp] theorem openOp_phase (n : Nat) : (s.openOp n).phase = s.phase := rfl
@[simp] theorem openOp_irqEn (n : Nat) : (s.openOp n).irqEn = s.irqEn := rfl
@[simp] theorem openOp_width (n : Nat) : (s.openOp n).width = s.width := rfl
@[simp] theorem openOp_height (n : Nat) : (s.openOp n).height = s.height := rfl
@[simp] theorem openOp_channels (n : Nat) : (s.openOp n).channels = s.channels := rfl
@[simp] theorem openOp_colorspace (n : Nat) : (s.openOp n).colorspace = s.colorspace := rfl
@[simp] theorem openOp_hdrValid (n : Nat) : (s.openOp n).hdrValid = s.hdrValid := rfl
@[simp] theorem openOp_expected (n : Nat) : (s.openOp n).expected = s.expected := rfl
@[simp] theorem openOp_inOffset (n : Nat) : (s.openOp n).inOffset = s.inOffset := rfl
@[simp] theorem openOp_payloadLen (n : Nat) : (s.openOp n).payloadLen = s.payloadLen := rfl
@[simp] theorem openOp_opCount (n : Nat) : (s.openOp n).opCount = s.opCount := rfl
@[simp] theorem openOp_pixCount (n : Nat) : (s.openOp n).pixCount = s.pixCount := rfl
@[simp] theorem openOp_errCode (n : Nat) : (s.openOp n).errCode = s.errCode := rfl
@[simp] theorem openOp_errValue (n : Nat) : (s.openOp n).errValue = s.errValue := rfl
@[simp] theorem openOp_errOffset (n : Nat) : (s.openOp n).errOffset = s.errOffset := rfl
@[simp] theorem openOp_errOpIndex (n : Nat) : (s.openOp n).errOpIndex = s.errOpIndex := rfl
@[simp] theorem openOp_zpend (n : Nat) : (s.openOp n).zpend = s.zpend := rfl
@[simp] theorem openOp_opLead (n : Nat) : (s.openOp n).opLead = s.opLead := rfl
@[simp] theorem openOp_opNeed (n : Nat) : (s.openOp n).opNeed = BitVec.ofNat 3 n := rfl
@[simp] theorem openOp_opGot (n : Nat) : (s.openOp n).opGot = 0 := rfl
@[simp] theorem openOp_opTb (n : Nat) : (s.openOp n).opTb = s.opTb := rfl
@[simp] theorem openOp_opLeadPos (n : Nat) : (s.openOp n).opLeadPos = s.opLeadPos := rfl
@[simp] theorem openOp_mp (n : Nat) : (s.openOp n).mp = s.mp := rfl
@[simp] theorem openOp_prevValid (n : Nat) : (s.openOp n).prevValid = s.prevValid := rfl
@[simp] theorem openOp_prev (n : Nat) : (s.openOp n).prev = s.prev := rfl
@[simp] theorem openOp_cache (n : Nat) : (s.openOp n).cache = s.cache := rfl
@[simp] theorem openOp_fb (n : Nat) : (s.openOp n).fb = s.fb := rfl
@[simp] theorem openOp_fbBytes (n : Nat) : (s.openOp n).fbBytes = s.fbBytes := rfl
@[simp] theorem openOp_epoch (n : Nat) : (s.openOp n).epoch = s.epoch := rfl
@[simp] theorem openOp_source (n : Nat) : (s.openOp n).source = s.source := rfl
@[simp] theorem openOp_edges (n : Nat) : (s.openOp n).edges = s.edges := rfl
@[simp] theorem openOp_regRdata (n : Nat) : (s.openOp n).regRdata = s.regRdata := rfl
@[simp] theorem openOp_fbRdata (n : Nat) : (s.openOp n).fbRdata = s.fbRdata := rfl

/-! ### takeTrailing -/

@[simp] theorem takeTrailing_phase (c : Byte) : (s.takeTrailing c).phase = s.phase := rfl
@[simp] theorem takeTrailing_irqEn (c : Byte) : (s.takeTrailing c).irqEn = s.irqEn := rfl
@[simp] theorem takeTrailing_width (c : Byte) : (s.takeTrailing c).width = s.width := rfl
@[simp] theorem takeTrailing_height (c : Byte) : (s.takeTrailing c).height = s.height := rfl
@[simp] theorem takeTrailing_channels (c : Byte) : (s.takeTrailing c).channels = s.channels := rfl
@[simp] theorem takeTrailing_colorspace (c : Byte) : (s.takeTrailing c).colorspace = s.colorspace := rfl
@[simp] theorem takeTrailing_hdrValid (c : Byte) : (s.takeTrailing c).hdrValid = s.hdrValid := rfl
@[simp] theorem takeTrailing_expected (c : Byte) : (s.takeTrailing c).expected = s.expected := rfl
@[simp] theorem takeTrailing_inOffset (c : Byte) : (s.takeTrailing c).inOffset = s.inOffset := rfl
@[simp] theorem takeTrailing_payloadLen (c : Byte) : (s.takeTrailing c).payloadLen = s.payloadLen := rfl
@[simp] theorem takeTrailing_opCount (c : Byte) : (s.takeTrailing c).opCount = s.opCount := rfl
@[simp] theorem takeTrailing_pixCount (c : Byte) : (s.takeTrailing c).pixCount = s.pixCount := rfl
@[simp] theorem takeTrailing_errCode (c : Byte) : (s.takeTrailing c).errCode = s.errCode := rfl
@[simp] theorem takeTrailing_errValue (c : Byte) : (s.takeTrailing c).errValue = s.errValue := rfl
@[simp] theorem takeTrailing_errOffset (c : Byte) : (s.takeTrailing c).errOffset = s.errOffset := rfl
@[simp] theorem takeTrailing_errOpIndex (c : Byte) : (s.takeTrailing c).errOpIndex = s.errOpIndex := rfl
@[simp] theorem takeTrailing_zpend (c : Byte) : (s.takeTrailing c).zpend = s.zpend := rfl
@[simp] theorem takeTrailing_opLead (c : Byte) : (s.takeTrailing c).opLead = s.opLead := rfl
@[simp] theorem takeTrailing_opNeed (c : Byte) : (s.takeTrailing c).opNeed = s.opNeed := rfl
@[simp] theorem takeTrailing_opGot (c : Byte) : (s.takeTrailing c).opGot = s.opGot + 1 := rfl
@[simp] theorem takeTrailing_opTb (c : Byte) : (s.takeTrailing c).opTb = s.opTb.setIfInBounds s.opGot.toNat c := rfl
@[simp] theorem takeTrailing_opLeadPos (c : Byte) : (s.takeTrailing c).opLeadPos = s.opLeadPos := rfl
@[simp] theorem takeTrailing_mp (c : Byte) : (s.takeTrailing c).mp = s.mp := rfl
@[simp] theorem takeTrailing_prevValid (c : Byte) : (s.takeTrailing c).prevValid = s.prevValid := rfl
@[simp] theorem takeTrailing_prev (c : Byte) : (s.takeTrailing c).prev = s.prev := rfl
@[simp] theorem takeTrailing_cache (c : Byte) : (s.takeTrailing c).cache = s.cache := rfl
@[simp] theorem takeTrailing_fb (c : Byte) : (s.takeTrailing c).fb = s.fb := rfl
@[simp] theorem takeTrailing_fbBytes (c : Byte) : (s.takeTrailing c).fbBytes = s.fbBytes := rfl
@[simp] theorem takeTrailing_epoch (c : Byte) : (s.takeTrailing c).epoch = s.epoch := rfl
@[simp] theorem takeTrailing_source (c : Byte) : (s.takeTrailing c).source = s.source := rfl
@[simp] theorem takeTrailing_edges (c : Byte) : (s.takeTrailing c).edges = s.edges := rfl
@[simp] theorem takeTrailing_regRdata (c : Byte) : (s.takeTrailing c).regRdata = s.regRdata := rfl
@[simp] theorem takeTrailing_fbRdata (c : Byte) : (s.takeTrailing c).fbRdata = s.fbRdata := rfl

/-! ### setZpend -/

@[simp] theorem setZpend_phase (z : BitVec 3) : (s.setZpend z).phase = s.phase := rfl
@[simp] theorem setZpend_irqEn (z : BitVec 3) : (s.setZpend z).irqEn = s.irqEn := rfl
@[simp] theorem setZpend_width (z : BitVec 3) : (s.setZpend z).width = s.width := rfl
@[simp] theorem setZpend_height (z : BitVec 3) : (s.setZpend z).height = s.height := rfl
@[simp] theorem setZpend_channels (z : BitVec 3) : (s.setZpend z).channels = s.channels := rfl
@[simp] theorem setZpend_colorspace (z : BitVec 3) : (s.setZpend z).colorspace = s.colorspace := rfl
@[simp] theorem setZpend_hdrValid (z : BitVec 3) : (s.setZpend z).hdrValid = s.hdrValid := rfl
@[simp] theorem setZpend_expected (z : BitVec 3) : (s.setZpend z).expected = s.expected := rfl
@[simp] theorem setZpend_inOffset (z : BitVec 3) : (s.setZpend z).inOffset = s.inOffset := rfl
@[simp] theorem setZpend_payloadLen (z : BitVec 3) : (s.setZpend z).payloadLen = s.payloadLen := rfl
@[simp] theorem setZpend_opCount (z : BitVec 3) : (s.setZpend z).opCount = s.opCount := rfl
@[simp] theorem setZpend_pixCount (z : BitVec 3) : (s.setZpend z).pixCount = s.pixCount := rfl
@[simp] theorem setZpend_errCode (z : BitVec 3) : (s.setZpend z).errCode = s.errCode := rfl
@[simp] theorem setZpend_errValue (z : BitVec 3) : (s.setZpend z).errValue = s.errValue := rfl
@[simp] theorem setZpend_errOffset (z : BitVec 3) : (s.setZpend z).errOffset = s.errOffset := rfl
@[simp] theorem setZpend_errOpIndex (z : BitVec 3) : (s.setZpend z).errOpIndex = s.errOpIndex := rfl
@[simp] theorem setZpend_zpend (z : BitVec 3) : (s.setZpend z).zpend = z := rfl
@[simp] theorem setZpend_opLead (z : BitVec 3) : (s.setZpend z).opLead = s.opLead := rfl
@[simp] theorem setZpend_opNeed (z : BitVec 3) : (s.setZpend z).opNeed = s.opNeed := rfl
@[simp] theorem setZpend_opGot (z : BitVec 3) : (s.setZpend z).opGot = s.opGot := rfl
@[simp] theorem setZpend_opTb (z : BitVec 3) : (s.setZpend z).opTb = s.opTb := rfl
@[simp] theorem setZpend_opLeadPos (z : BitVec 3) : (s.setZpend z).opLeadPos = s.opLeadPos := rfl
@[simp] theorem setZpend_mp (z : BitVec 3) : (s.setZpend z).mp = s.mp := rfl
@[simp] theorem setZpend_prevValid (z : BitVec 3) : (s.setZpend z).prevValid = s.prevValid := rfl
@[simp] theorem setZpend_prev (z : BitVec 3) : (s.setZpend z).prev = s.prev := rfl
@[simp] theorem setZpend_cache (z : BitVec 3) : (s.setZpend z).cache = s.cache := rfl
@[simp] theorem setZpend_fb (z : BitVec 3) : (s.setZpend z).fb = s.fb := rfl
@[simp] theorem setZpend_fbBytes (z : BitVec 3) : (s.setZpend z).fbBytes = s.fbBytes := rfl
@[simp] theorem setZpend_epoch (z : BitVec 3) : (s.setZpend z).epoch = s.epoch := rfl
@[simp] theorem setZpend_source (z : BitVec 3) : (s.setZpend z).source = s.source := rfl
@[simp] theorem setZpend_edges (z : BitVec 3) : (s.setZpend z).edges = s.edges := rfl
@[simp] theorem setZpend_regRdata (z : BitVec 3) : (s.setZpend z).regRdata = s.regRdata := rfl
@[simp] theorem setZpend_fbRdata (z : BitVec 3) : (s.setZpend z).fbRdata = s.fbRdata := rfl

/-! ### setExpected -/

@[simp] theorem setExpected_phase : s.setExpected.phase = s.phase := rfl
@[simp] theorem setExpected_irqEn : s.setExpected.irqEn = s.irqEn := rfl
@[simp] theorem setExpected_width : s.setExpected.width = s.width := rfl
@[simp] theorem setExpected_height : s.setExpected.height = s.height := rfl
@[simp] theorem setExpected_channels : s.setExpected.channels = s.channels := rfl
@[simp] theorem setExpected_colorspace : s.setExpected.colorspace = s.colorspace := rfl
@[simp] theorem setExpected_hdrValid : s.setExpected.hdrValid = s.hdrValid := rfl
@[simp] theorem setExpected_expected : s.setExpected.expected = s.width.zeroExtend 64 * s.height.zeroExtend 64 := rfl
@[simp] theorem setExpected_inOffset : s.setExpected.inOffset = s.inOffset := rfl
@[simp] theorem setExpected_payloadLen : s.setExpected.payloadLen = s.payloadLen := rfl
@[simp] theorem setExpected_opCount : s.setExpected.opCount = s.opCount := rfl
@[simp] theorem setExpected_pixCount : s.setExpected.pixCount = s.pixCount := rfl
@[simp] theorem setExpected_errCode : s.setExpected.errCode = s.errCode := rfl
@[simp] theorem setExpected_errValue : s.setExpected.errValue = s.errValue := rfl
@[simp] theorem setExpected_errOffset : s.setExpected.errOffset = s.errOffset := rfl
@[simp] theorem setExpected_errOpIndex : s.setExpected.errOpIndex = s.errOpIndex := rfl
@[simp] theorem setExpected_zpend : s.setExpected.zpend = s.zpend := rfl
@[simp] theorem setExpected_opLead : s.setExpected.opLead = s.opLead := rfl
@[simp] theorem setExpected_opNeed : s.setExpected.opNeed = s.opNeed := rfl
@[simp] theorem setExpected_opGot : s.setExpected.opGot = s.opGot := rfl
@[simp] theorem setExpected_opTb : s.setExpected.opTb = s.opTb := rfl
@[simp] theorem setExpected_opLeadPos : s.setExpected.opLeadPos = s.opLeadPos := rfl
@[simp] theorem setExpected_mp : s.setExpected.mp = s.mp := rfl
@[simp] theorem setExpected_prevValid : s.setExpected.prevValid = s.prevValid := rfl
@[simp] theorem setExpected_prev : s.setExpected.prev = s.prev := rfl
@[simp] theorem setExpected_cache : s.setExpected.cache = s.cache := rfl
@[simp] theorem setExpected_fb : s.setExpected.fb = s.fb := rfl
@[simp] theorem setExpected_fbBytes : s.setExpected.fbBytes = s.fbBytes := rfl
@[simp] theorem setExpected_epoch : s.setExpected.epoch = s.epoch := rfl
@[simp] theorem setExpected_source : s.setExpected.source = s.source := rfl
@[simp] theorem setExpected_edges : s.setExpected.edges = s.edges := rfl
@[simp] theorem setExpected_regRdata : s.setExpected.regRdata = s.regRdata := rfl
@[simp] theorem setExpected_fbRdata : s.setExpected.fbRdata = s.fbRdata := rfl

/-! ### popEdge -/

@[simp] theorem popEdge_phase : s.popEdge.phase = s.phase := rfl
@[simp] theorem popEdge_irqEn : s.popEdge.irqEn = s.irqEn := rfl
@[simp] theorem popEdge_width : s.popEdge.width = s.width := rfl
@[simp] theorem popEdge_height : s.popEdge.height = s.height := rfl
@[simp] theorem popEdge_channels : s.popEdge.channels = s.channels := rfl
@[simp] theorem popEdge_colorspace : s.popEdge.colorspace = s.colorspace := rfl
@[simp] theorem popEdge_hdrValid : s.popEdge.hdrValid = s.hdrValid := rfl
@[simp] theorem popEdge_expected : s.popEdge.expected = s.expected := rfl
@[simp] theorem popEdge_inOffset : s.popEdge.inOffset = s.inOffset := rfl
@[simp] theorem popEdge_payloadLen : s.popEdge.payloadLen = s.payloadLen := rfl
@[simp] theorem popEdge_opCount : s.popEdge.opCount = s.opCount := rfl
@[simp] theorem popEdge_pixCount : s.popEdge.pixCount = s.pixCount := rfl
@[simp] theorem popEdge_errCode : s.popEdge.errCode = s.errCode := rfl
@[simp] theorem popEdge_errValue : s.popEdge.errValue = s.errValue := rfl
@[simp] theorem popEdge_errOffset : s.popEdge.errOffset = s.errOffset := rfl
@[simp] theorem popEdge_errOpIndex : s.popEdge.errOpIndex = s.errOpIndex := rfl
@[simp] theorem popEdge_zpend : s.popEdge.zpend = s.zpend := rfl
@[simp] theorem popEdge_opLead : s.popEdge.opLead = s.opLead := rfl
@[simp] theorem popEdge_opNeed : s.popEdge.opNeed = s.opNeed := rfl
@[simp] theorem popEdge_opGot : s.popEdge.opGot = s.opGot := rfl
@[simp] theorem popEdge_opTb : s.popEdge.opTb = s.opTb := rfl
@[simp] theorem popEdge_opLeadPos : s.popEdge.opLeadPos = s.opLeadPos := rfl
@[simp] theorem popEdge_mp : s.popEdge.mp = s.mp := rfl
@[simp] theorem popEdge_prevValid : s.popEdge.prevValid = s.prevValid := rfl
@[simp] theorem popEdge_prev : s.popEdge.prev = s.prev := rfl
@[simp] theorem popEdge_cache : s.popEdge.cache = s.cache := rfl
@[simp] theorem popEdge_fb : s.popEdge.fb = s.fb := rfl
@[simp] theorem popEdge_fbBytes : s.popEdge.fbBytes = s.fbBytes := rfl
@[simp] theorem popEdge_epoch : s.popEdge.epoch = s.epoch := rfl
@[simp] theorem popEdge_source : s.popEdge.source = s.source := rfl
@[simp] theorem popEdge_edges : s.popEdge.edges = s.edges.tail := rfl
@[simp] theorem popEdge_regRdata : s.popEdge.regRdata = s.regRdata := rfl
@[simp] theorem popEdge_fbRdata : s.popEdge.fbRdata = s.fbRdata := rfl

/-! ### started -/

@[simp] theorem started_phase : s.started.phase = .header := rfl
@[simp] theorem started_irqEn : s.started.irqEn = s.irqEn := rfl
@[simp] theorem started_width : s.started.width = 0 := rfl
@[simp] theorem started_height : s.started.height = 0 := rfl
@[simp] theorem started_channels : s.started.channels = 0 := rfl
@[simp] theorem started_colorspace : s.started.colorspace = 0 := rfl
@[simp] theorem started_hdrValid : s.started.hdrValid = false := rfl
@[simp] theorem started_expected : s.started.expected = 0 := rfl
@[simp] theorem started_inOffset : s.started.inOffset = 0 := rfl
@[simp] theorem started_payloadLen : s.started.payloadLen = 0 := rfl
@[simp] theorem started_opCount : s.started.opCount = 0 := rfl
@[simp] theorem started_pixCount : s.started.pixCount = 0 := rfl
@[simp] theorem started_errCode : s.started.errCode = .none := rfl
@[simp] theorem started_errValue : s.started.errValue = 0 := rfl
@[simp] theorem started_errOffset : s.started.errOffset = 0 := rfl
@[simp] theorem started_errOpIndex : s.started.errOpIndex = 0 := rfl
@[simp] theorem started_zpend : s.started.zpend = 0 := rfl
@[simp] theorem started_opLead : s.started.opLead = 0 := rfl
@[simp] theorem started_opNeed : s.started.opNeed = 0 := rfl
@[simp] theorem started_opGot : s.started.opGot = 0 := rfl
@[simp] theorem started_opTb : s.started.opTb = Vector.replicate 4 0 := rfl
@[simp] theorem started_opLeadPos : s.started.opLeadPos = 0 := rfl
@[simp] theorem started_mp : s.started.mp = false := rfl
@[simp] theorem started_prevValid : s.started.prevValid = false := rfl
@[simp] theorem started_prev : s.started.prev = Config.freePixel s.epoch := rfl
@[simp] theorem started_cache : s.started.cache = Vector.replicate 64 sentinel := rfl
@[simp] theorem started_fb : s.started.fb = s.fb := rfl
@[simp] theorem started_fbBytes : s.started.fbBytes = s.fbBytes := rfl
@[simp] theorem started_epoch : s.started.epoch = s.epoch + 1 := rfl
@[simp] theorem started_source : s.started.source = s.source := rfl
@[simp] theorem started_edges : s.started.edges = s.edges := rfl
@[simp] theorem started_regRdata : s.started.regRdata = s.regRdata := rfl
@[simp] theorem started_fbRdata : s.started.fbRdata = s.fbRdata := rfl

/-! ### resetEdge -/

@[simp] theorem resetEdge_phase : s.resetEdge.phase = State.reset.phase := rfl
@[simp] theorem resetEdge_irqEn : s.resetEdge.irqEn = State.reset.irqEn := rfl
@[simp] theorem resetEdge_width : s.resetEdge.width = State.reset.width := rfl
@[simp] theorem resetEdge_height : s.resetEdge.height = State.reset.height := rfl
@[simp] theorem resetEdge_channels : s.resetEdge.channels = State.reset.channels := rfl
@[simp] theorem resetEdge_colorspace : s.resetEdge.colorspace = State.reset.colorspace := rfl
@[simp] theorem resetEdge_hdrValid : s.resetEdge.hdrValid = State.reset.hdrValid := rfl
@[simp] theorem resetEdge_expected : s.resetEdge.expected = State.reset.expected := rfl
@[simp] theorem resetEdge_inOffset : s.resetEdge.inOffset = State.reset.inOffset := rfl
@[simp] theorem resetEdge_payloadLen : s.resetEdge.payloadLen = State.reset.payloadLen := rfl
@[simp] theorem resetEdge_opCount : s.resetEdge.opCount = State.reset.opCount := rfl
@[simp] theorem resetEdge_pixCount : s.resetEdge.pixCount = State.reset.pixCount := rfl
@[simp] theorem resetEdge_errCode : s.resetEdge.errCode = State.reset.errCode := rfl
@[simp] theorem resetEdge_errValue : s.resetEdge.errValue = State.reset.errValue := rfl
@[simp] theorem resetEdge_errOffset : s.resetEdge.errOffset = State.reset.errOffset := rfl
@[simp] theorem resetEdge_errOpIndex : s.resetEdge.errOpIndex = State.reset.errOpIndex := rfl
@[simp] theorem resetEdge_zpend : s.resetEdge.zpend = State.reset.zpend := rfl
@[simp] theorem resetEdge_opLead : s.resetEdge.opLead = State.reset.opLead := rfl
@[simp] theorem resetEdge_opNeed : s.resetEdge.opNeed = State.reset.opNeed := rfl
@[simp] theorem resetEdge_opGot : s.resetEdge.opGot = State.reset.opGot := rfl
@[simp] theorem resetEdge_opTb : s.resetEdge.opTb = State.reset.opTb := rfl
@[simp] theorem resetEdge_opLeadPos : s.resetEdge.opLeadPos = State.reset.opLeadPos := rfl
@[simp] theorem resetEdge_mp : s.resetEdge.mp = State.reset.mp := rfl
@[simp] theorem resetEdge_prevValid : s.resetEdge.prevValid = State.reset.prevValid := rfl
@[simp] theorem resetEdge_prev : s.resetEdge.prev = State.reset.prev := rfl
@[simp] theorem resetEdge_cache : s.resetEdge.cache = State.reset.cache := rfl
@[simp] theorem resetEdge_fb : s.resetEdge.fb = State.reset.fb := rfl
@[simp] theorem resetEdge_fbBytes : s.resetEdge.fbBytes = s.fbBytes := rfl
@[simp] theorem resetEdge_epoch : s.resetEdge.epoch = s.epoch + 1 := rfl
@[simp] theorem resetEdge_source : s.resetEdge.source = s.source := rfl
@[simp] theorem resetEdge_edges : s.resetEdge.edges = s.edges := rfl
@[simp] theorem resetEdge_regRdata : s.resetEdge.regRdata = s.regRdata := rfl
@[simp] theorem resetEdge_fbRdata : s.resetEdge.fbRdata = s.fbRdata := rfl

end Sys2Proof.Machine
end

