-- ==== Sys2Proof/Laws/Ops.lean ====
section
/-! SUPPORT. What each shared operation can do, said once: counters, Emit, Commit and the frame of Execute. -/

namespace Sys2Proof.Machine

/-! ## Sequencing and counters -/

@[simp] theorem andThen_next (s : State) (f : State → Result) : andThen (.next s) f = f s := rfl
@[simp] theorem andThen_fault (r : Fault) (f : State → Result) : andThen (.fault r) f = .fault r := rfl
@[simp] theorem andThen_refused (r : Refusal) (f : State → Result) : andThen (.refused r) f = .refused r := rfl

/-- A sequence answers a next state only through a next state of its first part. -/
theorem andThen_eq_next {o : Result} {f : State → Result} {t : State} :
    andThen o f = .next t ↔ ∃ u, o = .next u ∧ f u = .next t := by
  cases o <;> simp [andThen]

theorem andThen_assoc (o : Result) (f g : State → Result) :
    andThen (andThen o f) g = andThen o fun s => andThen (f s) g := by
  cases o <;> rfl

theorem sat64_toNat (n : Nat) : (sat64 n).toNat = min n (2 ^ 64 - 1) := by
  simp only [sat64, BitVec.toNat_ofNat]
  exact Nat.mod_eq_of_lt (by omega)

/-- Counting on from a saturated count is counting on and saturating once. -/
theorem sat64_add (n k : Nat) : sat64 ((sat64 n).toNat + k) = sat64 (n + k) := by
  apply BitVec.eq_of_toNat_eq
  simp only [sat64_toNat]
  omega

theorem sat64_toNat_self (x : U64) : sat64 x.toNat = x := by
  apply BitVec.eq_of_toNat_eq
  have := x.isLt
  rw [sat64_toNat]
  omega

/-- A counter below its largest value counts on exactly. -/
theorem sat64_succ {x : U64} (h : x.toNat < 2 ^ 64 - 1) : sat64 (x.toNat + 1) = x + 1 := by
  apply BitVec.eq_of_toNat_eq
  rw [sat64_toNat, BitVec.toNat_add]
  simp
  omega

/-! ## Emit -/

/-- The state after one pixel has been emitted. -/
def State.emitted (s : State) (p : Pixel) : State :=
  { s with
    fb := if s.pixCount.toNat < s.expected.toNat then
        s.fb.writeBytes (s.pixCount.toNat * s.channels.toNat) ((serialize s.channels p).take s.channels.toNat)
      else s.fb
    pixCount := sat64 (s.pixCount.toNat + 1) }

/-- Emit either reaches past the framebuffer or answers `emitted`. -/
theorem emit_eq (p : Pixel) (s : State) :
    emit p s =
      if s.pixCount.toNat < s.expected.toNat ∧ s.fbBytes < s.pixCount.toNat * s.channels.toNat + s.channels.toNat then
        .fault (.framebufferOverrun (s.pixCount.toNat * s.channels.toNat + s.channels.toNat - 1))
      else .next (s.emitted p) := by
  by_cases h : s.pixCount.toNat < s.expected.toNat
  · by_cases hf : s.pixCount.toNat * s.channels.toNat + s.channels.toNat ≤ s.fbBytes
    · simp [emit, memWrite, h, hf, State.emitted, State.countPixel, Nat.not_lt.2 hf]
    · simp [emit, memWrite, h, hf, Nat.not_le.1 hf]
  · simp [emit, h, State.emitted, State.countPixel]

/-- Emit answers a next state only as `emitted`, whatever the state. -/
theorem emit_eq_next {p : Pixel} {s t : State} (h : emit p s = .next t) : t = s.emitted p := by
  rw [emit_eq] at h
  split at h
  · cases h
  · exact (Host.Outcome.next.inj h).symm

/-- A pixel below EXPECTED lies inside an image that fits. -/
theorem pixel_inside {i e c n : Nat} (hi : i < e) (hn : e * c ≤ n) : i * c + c ≤ n := by
  have : (i + 1) * c ≤ e * c := Nat.mul_le_mul_right c hi
  rw [Nat.add_mul, Nat.one_mul] at this
  omega

/-- In an image that fits, Emit always answers `emitted`: no write falls outside the framebuffer (20_memory.md R66). -/
theorem emit_next {p : Pixel} {s : State} (h : s.expected.toNat * s.channels.toNat ≤ s.fbBytes) :
    emit p s = .next (s.emitted p) := by
  rw [emit_eq, if_neg]
  rintro ⟨hi, hf⟩
  have := pixel_inside hi h
  omega

section Emitted
variable (s : State) (p : Pixel)

@[simp] theorem emitted_pixCount : (s.emitted p).pixCount = sat64 (s.pixCount.toNat + 1) := rfl
@[simp] theorem emitted_expected : (s.emitted p).expected = s.expected := rfl
@[simp] theorem emitted_channels : (s.emitted p).channels = s.channels := rfl
@[simp] theorem emitted_fbBytes : (s.emitted p).fbBytes = s.fbBytes := rfl
@[simp] theorem emitted_prev : (s.emitted p).prev = s.prev := rfl
@[simp] theorem emitted_prevValid : (s.emitted p).prevValid = s.prevValid := rfl
@[simp] theorem emitted_cache : (s.emitted p).cache = s.cache := rfl
@[simp] theorem emitted_mp : (s.emitted p).mp = s.mp := rfl

/-- The bytes of a serialised pixel in a legal channel mode are exactly CHANNELS many. -/
theorem serialize_length {c : Byte} (h : c = 3 ∨ c = 4) : (serialize c p).length = c.toNat := by
  rcases h with rfl | rfl <;> rfl

theorem serialize_take {c : Byte} (h : c = 3 ∨ c = 4) : (serialize c p).take c.toNat = serialize c p := by
  rw [← serialize_length p h, List.take_length]

/-- Emit keeps what it relies on. -/
theorem emitted_canEmit {s : State} (h : CanEmit s) : CanEmit (s.emitted p) where
  channels := h.channels
  capacity := h.capacity
  canonical := by
    show (if _ then _ else _ : Memory).wf = true
    split
    · exact Memory.wf_writeBytes h.canonical
    · exact h.canonical

/-- The framebuffer after one Emit, byte by byte. -/
theorem emitted_read {s : State} (h : CanEmit s) (a : Nat) :
    (s.emitted p).fb.read a =
      if s.pixCount.toNat < s.expected.toNat ∧ s.pixCount.toNat * s.channels.toNat ≤ a
          ∧ a < (s.pixCount.toNat + 1) * s.channels.toNat then
        (serialize s.channels p).getD (a - s.pixCount.toNat * s.channels.toNat) 0
      else s.fb.read a := by
  show (if _ then _ else _ : Memory).read a = _
  by_cases hi : s.pixCount.toNat < s.expected.toNat
  · rw [if_pos hi, Memory.read_writeBytes a h.canonical, serialize_take p h.channels, serialize_length p h.channels]
    simp only [hi, true_and, Nat.add_mul, Nat.one_mul]
  · simp only [hi, if_false, false_and]

end Emitted

/-! ## Emitting several pixels -/

/-- The state after the pixels `out` have been emitted in order. -/
def State.emittedAll (s : State) : List Pixel → State
  | [] => s
  | p :: out => (s.emitted p).emittedAll out

theorem emitTimes_next {p : Pixel} : ∀ {n : Nat} {s : State}, s.expected.toNat * s.channels.toNat ≤ s.fbBytes →
    emitTimes n p s = .next (s.emittedAll (List.replicate n p))
  | 0, _, _ => rfl
  | n + 1, s, h => by
    rw [emitTimes, emit_next h, andThen_next, emitTimes_next (s := s.emitted p) h]
    rfl

theorem emitTimes_eq_next {p : Pixel} : ∀ {n : Nat} {s t : State}, emitTimes n p s = .next t →
    t = s.emittedAll (List.replicate n p)
  | 0, _, _, h => (Host.Outcome.next.inj h).symm
  | n + 1, s, t, h => by
    obtain ⟨u, hu, ht⟩ := andThen_eq_next.1 h
    rw [emit_eq_next hu] at ht
    have ih := emitTimes_eq_next ht
    exact ih

/-- Emitting touches PIXCOUNT and the framebuffer, nothing else. -/
theorem emittedAll_only : ∀ (out : List Pixel) (s : State),
    s.emittedAll out = { s with pixCount := (s.emittedAll out).pixCount, fb := (s.emittedAll out).fb }
  | [], _ => rfl
  | p :: out, s => by
    show (s.emitted p).emittedAll out = _
    rw [emittedAll_only out (s.emitted p)]
    rfl

theorem emittedAll_pixCount : ∀ (out : List Pixel) (s : State),
    (s.emittedAll out).pixCount = sat64 (s.pixCount.toNat + out.length)
  | [], s => (sat64_toNat_self s.pixCount).symm
  | p :: out, s => by
    show ((s.emitted p).emittedAll out).pixCount = _
    rw [emittedAll_pixCount out, emitted_pixCount, sat64_add]
    simp only [List.length_cons, Nat.add_assoc, Nat.add_comm 1]

theorem emittedAll_canEmit : ∀ (out : List Pixel) {s : State}, CanEmit s → CanEmit (s.emittedAll out)
  | [], _, h => h
  | p :: out, _, h => emittedAll_canEmit out (emitted_canEmit p h)

theorem emittedAll_append : ∀ (xs ys : List Pixel) (s : State),
    s.emittedAll (xs ++ ys) = (s.emittedAll xs).emittedAll ys
  | [], _, _ => rfl
  | p :: xs, ys, s => emittedAll_append xs ys (s.emitted p)

/-- The framebuffer after several Emits, byte by byte. `i` numbers the first pixel; past saturation PIXCOUNT stays and
nothing is written, whatever `i`. -/
theorem emittedAll_read : ∀ (out : List Pixel) {s : State}, CanEmit s → ∀ i : Nat,
    (i = s.pixCount.toNat ∨ (2 ^ 64 - 1 ≤ i ∧ s.pixCount.toNat = 2 ^ 64 - 1)) → ∀ a,
    (s.emittedAll out).fb.read a = byteAfterEmits s out i a := by
  intro out
  induction out with
  | nil => intro s h i hi a; rfl
  | cons p out ih =>
    intro s h i hi a
    show ((s.emitted p).emittedAll out).fb.read a = _
    have hlt := s.pixCount.isLt
    have hE := s.expected.isLt
    have hpc : (s.emitted p).pixCount.toNat = min (s.pixCount.toNat + 1) (2 ^ 64 - 1) := by
      rw [emitted_pixCount, sat64_toNat]
    rw [ih (emitted_canEmit p h) (i + 1) (by rw [hpc]; omega), byteAfterEmits]
    have gen : ∀ (out : List Pixel) (j : Nat), i < j →
        byteAfterEmits (s.emitted p) out j a =
          if i < s.expected.toNat ∧ i * s.channels.toNat ≤ a ∧ a < (i + 1) * s.channels.toNat then
            (serialize s.channels p).getD (a - i * s.channels.toNat) 0
          else byteAfterEmits s out j a := by
      intro out
      induction out with
      | nil =>
        intro j hj
        simp only [byteAfterEmits]
        rw [emitted_read p h a]
        rcases hi with hi | hi
        · rw [← hi]
        · rw [if_neg, if_neg] <;> omega
      | cons q out ih2 =>
        intro j hj
        have e : byteAfterEmits (s.emitted p) (q :: out) j a =
            if j < s.expected.toNat ∧ j * s.channels.toNat ≤ a ∧ a < (j + 1) * s.channels.toNat then
              (serialize s.channels q).getD (a - j * s.channels.toNat) 0
            else byteAfterEmits (s.emitted p) out (j + 1) a := rfl
        rw [e, ih2 (j + 1) (by omega), byteAfterEmits]
        have hij : (i + 1) * s.channels.toNat ≤ j * s.channels.toNat := Nat.mul_le_mul_right _ hj
        by_cases h1 : j < s.expected.toNat ∧ j * s.channels.toNat ≤ a ∧ a < (j + 1) * s.channels.toNat
        · rw [if_pos h1, if_pos h1, if_neg]
          rintro ⟨-, -, h3⟩
          omega
        · rw [if_neg h1, if_neg h1]
    exact gen out (i + 1) (by omega)

/-- Emitting in an image that fits is what `Emits` says. -/
theorem emits_emittedAll {s : State} (h : CanEmit s) (out : List Pixel) : Emits s (s.emittedAll out) out :=
  ⟨emittedAll_pixCount out s, fun a => emittedAll_read out h _ (.inl rfl) a⟩

theorem emits_emitted {s : State} (h : CanEmit s) (p : Pixel) : Emits s (s.emitted p) [p] := emits_emittedAll h [p]

/-! ## The frame of Execute -/

theorem executeFrame_mp {b : Bool} {f : State → Result} {s : State} (h : s.mp = true) :
    executeFrame b f s = .next s := by simp [executeFrame, h]

theorem executeFrame_latch {f : State → Result} {s : State} (h : s.mp = false) (hp : s.prevValid = false) :
    executeFrame true f s = .next s.latchMp := by simp [executeFrame, h, hp]

theorem executeFrame_rule {b : Bool} {f : State → Result} {s : State} (h : s.mp = false)
    (hp : b = true → s.prevValid = true) : executeFrame b f s = f s := by
  cases b <;> simp_all [executeFrame]

/-- Execute does nothing, latches MP, or runs the operation's rule. -/
theorem executeFrame_cases (b : Bool) (f : State → Result) (s : State) :
    (s.mp = true ∧ executeFrame b f s = .next s)
      ∨ (s.mp = false ∧ b = true ∧ s.prevValid = false ∧ executeFrame b f s = .next s.latchMp)
      ∨ (s.mp = false ∧ (b = true → s.prevValid = true) ∧ executeFrame b f s = f s) := by
  cases hm : s.mp with
  | true => exact .inl ⟨rfl, executeFrame_mp hm⟩
  | false =>
    cases hb : b with
    | false => exact .inr (.inr ⟨rfl, by simp, executeFrame_rule hm (by simp)⟩)
    | true =>
      cases hp : s.prevValid with
      | false => exact .inr (.inl ⟨rfl, rfl, rfl, executeFrame_latch hm hp⟩)
      | true => exact .inr (.inr ⟨rfl, by simp, executeFrame_rule hm (by simp [hp])⟩)

/-! ## Commit -/

theorem commit_next {p : Pixel} {s : State} (h : s.expected.toNat * s.channels.toNat ≤ s.fbBytes) :
    commit p s = .next (((s.emitted p).cacheWrite (hash p) p).setPrev p) := by
  rw [commit, emit_next h, andThen_next]

theorem commit_eq_next {p : Pixel} {s t : State} (h : commit p s = .next t) :
    t = ((s.emitted p).cacheWrite (hash p) p).setPrev p := by
  obtain ⟨u, hu, ht⟩ := andThen_eq_next.1 h
  rw [emit_eq_next hu] at ht
  exact (Host.Outcome.next.inj ht).symm

theorem cacheRead_cacheWrite (s : State) (i j : Fin 64) (p : Pixel) :
    (s.cacheWrite i p).cacheRead j = if j = i then p else s.cacheRead j := by
  simp only [State.cacheRead, State.cacheWrite, Fin.getElem_fin, Vector.getElem_set]
  by_cases h : i = j
  · subst h; simp
  · have : (i : Nat) ≠ j := fun e => h (Fin.ext e)
    simp [this, Ne.symm h]

/-- A cache write is what `CachesPixel` says. -/
theorem cachesPixel_cacheWrite {s t : State} (p : Pixel) (h : s.cache = t.cache) :
    CachesPixel s ((t.cacheWrite (hash p) p).setPrev p) p := by
  intro slot
  have hr : ((t.cacheWrite (hash p) p).setPrev p).cacheRead slot = (t.cacheWrite (hash p) p).cacheRead slot := rfl
  rw [hr, cacheRead_cacheWrite]
  simp only [State.cacheRead, h]

theorem wrap8_toNat (x : Int) : ((wrap8 x).toNat : Int) = x % 256 := by
  unfold wrap8
  rw [BitVec.toNat_ofInt]
  have := Int.emod_nonneg x (show (256 : Int) ≠ 0 by decide)
  simp
  omega

end Sys2Proof.Machine
end

