-- ==== Sys2Proof/Laws/Exec.lean ====
section
/-! SUPPORT. What executing an operation can do, said once: the state it answers, when it answers, and its frame. -/

namespace Sys2Proof.Machine

/-- The state an operation's own rule answers (43_pixel_ops.md R192 to R197). -/
def State.ruled (s : State) : Instr → State
  | .rgb r g b => ((s.emitted (rgbPixel r g b)).cacheWrite (hash (rgbPixel r g b)) (rgbPixel r g b)).setPrev (rgbPixel r g b)
  | .rgba r g b a =>
    ((s.emitted (rgbaPixel r g b a)).cacheWrite (hash (rgbaPixel r g b a)) (rgbaPixel r g b a)).setPrev (rgbaPixel r g b a)
  | .index slot => (s.emitted (s.cacheRead slot)).setPrev (s.cacheRead slot)
  | .diff dr dg db =>
    ((s.emitted (addDeltas s.prev dr dg db)).cacheWrite (hash (addDeltas s.prev dr dg db))
      (addDeltas s.prev dr dg db)).setPrev (addDeltas s.prev dr dg db)
  | .luma dg drDg dbDg =>
    ((s.emitted (addDeltas s.prev (drDg + dg) dg (dbDg + dg))).cacheWrite
      (hash (addDeltas s.prev (drDg + dg) dg (dbDg + dg))) (addDeltas s.prev (drDg + dg) dg (dbDg + dg))).setPrev
      (addDeltas s.prev (drDg + dg) dg (dbDg + dg))
  | .run n => s.emittedAll (List.replicate n s.prev)

/-- The state Execute answers (43_pixel_ops.md R190). -/
def State.executed (s : State) (i : Instr) : State :=
  if s.mp then s else if readsPrev i && !s.prevValid then s.latchMp else s.ruled i

theorem executeFrame_eq_next {b : Bool} {f : State → Result} {s t u : State} (hu : f s = .next t → t = u)
    (h : executeFrame b f s = .next t) : t = if s.mp then s else if b && !s.prevValid then s.latchMp else u := by
  unfold executeFrame at h
  split at h
  · rename_i hm; simp only [hm, if_true]; exact (Host.Outcome.next.inj h).symm
  · rename_i hm
    rw [if_neg hm]
    split at h
    · rename_i hp; simp only [hp, if_true]; exact (Host.Outcome.next.inj h).symm
    · rename_i hp; rw [if_neg hp]; exact hu h

theorem executeFrame_next {b : Bool} {f : State → Result} {s u : State} (hu : f s = .next u) :
    executeFrame b f s = .next (if s.mp then s else if b && !s.prevValid then s.latchMp else u) := by
  unfold executeFrame
  split
  · rfl
  · split
    · rfl
    · exact hu

theorem indexRule_eq_next {slot : Fin 64} {s t : State} (h : indexRule slot s = .next t) :
    t = (s.emitted (s.cacheRead slot)).setPrev (s.cacheRead slot) := by
  obtain ⟨u, hu, ht⟩ := andThen_eq_next.1 h
  rw [emit_eq_next hu] at ht
  exact (Host.Outcome.next.inj ht).symm

/-- Whatever the state, an operation answers a next state only as `executed`. -/
theorem exec_eq_next {i : Instr} {s t : State} (h : exec i s = .next t) : t = s.executed i := by
  cases i with
  | rgb r g b => exact executeFrame_eq_next commit_eq_next h
  | rgba r g b a => exact executeFrame_eq_next commit_eq_next h
  | index slot => exact executeFrame_eq_next indexRule_eq_next h
  | diff dr dg db => exact executeFrame_eq_next (f := fun t => commit (addDeltas t.prev dr dg db) t) commit_eq_next h
  | luma dg drDg dbDg =>
    exact executeFrame_eq_next (f := fun t => commit (addDeltas t.prev (drDg + dg) dg (dbDg + dg)) t) commit_eq_next h
  | run n => exact executeFrame_eq_next (f := fun t => emitTimes n t.prev t) emitTimes_eq_next h

/-- In an image that fits, every operation answers `executed`. -/
theorem exec_next (i : Instr) {s : State} (h : s.expected.toNat * s.channels.toNat ≤ s.fbBytes) :
    exec i s = .next (s.executed i) := by
  cases i with
  | rgb r g b => exact executeFrame_next (commit_next h)
  | rgba r g b a => exact executeFrame_next (commit_next h)
  | index slot => exact executeFrame_next (by rw [indexRule, emit_next h, andThen_next]; rfl)
  | diff dr dg db => exact executeFrame_next (f := fun t => commit (addDeltas t.prev dr dg db) t) (commit_next h)
  | luma dg drDg dbDg =>
    exact executeFrame_next (f := fun t => commit (addDeltas t.prev (drDg + dg) dg (dbDg + dg)) t) (commit_next h)
  | run n => exact executeFrame_next (f := fun t => emitTimes n t.prev t) (emitTimes_next h)

/-- An operation's rule writes PIXCOUNT, the framebuffer, the cache, PREV and PREV_VALID only. -/
theorem ruled_only (s : State) (i : Instr) : OnlyPixelState s (s.ruled i) := by
  cases i with
  | run n =>
    have h := emittedAll_only (List.replicate n s.prev) s
    have hr : s.ruled (.run n) = s.emittedAll (List.replicate n s.prev) := rfl
    unfold OnlyPixelState
    rw [hr]
    generalize s.emittedAll (List.replicate n s.prev) = u at h ⊢
    rw [h]
  | _ => rfl

theorem executed_of_mp {s : State} (i : Instr) (h : s.mp = true) : s.executed i = s := by
  unfold State.executed
  rw [if_pos h]

theorem executed_latch {s : State} {i : Instr} (hm : s.mp = false) (hr : readsPrev i = true)
    (hp : s.prevValid = false) : s.executed i = s.latchMp := by
  unfold State.executed
  rw [if_neg (by simp [hm]), if_pos (by simp [hr, hp])]

theorem executed_ruled {s : State} {i : Instr} (hm : s.mp = false) (hp : readsPrev i = true → s.prevValid = true) :
    s.executed i = s.ruled i := by
  unfold State.executed
  rw [if_neg (by simp [hm]), if_neg]
  cases h : readsPrev i <;> simp_all

theorem ruled_run (s : State) (n : Nat) : s.ruled (.run n) = s.emittedAll (List.replicate n s.prev) := rfl

theorem executed_only (s : State) (i : Instr) : OnlyPixelState s (s.executed i) := by
  unfold State.executed
  split
  · rfl
  · split
    · rfl
    · exact ruled_only s i

section Frame
variable (s : State) (i : Instr)

@[simp] theorem executed_phase : (s.executed i).phase = s.phase := by rw [executed_only s i]
@[simp] theorem executed_irqEn : (s.executed i).irqEn = s.irqEn := by rw [executed_only s i]
@[simp] theorem executed_width : (s.executed i).width = s.width := by rw [executed_only s i]
@[simp] theorem executed_height : (s.executed i).height = s.height := by rw [executed_only s i]
@[simp] theorem executed_channels : (s.executed i).channels = s.channels := by rw [executed_only s i]
@[simp] theorem executed_colorspace : (s.executed i).colorspace = s.colorspace := by rw [executed_only s i]
@[simp] theorem executed_hdrValid : (s.executed i).hdrValid = s.hdrValid := by rw [executed_only s i]
@[simp] theorem executed_expected : (s.executed i).expected = s.expected := by rw [executed_only s i]
@[simp] theorem executed_inOffset : (s.executed i).inOffset = s.inOffset := by rw [executed_only s i]
@[simp] theorem executed_payloadLen : (s.executed i).payloadLen = s.payloadLen := by rw [executed_only s i]
@[simp] theorem executed_opCount : (s.executed i).opCount = s.opCount := by rw [executed_only s i]
@[simp] theorem executed_errCode : (s.executed i).errCode = s.errCode := by rw [executed_only s i]
@[simp] theorem executed_errValue : (s.executed i).errValue = s.errValue := by rw [executed_only s i]
@[simp] theorem executed_errOffset : (s.executed i).errOffset = s.errOffset := by rw [executed_only s i]
@[simp] theorem executed_errOpIndex : (s.executed i).errOpIndex = s.errOpIndex := by rw [executed_only s i]
@[simp] theorem executed_zpend : (s.executed i).zpend = s.zpend := by rw [executed_only s i]
@[simp] theorem executed_opLead : (s.executed i).opLead = s.opLead := by rw [executed_only s i]
@[simp] theorem executed_opNeed : (s.executed i).opNeed = s.opNeed := by rw [executed_only s i]
@[simp] theorem executed_opGot : (s.executed i).opGot = s.opGot := by rw [executed_only s i]
@[simp] theorem executed_opTb : (s.executed i).opTb = s.opTb := by rw [executed_only s i]
@[simp] theorem executed_opLeadPos : (s.executed i).opLeadPos = s.opLeadPos := by rw [executed_only s i]
@[simp] theorem executed_fbBytes : (s.executed i).fbBytes = s.fbBytes := by rw [executed_only s i]
@[simp] theorem executed_epoch : (s.executed i).epoch = s.epoch := by rw [executed_only s i]
@[simp] theorem executed_source : (s.executed i).source = s.source := by rw [executed_only s i]
@[simp] theorem executed_edges : (s.executed i).edges = s.edges := by rw [executed_only s i]
@[simp] theorem executed_regRdata : (s.executed i).regRdata = s.regRdata := by rw [executed_only s i]
@[simp] theorem executed_fbRdata : (s.executed i).fbRdata = s.fbRdata := by rw [executed_only s i]

end Frame

/-- Execute keeps what Emit relies on. -/
theorem executed_canEmit {s : State} (i : Instr) (h : CanEmit s) : CanEmit (s.executed i) where
  channels := by rw [executed_channels]; exact h.channels
  capacity := by rw [executed_expected, executed_channels, executed_fbBytes]; exact h.capacity
  canonical := by
    unfold State.executed
    split
    · exact h.canonical
    · split
      · exact h.canonical
      · cases i with
        | run n => exact (emittedAll_canEmit _ h).canonical
        | _ => exact (emitted_canEmit _ h).canonical

end Sys2Proof.Machine
end

