-- ==== Sys2Proof/Laws/Stream.lean ====
section
/-! SUPPORT. What taking a payload byte and a decoder step can do, said once: the state they answer, when they answer,
and their frame. -/

namespace Sys2Proof.Machine

/-- `t` differs from `s` at most in what releasing payload bytes writes. -/
def OnlyReleaseState (s t : State) : Prop :=
  t = { s with payloadLen := t.payloadLen, opCount := t.opCount, opLead := t.opLead, opNeed := t.opNeed,
               opGot := t.opGot, opTb := t.opTb, opLeadPos := t.opLeadPos, pixCount := t.pixCount, fb := t.fb,
               cache := t.cache, prev := t.prev, prevValid := t.prevValid, mp := t.mp }

theorem OnlyReleaseState.refl (s : State) : OnlyReleaseState s s := rfl

theorem OnlyReleaseState.trans {s t u : State} (h : OnlyReleaseState s t) (h' : OnlyReleaseState t u) :
    OnlyReleaseState s u := by
  unfold OnlyReleaseState at *
  rw [h', h]

theorem onlyRelease_of_onlyPixel {s t : State} (h : OnlyPixelState s t) : OnlyReleaseState s t := by
  unfold OnlyPixelState at h
  unfold OnlyReleaseState
  rw [h]

/-! ## The states answered -/

/-- The state `complete` answers (42_op_decoder.md R164). -/
def State.completed (s : State) : State := (s.executed (decodeOp s.opLead s.opTb)).countOp

/-- The state `payloadByte` answers (42_op_decoder.md R163). -/
def State.taken (s : State) (c : Byte) : State :=
  if s.opNeed = 0 then
    if opNeedOf c = 0 then (s.takeLead c).completed else (s.takeLead c).openOp (opNeedOf c)
  else if (s.takeTrailing c).opGot = s.opNeed then (s.takeTrailing c).completed
  else s.takeTrailing c

/-- The state `release` answers (41_stream_extractor.md R143). -/
def State.released (s : State) (c : Byte) : State := s.countPayload.taken c

/-- The state `releaseAll` answers. -/
def State.releasedAll (s : State) : List Byte → State
  | [] => s
  | c :: bs => (s.released c).releasedAll bs

/-- The state `extractByte` answers (41_stream_extractor.md R141). -/
def State.extracted (s : State) (b : Byte) : State :=
  if b = 0x00 then
    if s.zpend.toNat < 7 then s.setZpend (s.zpend + 1) else s.released 0x00
  else if b = 0x01 ∧ s.zpend = 7 then finish (markerOffset s) (s.setZpend 0)
  else ((s.releasedAll (List.replicate s.zpend.toNat 0)).setZpend 0).released b

/-- The state a decoder step answers (00_scope.md R11). -/
def State.stepped (s : State) (t : Token) : State :=
  match s.phase, t with
  | .header, t => headerStep t s
  | .payload, .eof => s.raise .endOfInput 0 s.inOffset 0
  | .payload, .byte b => s.countInput.extracted b
  | .idle, _ => s
  | .done, _ => s
  | .error, _ => s

/-! ## Completion and payload bytes -/

theorem complete_eq_next {s t : State} (h : complete s = .next t) : t = s.completed := by
  obtain ⟨u, hu, ht⟩ := andThen_eq_next.1 h
  rw [exec_eq_next hu] at ht
  exact (Host.Outcome.next.inj ht).symm

theorem complete_next {s : State} (h : s.expected.toNat * s.channels.toNat ≤ s.fbBytes) :
    complete s = .next s.completed := by
  rw [complete, exec_next _ h, andThen_next]
  rfl

theorem payloadByte_eq_next {c : Byte} {s t : State} (h : payloadByte c s = .next t) : t = s.taken c := by
  unfold payloadByte at h
  unfold State.taken
  split at h
  · rename_i h0
    rw [if_pos h0]
    split at h
    · rename_i h1; rw [if_pos h1]; exact complete_eq_next h
    · rename_i h1; rw [if_neg h1]; exact (Host.Outcome.next.inj h).symm
  · rename_i h0
    rw [if_neg h0]
    split at h
    · rename_i h1; rw [if_pos h1]; exact complete_eq_next h
    · rename_i h1; rw [if_neg h1]; exact (Host.Outcome.next.inj h).symm

theorem payloadByte_next (c : Byte) {s : State} (h : s.expected.toNat * s.channels.toNat ≤ s.fbBytes) :
    payloadByte c s = .next (s.taken c) := by
  unfold payloadByte State.taken
  split
  · split
    · exact complete_next h
    · rfl
  · split
    · exact complete_next h
    · rfl

theorem completed_only (s : State) : OnlyReleaseState s s.completed := by
  have h : OnlyReleaseState (s.executed (decodeOp s.opLead s.opTb)) s.completed := rfl
  exact (onlyRelease_of_onlyPixel (executed_only s (decodeOp s.opLead s.opTb))).trans h

theorem taken_only (s : State) (c : Byte) : OnlyReleaseState s (s.taken c) := by
  unfold State.taken
  split
  · split
    · have h : OnlyReleaseState s (s.takeLead c) := rfl
      exact h.trans (completed_only (s.takeLead c))
    · rfl
  · split
    · have h : OnlyReleaseState s (s.takeTrailing c) := rfl
      exact h.trans (completed_only (s.takeTrailing c))
    · rfl

/-! ## Releasing -/

theorem release_eq_next {c : Byte} {s t : State} (h : release c s = .next t) : t = s.released c :=
  payloadByte_eq_next h

theorem release_next (c : Byte) {s : State} (h : s.expected.toNat * s.channels.toNat ≤ s.fbBytes) :
    release c s = .next (s.released c) := payloadByte_next c h

theorem released_only (s : State) (c : Byte) : OnlyReleaseState s (s.released c) := by
  have h : OnlyReleaseState s s.countPayload := rfl
  exact h.trans (taken_only s.countPayload c)

theorem releasedAll_only : ∀ (bs : List Byte) (s : State), OnlyReleaseState s (s.releasedAll bs)
  | [], _ => rfl
  | c :: bs, s => (released_only s c).trans (releasedAll_only bs (s.released c))

section Frame
variable (s : State) (c : Byte) (bs : List Byte)

@[simp] theorem released_phase : (s.released c).phase = s.phase := by rw [released_only s c]
@[simp] theorem released_expected : (s.released c).expected = s.expected := by rw [released_only s c]
@[simp] theorem released_channels : (s.released c).channels = s.channels := by rw [released_only s c]
@[simp] theorem released_fbBytes : (s.released c).fbBytes = s.fbBytes := by rw [released_only s c]
@[simp] theorem released_zpend : (s.released c).zpend = s.zpend := by rw [released_only s c]
@[simp] theorem released_inOffset : (s.released c).inOffset = s.inOffset := by rw [released_only s c]
@[simp] theorem released_errCode : (s.released c).errCode = s.errCode := by rw [released_only s c]
@[simp] theorem releasedAll_phase : (s.releasedAll bs).phase = s.phase := by rw [releasedAll_only bs s]
@[simp] theorem releasedAll_expected : (s.releasedAll bs).expected = s.expected := by rw [releasedAll_only bs s]
@[simp] theorem releasedAll_channels : (s.releasedAll bs).channels = s.channels := by rw [releasedAll_only bs s]
@[simp] theorem releasedAll_fbBytes : (s.releasedAll bs).fbBytes = s.fbBytes := by rw [releasedAll_only bs s]
@[simp] theorem releasedAll_zpend : (s.releasedAll bs).zpend = s.zpend := by rw [releasedAll_only bs s]
@[simp] theorem releasedAll_inOffset : (s.releasedAll bs).inOffset = s.inOffset := by rw [releasedAll_only bs s]

end Frame

theorem taken_canEmit {s : State} (c : Byte) (h : CanEmit s) : CanEmit (s.taken c) := by
  have key : ∀ u : State, CanEmit u → CanEmit u.completed := fun u hu =>
    have hx := executed_canEmit (decodeOp u.opLead u.opTb) hu
    ⟨hx.channels, hx.capacity, hx.canonical⟩
  unfold State.taken
  split
  · split
    · exact key _ ⟨h.channels, h.capacity, h.canonical⟩
    · exact ⟨h.channels, h.capacity, h.canonical⟩
  · split
    · exact key _ ⟨h.channels, h.capacity, h.canonical⟩
    · exact ⟨h.channels, h.capacity, h.canonical⟩

theorem released_canEmit {s : State} (c : Byte) (h : CanEmit s) : CanEmit (s.released c) :=
  taken_canEmit c ⟨h.channels, h.capacity, h.canonical⟩

theorem releasedAll_canEmit : ∀ (bs : List Byte) {s : State}, CanEmit s → CanEmit (s.releasedAll bs)
  | [], _, h => h
  | c :: bs, _, h => releasedAll_canEmit bs (released_canEmit c h)

theorem releaseAll_eq_next : ∀ {bs : List Byte} {s t : State}, releaseAll bs s = .next t → t = s.releasedAll bs
  | [], _, _, h => (Host.Outcome.next.inj h).symm
  | c :: bs, s, t, h => by
    obtain ⟨u, hu, ht⟩ := andThen_eq_next.1 h
    rw [release_eq_next hu] at ht
    have ih := releaseAll_eq_next ht
    exact ih

theorem releaseAll_next : ∀ (bs : List Byte) {s : State}, s.expected.toNat * s.channels.toNat ≤ s.fbBytes →
    releaseAll bs s = .next (s.releasedAll bs)
  | [], _, _ => rfl
  | c :: bs, s, h => by
    rw [releaseAll, release_next c h, andThen_next, releaseAll_next bs (by simpa using h)]
    rfl

theorem releaseAll_append : ∀ (xs ys : List Byte) (s : State),
    releaseAll (xs ++ ys) s = andThen (releaseAll xs s) (releaseAll ys)
  | [], _, _ => rfl
  | c :: xs, ys, _ => by
    rw [List.cons_append, releaseAll, releaseAll, andThen_assoc]
    exact congrArg _ (funext fun t => releaseAll_append xs ys t)

theorem releasedAll_append : ∀ (xs ys : List Byte) (s : State),
    s.releasedAll (xs ++ ys) = (s.releasedAll xs).releasedAll ys
  | [], _, _ => rfl
  | c :: xs, ys, s => releasedAll_append xs ys (s.released c)

/-- The pending zeros are released as a list of zeros. -/
theorem releaseZeros_eq : ∀ (n : Nat) (s : State), releaseZeros n s = releaseAll (List.replicate n 0) s
  | 0, _ => rfl
  | n + 1, _ => congrArg _ (funext fun t => releaseZeros_eq n t)

/-! ## Finish -/

theorem finish_cut {m : U64} {s : State} (h : s.opNeed ≠ 0) :
    finish m s = s.raise .unexpectedEndOfInput 0 s.opLeadPos s.opCount := by rw [finish, if_pos h]

theorem finish_missing {m : U64} {s : State} (h : s.opNeed = 0) (hm : s.mp = true) :
    finish m s = s.raise .missingPredecessor 0 14 0 := by rw [finish, if_neg (by simp [h]), if_pos hm]

theorem finish_count {m : U64} {s : State} (h : s.opNeed = 0) (hm : s.mp = false) (hc : s.pixCount ≠ s.expected) :
    finish m s = s.raise .pixelCountMismatch 0 m s.opCount := by
  rw [finish, if_neg (by simp [h]), if_neg (by simp [hm]), if_pos hc]

theorem finish_done {m : U64} {s : State} (h : s.opNeed = 0) (hm : s.mp = false) (hc : s.pixCount = s.expected) :
    finish m s = { s with phase := .done } := by
  rw [finish, if_neg (by simp [h]), if_neg (by simp [hm]), if_neg (by simp [hc])]

/-- Finish writes the error registers and PHASE only. -/
theorem finish_only (m : U64) (s : State) :
    finish m s = { s with phase := (finish m s).phase, errCode := (finish m s).errCode,
                          errValue := (finish m s).errValue, errOffset := (finish m s).errOffset,
                          errOpIndex := (finish m s).errOpIndex } := by
  by_cases h : s.opNeed = 0
  · by_cases hm : s.mp = true
    · rw [finish_missing h hm]; rfl
    · have hm : s.mp = false := by simpa using hm
      by_cases hc : s.pixCount = s.expected
      · rw [finish_done h hm hc]
      · rw [finish_count h hm hc]; rfl
  · rw [finish_cut h]; rfl

/-! ## Decoder steps -/

theorem extractByte_eq_next {b : Byte} {s t : State} (h : extractByte b s = .next t) :
    t = s.extracted b := by
  unfold extractByte at h
  unfold State.extracted
  split at h
  · rename_i h0
    rw [if_pos h0]
    split at h
    · rename_i h1; rw [if_pos h1]; exact (Host.Outcome.next.inj h).symm
    · rename_i h1; rw [if_neg h1]; exact release_eq_next h
  · rename_i h0
    rw [if_neg h0]
    split at h
    · rename_i h1; rw [if_pos h1]; exact (Host.Outcome.next.inj h).symm
    · rename_i h1
      rw [if_neg h1]
      obtain ⟨u, hu, ht⟩ := andThen_eq_next.1 h
      rw [releaseZeros_eq] at hu
      rw [releaseAll_eq_next hu] at ht
      exact release_eq_next ht

theorem extractByte_next (b : Byte) {s : State}
    (h : s.expected.toNat * s.channels.toNat ≤ s.fbBytes) : extractByte b s = .next (s.extracted b) := by
  unfold extractByte State.extracted
  split
  · split
    · rfl
    · exact release_next 0x00 h
  · split
    · rfl
    · rw [releaseZeros_eq, releaseAll_next _ h, andThen_next]
      exact release_next b (by simpa using h)

theorem decoderStep_header {tok : Token} {s : State} (h : s.phase = .header) :
    decoderStep tok s = .next (headerStep tok s) := by
  unfold decoderStep
  rw [h]

theorem decoderStep_payload {tok : Token} {s : State} (h : s.phase = .payload) :
    decoderStep tok s = payloadStep tok s := by
  unfold decoderStep
  rw [h]

theorem stepped_headerByte (b : Byte) {s : State} (h : s.phase = .header) :
    s.stepped (.byte b) = headerField s.inOffset.toNat b s.countInput := by
  unfold State.stepped
  rw [h]
  rfl

theorem stepped_payloadByte (b : Byte) {s : State} (h : s.phase = .payload) :
    s.stepped (.byte b) = s.countInput.extracted b := by
  unfold State.stepped
  rw [h]

theorem stepped_eof {s : State} (h : s.phase.busy = true) :
    s.stepped .eof = s.raise .endOfInput 0 s.inOffset 0 := by
  unfold State.stepped
  revert h
  cases s.phase <;> first | (intro; rfl) | (intro h; cases h)

theorem stepped_quiescent (tok : Token) {s : State} (h : s.phase.busy = false) : s.stepped tok = s := by
  unfold State.stepped
  revert h
  cases s.phase <;> first | (intro; rfl) | (intro h; cases h)

/-- Whatever the state, a decoder step answers a next state only as `stepped`. -/
theorem decoderStep_eq_next {tok : Token} {s t : State} (h : decoderStep tok s = .next t) : t = s.stepped tok := by
  unfold decoderStep at h
  unfold State.stepped
  cases hp : s.phase <;> rw [hp] at h <;> simp only at h ⊢
  · exact (Host.Outcome.next.inj h).symm
  · exact (Host.Outcome.next.inj h).symm
  · cases tok with
    | eof => exact (Host.Outcome.next.inj h).symm
    | byte b => exact extractByte_eq_next h
  · exact (Host.Outcome.next.inj h).symm
  · exact (Host.Outcome.next.inj h).symm

/-- A decoder step always answers, if in PAYLOAD the image fits. -/
theorem decoderStep_next (tok : Token) {s : State}
    (h : s.phase = .payload → s.expected.toNat * s.channels.toNat ≤ s.fbBytes) :
    decoderStep tok s = .next (s.stepped tok) := by
  unfold decoderStep State.stepped
  cases hp : s.phase <;> simp only
  cases tok with
  | eof => rfl
  | byte b => exact extractByte_next b (h hp)

end Sys2Proof.Machine
end

