-- ==== Sys2Proof/Laws/Header.lean ====
section
/-! SUPPORT. What a header byte can do, said once, by its input offset. -/

namespace Sys2Proof.Machine

/-- The product of two 32-bit dimensions is exact in 64 bits (40_header.md R131). -/
theorem expected_exact (w h : Word) : (w.zeroExtend 64 * h.zeroExtend 64 : U64).toNat = w.toNat * h.toNat := by
  have hw := w.isLt
  have hh := h.isLt
  rw [BitVec.toNat_mul]
  simp only [BitVec.truncate_eq_setWidth, BitVec.toNat_setWidth]
  rw [Nat.mod_eq_of_lt (show w.toNat < 2 ^ 64 by omega), Nat.mod_eq_of_lt (show h.toNat < 2 ^ 64 by omega),
    Nat.mod_eq_of_lt]
  nlinarith

/-- The image fits: PAYLOAD (40_header.md R132). -/
theorem headerDone_fits {s : State} (h : s.width.toNat * s.height.toNat * s.channels.toNat ≤ s.fbBytes) :
    headerDone s = { s with expected := s.width.zeroExtend 64 * s.height.zeroExtend 64, hdrValid := true,
                            phase := .payload } := by
  rw [← expected_exact] at h
  have hn : ¬ s.setExpected.expected.toNat * s.setExpected.channels.toNat > s.setExpected.fbBytes := Nat.not_lt.2 h
  rw [headerDone, capacityCheck, if_neg hn]
  rfl

/-- The image does not fit: CapacityExceeded (40_header.md R132). -/
theorem headerDone_exceeds {s : State} (h : s.fbBytes < s.width.toNat * s.height.toNat * s.channels.toNat) :
    headerDone s = { s with expected := s.width.zeroExtend 64 * s.height.zeroExtend 64, phase := .error,
                            errCode := .capacityExceeded, errValue := 0, errOffset := 14, errOpIndex := 0 } := by
  rw [← expected_exact] at h
  have hn : s.setExpected.expected.toNat * s.setExpected.channels.toNat > s.setExpected.fbBytes := h
  rw [headerDone, capacityCheck, if_pos hn]
  rfl

/-! ## Big-endian fields -/

theorem shiftInByte_toNat (x : Word) (b : Byte) : (shiftInByte x b).toNat = (x.toNat * 256 + b.toNat) % 2 ^ 32 := by
  simp [shiftInByte]

/-- The four bytes of a field, most significant first, shifted into 0 are the field (20_memory.md R68). -/
theorem shiftIn_bigEndian (w : Word) :
    shiftInByte (shiftInByte (shiftInByte (shiftInByte 0 (w.extractLsb' 24 8)) (w.extractLsb' 16 8))
      (w.extractLsb' 8 8)) (w.extractLsb' 0 8) = w := by
  apply BitVec.eq_of_toNat_eq
  have := w.isLt
  simp only [shiftInByte, BitVec.extractLsb'_toNat, BitVec.toNat_ofNat, Nat.shiftRight_eq_div_pow]
  omega

/-! ## The field a byte belongs to -/

theorem headerField_magic {pos : Nat} (b : Byte) (s : State) (h : pos ≤ 3) :
    headerField pos b s = magicByte pos b s := by rw [headerField, if_pos h]

theorem headerField_width {pos : Nat} (b : Byte) (s : State) (h : 4 ≤ pos) (h' : pos ≤ 7) :
    headerField pos b s = widthByte b s := by rw [headerField, if_neg (by omega), if_pos h']

theorem headerField_height {pos : Nat} (b : Byte) (s : State) (h : 8 ≤ pos) (h' : pos ≤ 11) :
    headerField pos b s = heightByte b s := by
  rw [headerField, if_neg (by omega), if_neg (by omega), if_pos h']

theorem headerField_channel (b : Byte) (s : State) : headerField 12 b s = channelByte b s := rfl

theorem headerField_colorSpace (b : Byte) (s : State) : headerField 13 b s = colorSpaceByte b s := rfl

theorem widthByte_step {s : State} (b : Byte) (hp : s.phase = .header) (h : 4 ≤ s.inOffset.toNat)
    (h' : s.inOffset.toNat ≤ 7) :
    decoderStep (.byte b) s = .next { s with inOffset := s.inOffset + 1, width := shiftInByte s.width b } := by
  have hs := sat64_succ (x := s.inOffset) (by omega)
  rw [decoderStep_header hp, headerStep, headerField_width _ _ h h', widthByte, State.countInput, hs]

theorem heightByte_step {s : State} (b : Byte) (hp : s.phase = .header) (h : 8 ≤ s.inOffset.toNat)
    (h' : s.inOffset.toNat ≤ 11) :
    decoderStep (.byte b) s = .next { s with inOffset := s.inOffset + 1, height := shiftInByte s.height b } := by
  have hs := sat64_succ (x := s.inOffset) (by omega)
  rw [decoderStep_header hp, headerStep, headerField_height _ _ h h', heightByte, State.countInput, hs]

/-- A header byte writes the header fields, the error registers and PHASE only (40_header.md R130). -/
theorem headerField_only (pos : Nat) (b : Byte) (s : State) : OnlyHeaderState s (headerField pos b s) := by
  unfold headerField magicByte widthByte heightByte channelByte colorSpaceByte headerDone capacityCheck
  repeat' split
  all_goals rfl

/-- EXPECTED and HDR_VALID change only at the color space byte. -/
theorem headerField_fields (pos : Nat) (b : Byte) (s : State) (h : pos ≠ 13) :
    (headerField pos b s).expected = s.expected ∧ (headerField pos b s).hdrValid = s.hdrValid
      ∧ (headerField pos b s).colorspace = s.colorspace := by
  unfold headerField magicByte widthByte heightByte channelByte
  repeat' split
  all_goals exact ⟨rfl, rfl, rfl⟩

end Sys2Proof.Machine
end

