-- ==== Sys2Proof/Laws/Step.lean ====
section
/-! SUPPORT. What a clock edge can do, said once: reset, the host's access, and at most one decoder step. -/

namespace Sys2Proof.Machine

/-- The state with what the host read and the value of IRQ_EN changed. -/
def State.seenByHost (s : State) (irqEn : Bool) (regRdata : Word) (fbRdata : Byte) : State :=
  { s with irqEn := irqEn, regRdata := regRdata, fbRdata := fbRdata }

/-- The value of IRQ_EN after the host's access on an edge (46_host_commands.md R263). -/
def irqEnAfter (e : Edge) (s : State) : Bool :=
  if e.regWe && e.regAddr == 0x00 then e.regWdata.getLsbD 1 else s.irqEn

/-- The edge carries a write of 1 to CTRL.START. -/
def Edge.writesStart (e : Edge) : Bool := e.regWe && e.regAddr == 0x00 && e.regWdata.getLsbD 0

theorem registerAt_ctrl {addr : Byte} : registerAt addr = some .ctrl ↔ addr = 0x00 := by
  revert addr
  decide

theorem registerWrite_ctrl (data : Word) (s : State) : registerWrite 0x00 data s = writeCtrl data s := rfl

theorem registerWrite_other {addr : Byte} (h : addr ≠ 0x00) (data : Word) (s : State) :
    registerWrite addr data s = s := by
  unfold registerWrite
  split
  · rename_i hr; exact absurd (registerAt_ctrl.1 hr) h
  · rfl

/-- The host's access changes IRQ_EN and what was read, or is a START that is taken. -/
theorem hostAccess_eq (e : Edge) (s : State) :
    hostAccess e s =
      if e.writesStart && !s.phase.busy then
        ((hostReads e s).seenByHost (irqEnAfter e s) (hostReads e s).regRdata (hostReads e s).fbRdata).started
      else s.seenByHost (irqEnAfter e s) (hostReads e s).regRdata (hostReads e s).fbRdata := by
  unfold hostAccess
  cases hw : e.regWe
  · simp [Edge.writesStart, hw, irqEnAfter, State.seenByHost, hostReads]
  · by_cases ha : e.regAddr = 0x00
    · simp only [if_true, ha, registerWrite_ctrl, writeCtrl, Edge.writesStart, hw, Bool.true_and, beq_self_eq_true,
        irqEnAfter, State.start]
      cases hb : e.regWdata.getLsbD 0
      · simp [State.seenByHost, hostReads]
      · cases hp : s.phase.busy <;> simp [hostReads, hp, State.seenByHost]
    · have : (e.regAddr == 0x00) = false := by simpa using ha
      simp only [if_true, registerWrite_other ha, Edge.writesStart, hw, this, irqEnAfter]
      simp [State.seenByHost, hostReads]

/-- While a decode is in progress the host changes IRQ_EN and what was read, nothing else. -/
theorem hostAccess_busy (e : Edge) {s : State} (h : s.phase.busy = true) :
    hostAccess e s = s.seenByHost (irqEnAfter e s) (hostReads e s).regRdata (hostReads e s).fbRdata := by
  rw [hostAccess_eq, h]
  simp

theorem takesStart_eq (s : State) :
    takesStart s = (!s.nextEdge.rst && s.nextEdge.writesStart && !s.phase.busy) := by
  simp [takesStart, Edge.writesStart, Bool.and_assoc]

/-- Without a taken START the host changes IRQ_EN and what was read, nothing else. -/
theorem hostAccess_noStart {s : State} (hr : s.nextEdge.rst = false) (h : takesStart s = false) :
    hostAccess s.nextEdge s.popEdge =
      s.popEdge.seenByHost (irqEnAfter s.nextEdge s) (hostReads s.nextEdge s.popEdge).regRdata
        (hostReads s.nextEdge s.popEdge).fbRdata := by
  rw [hostAccess_eq, if_neg]
  · rfl
  · rw [takesStart_eq, hr] at h
    simpa using h

/-- The state on which the next edge's token, if any, acts: the host's access done, the token gone. -/
def State.atToken (s : State) (rest : List InPins) : State :=
  { hostAccess s.nextEdge s.popEdge with source := rest, epoch := (hostAccess s.nextEdge s.popEdge).epoch + 1 }

/-- What a step that answers a next state has done: a reset; a decoder step on a consumed token; or the host's access
alone, with at most a stalled entry of the source passed over. -/
theorem step_cases {s t : State} (h : step s = .next t) :
    (s.nextEdge.rst = true ∧ t = s.popEdge.resetEdge)
      ∨ (s.nextEdge.rst = false ∧ s.phase.busy = true ∧ s.nextEdge.busy = false
          ∧ ∃ p rest tok, s.source = p :: rest ∧ p.token = some tok ∧ consumedToken s = some tok
            ∧ decoderStep tok (s.atToken rest) = .next t)
      ∨ (s.nextEdge.rst = false ∧ s.phase.busy = true ∧ s.nextEdge.busy = false ∧ consumedToken s = none
          ∧ ∃ p rest, s.source = p :: rest ∧ t = { hostAccess s.nextEdge s.popEdge with source := rest })
      ∨ (s.nextEdge.rst = false ∧ consumedToken s = none ∧ t = hostAccess s.nextEdge s.popEdge) := by
  unfold step clockEdge at h
  split at h
  · rename_i hr
    exact .inl ⟨hr, (Host.Outcome.next.inj h).symm⟩
  · rename_i hr
    have hr : s.nextEdge.rst = false := by simpa using hr
    split at h
    · rename_i hc
      simp only [inReady, Bool.and_eq_true, Bool.not_eq_true'] at hc
      obtain ⟨hb, hs⟩ := hc
      have hb' : s.phase.busy = true := hb
      have hsrc : (hostAccess s.nextEdge s.popEdge).source = s.source := by
        rw [hostAccess_busy (s := s.popEdge) _ hb]; rfl
      unfold takeToken at h
      rw [hsrc] at h
      cases hq : s.source with
      | nil =>
        rw [hq] at h
        have hcons : consumedToken s = none := by simp [consumedToken, inReady, hr, hs, hb', hq]
        exact .inr (.inr (.inr ⟨hr, hcons, (Host.Outcome.next.inj h).symm⟩))
      | cons p rest =>
        rw [hq] at h
        simp only at h
        have hcons : consumedToken s = p.token := by simp [consumedToken, inReady, hr, hs, hb', hq]
        cases hp : p.token with
        | none =>
          rw [hp] at h
          exact .inr (.inr (.inl ⟨hr, hb', hs, hcons.trans hp, p, rest, rfl, (Host.Outcome.next.inj h).symm⟩))
        | some tok =>
          rw [hp] at h
          exact .inr (.inl ⟨hr, hb', hs, p, rest, tok, rfl, hp, hcons.trans hp, h⟩)
    · rename_i hc
      have hcons : consumedToken s = none := by
        have hc' : (inReady s && !s.nextEdge.busy) = false := by simpa [inReady] using hc
        unfold consumedToken
        rw [if_pos]
        cases h1 : inReady s <;> cases h2 : s.nextEdge.busy <;> simp_all
      exact .inr (.inr (.inr ⟨hr, hcons, (Host.Outcome.next.inj h).symm⟩))

/-- A step on which a token is consumed is the decoder step on it. -/
theorem step_token {s : State} {p : InPins} {rest : List InPins} {tok : Token} (hr : s.nextEdge.rst = false)
    (hb : s.phase.busy = true) (hs : s.nextEdge.busy = false) (hq : s.source = p :: rest) (hp : p.token = some tok) :
    step s = decoderStep tok (s.atToken rest) := by
  have hsrc : (hostAccess s.nextEdge s.popEdge).source = p :: rest := by rw [hostAccess_busy (s := s.popEdge) _ hb]; exact hq
  unfold step clockEdge
  rw [if_neg (by simp [hr]), if_pos (by simp [inReady, hb, hs]), takeToken, hsrc]
  simp only [hp]
  rfl

/-- Where the decoder can take a token, what the next edge consumes is what the first entry of the source presents. -/
theorem consumedToken_ready {s : State} {p : InPins} {rest : List InPins} (hr : s.nextEdge.rst = false)
    (hb : s.phase.busy = true) (hs : s.nextEdge.busy = false) (hq : s.source = p :: rest) :
    consumedToken s = p.token := by
  unfold consumedToken inReady
  rw [hr, hb, hs, hq]
  rfl

/-- The host's access leaves the source. -/
theorem hostAccess_source (e : Edge) (s : State) : (hostAccess e s).source = s.source := by
  rw [hostAccess_eq]
  split <;> rfl

/-- A step on which the source presents nothing is the host's access, the entry passed over. -/
theorem step_stalledSource {s : State} {p : InPins} {rest : List InPins} (hr : s.nextEdge.rst = false)
    (hb : s.phase.busy = true) (hs : s.nextEdge.busy = false) (hq : s.source = p :: rest) (hp : p.token = none) :
    step s = .next { hostAccess s.nextEdge s.popEdge with source := rest } := by
  have hsrc : (hostAccess s.nextEdge s.popEdge).source = p :: rest := (hostAccess_source _ _).trans hq
  unfold step clockEdge takeToken
  rw [if_neg (by simp [hr]), if_pos (by simp [inReady, hb, hs]), hsrc]
  simp only [hp]

/-- A step on which the decoder cannot take a token, or has no source left, is the host's access alone. -/
theorem step_notReady {s : State} (hr : s.nextEdge.rst = false)
    (h : s.phase.busy = false ∨ s.nextEdge.busy = true ∨ s.source = []) :
    consumedToken s = none ∧ step s = .next (hostAccess s.nextEdge s.popEdge) := by
  refine ⟨?_, ?_⟩
  · unfold consumedToken inReady
    rcases h with h | h | h
    · simp [h]
    · simp [h]
    · rw [h]
      split <;> rfl
  · unfold step clockEdge
    rw [if_neg (by simp [hr])]
    split
    · rename_i hc
      rcases h with h | h | h
      · simp [inReady, h] at hc
      · simp [h] at hc
      · rw [takeToken, hostAccess_source, State.popEdge, h]
    · rfl

theorem atToken_busy {s : State} (rest : List InPins) (hb : s.phase.busy = true) :
    s.atToken rest =
      { s with irqEn := irqEnAfter s.nextEdge s, regRdata := (hostReads s.nextEdge s.popEdge).regRdata,
               fbRdata := (hostReads s.nextEdge s.popEdge).fbRdata, edges := s.edges.tail, source := rest,
               epoch := s.epoch + 1 } := by
  unfold State.atToken
  rw [hostAccess_busy (s := s.popEdge) _ hb]
  rfl

end Sys2Proof.Machine
end

