-- ==== Sys2Proof/Laws/Decoder.lean ====
section
/-! SUPPORT. What a decoder step does to IN_OFFSET, PHASE, PREV_VALID and MP, and what it keeps. -/

namespace Sys2Proof.Machine

theorem headerField_inOffset (pos : Nat) (b : Byte) (s : State) : (headerField pos b s).inOffset = s.inOffset := by
  unfold headerField magicByte widthByte heightByte channelByte colorSpaceByte headerDone capacityCheck
  repeat' split
  all_goals rfl

theorem extracted_inOffset (s : State) (b : Byte) : (s.extracted b).inOffset = s.inOffset := by
  unfold State.extracted
  split
  · split
    · rfl
    · rw [released_inOffset]
  · split
    · rw [finish_only]; rfl
    · rw [released_inOffset]; exact releasedAll_inOffset _ _

/-- IN_OFFSET counts a consumed byte and nothing else. -/
theorem stepped_inOffset (s : State) (tok : Token) : (s.stepped tok).inOffset =
   if s.phase.busy then (match tok with | .byte _ => sat64 (s.inOffset.toNat + 1) | .eof => s.inOffset) else s.inOffset := by
  unfold State.stepped
  cases hp : s.phase
  · rfl
  · cases tok with
    | eof => rfl
    | byte b => exact headerField_inOffset _ _ _
  · cases tok with
    | eof => rfl
    | byte b => exact extracted_inOffset _ _
  · rfl
  · rfl

/-- PREV_VALID and MP never fall. -/
theorem executed_latches (s : State) (i : Instr) :
    (s.prevValid = true → (s.executed i).prevValid = true) ∧ (s.mp = true → (s.executed i).mp = true) := by
  by_cases hm : s.mp = true
  · rw [executed_of_mp i hm]; exact ⟨id, id⟩
  · have hm' : s.mp = false := by simpa using hm
    refine ⟨fun hv => ?_, fun h => absurd h hm⟩
    rw [executed_ruled hm' (fun _ => hv)]
    cases i with
    | run n => rw [ruled_run, emittedAll_only]; exact hv
    | _ => rfl

theorem taken_latches (s : State) (c : Byte) :
    (s.prevValid = true → (s.taken c).prevValid = true) ∧ (s.mp = true → (s.taken c).mp = true) := by
  unfold State.taken
  split
  · split
    · exact executed_latches (s.takeLead c) _
    · exact ⟨id, id⟩
  · split
    · exact executed_latches (s.takeTrailing c) _
    · exact ⟨id, id⟩

theorem releasedAll_latches : ∀ (bs : List Byte) (s : State),
    (s.prevValid = true → (s.releasedAll bs).prevValid = true) ∧ (s.mp = true → (s.releasedAll bs).mp = true)
  | [], _ => ⟨id, id⟩
  | c :: bs, s =>
    have h1 := taken_latches s.countPayload c
    have h2 := releasedAll_latches bs (s.released c)
    ⟨fun h => h2.1 (h1.1 h), fun h => h2.2 (h1.2 h)⟩

theorem stepped_latches (s : State) (tok : Token) :
    (s.prevValid = true → (s.stepped tok).prevValid = true) ∧ (s.mp = true → (s.stepped tok).mp = true) := by
  unfold State.stepped
  cases hp : s.phase
  · exact ⟨id, id⟩
  · cases tok with
    | eof => exact ⟨id, id⟩
    | byte b =>
      have := headerField_only s.inOffset.toNat b s.countInput
      unfold OnlyHeaderState at this
      show (_ → (headerField _ _ _).prevValid = _) ∧ (_ → (headerField _ _ _).mp = _)
      rw [this]; exact ⟨id, id⟩
  · cases tok with
    | eof => exact ⟨id, id⟩
    | byte b =>
      simp only
      unfold State.extracted
      split
      · split
        · exact ⟨id, id⟩
        · exact taken_latches s.countInput.countPayload 0
      · split
        · rw [finish_only]; exact ⟨id, id⟩
        · have h1 := releasedAll_latches (List.replicate s.countInput.zpend.toNat 0) s.countInput
          have h2 := taken_latches ((s.countInput.releasedAll (List.replicate s.countInput.zpend.toNat 0)).setZpend 0).countPayload b
          exact ⟨fun h => h2.1 (h1.1 h), fun h => h2.2 (h1.2 h)⟩
  · exact ⟨id, id⟩
  · exact ⟨id, id⟩

/-- A decoder step leaves IRQ_EN, FB_BYTES and the model's own fields. -/
theorem stepped_keeps (s : State) (tok : Token) :
    s.stepped tok = { s.stepped tok with irqEn := s.irqEn, fbBytes := s.fbBytes, epoch := s.epoch, source := s.source,
                                         edges := s.edges, regRdata := s.regRdata, fbRdata := s.fbRdata } := by
  cases hp : s.phase
  · rw [stepped_quiescent tok (by rw [hp]; rfl)]
  · cases tok with
    | eof => rw [stepped_eof (by rw [hp]; rfl)]; rfl
    | byte b =>
      rw [stepped_headerByte b hp]
      have h := headerField_only s.inOffset.toNat b s.countInput
      unfold OnlyHeaderState at h
      generalize headerField s.inOffset.toNat b s.countInput = u at *
      rw [h]; rfl
  · cases tok with
    | eof => rw [stepped_eof (by rw [hp]; rfl)]; rfl
    | byte b =>
      rw [stepped_payloadByte b hp]
      unfold State.extracted
      split
      · split
        · rfl
        · have h := released_only s.countInput 0
          unfold OnlyReleaseState at h
          generalize s.countInput.released 0 = u at *
          rw [h]; rfl
      · split
        · rw [finish_only]; rfl
        · have h1 := releasedAll_only (List.replicate s.countInput.zpend.toNat 0) s.countInput
          generalize s.countInput.releasedAll _ = v at *
          have h := released_only (v.setZpend 0) b
          generalize (v.setZpend 0).released b = u at *
          unfold OnlyReleaseState at h h1
          rw [h, h1]; rfl
  · rw [stepped_quiescent tok (by rw [hp]; rfl)]
  · rw [stepped_quiescent tok (by rw [hp]; rfl)]

/-- Every address of the framebuffer fits the read port (00_scope.md R6). -/
theorem fbAddr_fits {a n : Nat} (h : a < n) : a < 2 ^ fbAddrWidth n := by
  unfold fbAddrWidth
  by_cases h1 : n ≤ 1
  · rw [if_pos h1]; simp; omega
  · rw [if_neg h1]
    have h2 : n - 1 < 2 ^ (Nat.log2 (n-1) + 1) := Nat.lt_log2_self
    have : 2 ^ (Nat.log2 (n-1) + 1) ≤ 2 ^ max 1 (Nat.log2 (n-1) + 1) := Nat.pow_le_pow_right (by decide) (by omega)
    omega

/-- Where a decode ends, by the checks of Finish. -/
theorem finish_phase (m : U64) (s : State) :
    (finish m s).phase = if s.opNeed = 0 ∧ s.mp = false ∧ s.pixCount = s.expected then .done else .error := by
  by_cases h : s.opNeed = 0
  · by_cases hm : s.mp = true
    · rw [finish_missing h hm, if_neg (by simp [hm])]; rfl
    · have hm : s.mp = false := by simpa using hm
      by_cases hc : s.pixCount = s.expected
      · rw [finish_done h hm hc, if_pos ⟨h, hm, hc⟩]
      · rw [finish_count h hm hc, if_neg (by simp [hc])]; rfl
  · rw [finish_cut h, if_neg (fun hx => h hx.1)]; rfl

/-- A payload byte leaves PAYLOAD only as the 0x01 of an end marker. -/
theorem extracted_phase (s : State) (b : Byte) :
    (s.extracted b).phase =
      if b = 0x01 ∧ s.zpend = 7 then
        (if s.opNeed = 0 ∧ s.mp = false ∧ s.pixCount = s.expected then .done else .error)
      else s.phase := by
  unfold State.extracted
  by_cases h0 : b = 0
  · have h1 : ¬ (b = 0x01 ∧ s.zpend = 7) := by subst h0; intro h; exact absurd h.1 (by decide)
    rw [if_pos h0, if_neg h1]
    split
    · rfl
    · exact released_phase _ _
  · rw [if_neg h0]
    by_cases h1 : b = 0x01 ∧ s.zpend = 7
    · rw [if_pos h1, if_pos h1]
      exact finish_phase _ _
    · rw [if_neg h1, if_neg h1, released_phase]
      exact releasedAll_phase _ _

/-- Where a header byte leads, by its offset. -/
theorem headerField_phase {pos : Nat} (b : Byte) {s : State} (h : s.phase = .header) (hpos : pos ≤ 13) :
    (headerField pos b s).phase =
        if pos ≤ 3 then if b = magic.getD pos 0 then .header else .error
        else if pos ≤ 11 then .header
        else if pos = 12 then if b = 3 ∨ b = 4 then .header else .error
        else
          if (b = 0 ∨ b = 1) ∧ s.width.toNat * s.height.toNat * s.channels.toNat ≤ s.fbBytes then .payload
          else .error := by
  by_cases c1 : pos ≤ 3
  · rw [headerField_magic _ _ c1, if_pos c1]
    unfold magicByte
    by_cases hb : b = magic.getD pos 0
    · rw [if_neg (by simp [hb]), if_pos hb]; exact h
    · rw [if_pos hb, if_neg hb]; rfl
  rw [if_neg c1]
  by_cases c2 : pos ≤ 7
  · rw [headerField_width _ _ (by omega) c2, if_pos (by omega)]; exact h
  by_cases c3 : pos ≤ 11
  · rw [headerField_height _ _ (by omega) c3, if_pos (by omega)]; exact h
  rw [if_neg c3]
  by_cases c4 : pos = 12
  · rw [c4, if_pos rfl, headerField_channel]
    unfold channelByte
    split
    · exact h
    · rfl
  · have : pos = 13 := by omega
    subst this
    rw [if_neg c4, headerField_colorSpace]
    unfold colorSpaceByte
    by_cases hb : b = 0 ∨ b = 1
    · rw [if_pos hb]
      by_cases hcap : s.width.toNat * s.height.toNat * s.channels.toNat ≤ s.fbBytes
      · rw [headerDone_fits (by exact hcap), if_pos ⟨hb, hcap⟩]
      · rw [headerDone_exceeds (by exact Nat.not_le.1 hcap), if_neg (by simp [hcap])]
    · rw [if_neg hb, if_neg (fun hx => hb hx.1)]; rfl

end Sys2Proof.Machine
end

