-- ==== Sys2Proof/Laws/Encoding.lean ====
section
/-! SUPPORT. The bit fields of the encodings: each field of an encoded byte reads back, and a byte is made of its fields. -/

namespace Sys2Proof

/-! ## Fields -/

theorem biased_rawField {n : Nat} {x bias : Int} (h : 0 ≤ x - bias) (h2 : x - bias < 2^n) :
    biased (rawField n x bias) bias = x := by
  unfold biased rawField
  rw [BitVec.toNat_ofInt, Int.emod_eq_of_lt h (by exact_mod_cast h2)]
  omega

theorem diffLead_fields : ∀ (a b c : BitVec 2),
   let l : Byte := 0b01#2 ++ a ++ b ++ c
   opKind l = .diff ∧ l.extractLsb' 0 2 = c ∧ l.extractLsb' 2 2 = b ∧ l.extractLsb' 4 2 = a := by decide
theorem lumaLead_fields : ∀ (a : BitVec 6),
   let l : Byte := 0b10#2 ++ a
   opKind l = .luma ∧ tagPayload l = a := by decide
theorem lumaByte_fields : ∀ (a b : BitVec 4), (a ++ b).extractLsb' 0 4 = b ∧ (a++b).extractLsb' 4 4 = a := by decide
theorem indexLead_fields : ∀ (a : BitVec 6),
   let l : Byte := 0b00#2 ++ a
   opKind l = .index ∧ tagPayload l = a := by decide
theorem runLead_fields : ∀ (a : BitVec 6), a.toNat ≤ 61 →
   let l : Byte := 0b11#2 ++ a
   opKind l = .run ∧ tagPayload l = a := by decide

theorem lead_of_fields : ∀ (l : Byte),
   (opKind l = .rgb → l = 0xFE) ∧ (opKind l = .rgba → l = 0xFF) ∧
   (opKind l = .index → l = 0b00#2 ++ tagPayload l) ∧
   (opKind l = .diff → l = 0b01#2 ++ l.extractLsb' 4 2 ++ l.extractLsb' 2 2 ++ l.extractLsb' 0 2) ∧
   (opKind l = .luma → l = 0b10#2 ++ tagPayload l) ∧
   (opKind l = .run → l = 0b11#2 ++ tagPayload l ∧ (tagPayload l).toNat ≤ 61) := by decide
theorem lumaByte_of_fields : ∀ b : Byte, b.extractLsb' 4 4 ++ b.extractLsb' 0 4 = b := by decide

theorem rawField_biased {n : Nat} (x : BitVec n) (bias : Int) : rawField n (biased x bias) bias = x := by
  unfold biased rawField
  apply BitVec.eq_of_toNat_eq
  rw [show ((x.toNat : Int) + bias - bias) = (x.toNat : Int) by omega, BitVec.toNat_ofInt]
  have := x.isLt
  rw [Int.emod_eq_of_lt (by omega) (by exact_mod_cast this)]; simp

/-! ## Trailing bytes -/

theorem opNeedOf_mem (c : Byte) : opNeedOf c = 0 ∨ opNeedOf c = 1 ∨ opNeedOf c = 3 ∨ opNeedOf c = 4 := by
  unfold opNeedOf OpKind.need
  cases opKind c <;> simp

theorem decodeOp_noNeed {c : Byte} (h : opNeedOf c = 0) (t u : Vector Byte 4) : decodeOp c t = decodeOp c u := by
  unfold opNeedOf at h
  unfold decodeOp
  cases hk : opKind c <;> rw [hk] at h <;> first | rfl | (exfalso; revert h; decide)

theorem decodeOp_congr {c : Byte} {t u : Vector Byte 4} (h : ∀ k : Fin 4, k.val < opNeedOf c → t[k] = u[k]) : decodeOp c t = decodeOp c u := by
  unfold opNeedOf at h
  unfold decodeOp
  cases hk : opKind c <;> rw [hk] at h <;> simp only [OpKind.need] at h
  case rgb =>
    have h0 := h 0 (by decide); have h1 := h 1 (by decide); have h2 := h 2 (by decide)
    simp at h0 h1 h2; simp [h0, h1, h2]
  case rgba =>
    have h0 := h 0 (by decide); have h1 := h 1 (by decide); have h2 := h 2 (by decide); have h3 := h 3 (by decide)
    simp at h0 h1 h2 h3; simp [h0, h1, h2, h3]
  case luma =>
    have h0 := h 0 (by decide)
    simp at h0; simp [h0]

theorem opNeedOf_le (c : Byte) : opNeedOf c ≤ 4 := by rcases opNeedOf_mem c with h | h | h | h <;> omega

end Sys2Proof
end

