-- ==== Sys2Proof/Laws/Frame.lean ====
section
/-! SUPPORT. What executing and releasing read: an operation reads the pixel state, EXPECTED, CHANNELS and FB_BYTES, a
released byte the open operation and the counts as well; every other field only passes through. -/

namespace Sys2Proof.Machine

/-- `f` with everything an operation reads or writes taken from `s`. -/
def State.pixelsOver (s f : State) : State :=
  { f with pixCount := s.pixCount, fb := s.fb, cache := s.cache, prev := s.prev, prevValid := s.prevValid, mp := s.mp,
           expected := s.expected, channels := s.channels, fbBytes := s.fbBytes }

/-- `f` with everything a released byte reads or writes taken from `s`. -/
def State.streamOver (s f : State) : State :=
  { f with pixCount := s.pixCount, fb := s.fb, cache := s.cache, prev := s.prev, prevValid := s.prevValid, mp := s.mp,
           expected := s.expected, channels := s.channels, fbBytes := s.fbBytes, payloadLen := s.payloadLen,
           opCount := s.opCount, opLead := s.opLead, opNeed := s.opNeed, opGot := s.opGot, opTb := s.opTb,
           opLeadPos := s.opLeadPos, epoch := s.epoch }

theorem emit_pixelsOver (p : Pixel) (s f : State) :
    emit p (s.pixelsOver f) = andThen (emit p s) fun t => .next (t.pixelsOver f) := by
  rw [emit_eq, emit_eq]
  by_cases h : s.pixCount.toNat < s.expected.toNat ∧
      s.fbBytes < s.pixCount.toNat * s.channels.toNat + s.channels.toNat
  · rw [if_pos h]
    exact if_pos h
  · rw [if_neg h]
    exact if_neg h

theorem emitTimes_pixelsOver (p : Pixel) (f : State) : ∀ (n : Nat) (s : State),
    emitTimes n p (s.pixelsOver f) = andThen (emitTimes n p s) fun t => .next (t.pixelsOver f)
  | 0, _ => rfl
  | n + 1, s => by
    rw [emitTimes, emitTimes, emit_pixelsOver, andThen_assoc, andThen_assoc]
    exact congrArg _ (funext fun t => emitTimes_pixelsOver p f n t)

theorem commit_pixelsOver (p : Pixel) (s f : State) :
    commit p (s.pixelsOver f) = andThen (commit p s) fun t => .next (t.pixelsOver f) := by
  rw [commit, commit, emit_pixelsOver, andThen_assoc, andThen_assoc]
  rfl

theorem executeFrame_pixelsOver {b : Bool} {r : State → Result} {s f : State}
    (h : r (s.pixelsOver f) = andThen (r s) fun t => .next (t.pixelsOver f)) :
    executeFrame b r (s.pixelsOver f) = andThen (executeFrame b r s) fun t => .next (t.pixelsOver f) := by
  have e1 : (s.pixelsOver f).mp = s.mp := rfl
  have e2 : (s.pixelsOver f).prevValid = s.prevValid := rfl
  unfold executeFrame
  rw [e1, e2]
  by_cases hm : s.mp = true
  · rw [if_pos hm, if_pos hm]; rfl
  · rw [if_neg hm, if_neg hm]
    by_cases hp : (b && !s.prevValid) = true
    · rw [if_pos hp, if_pos hp]; rfl
    · rw [if_neg hp, if_neg hp]; exact h

/-- An operation reads and writes the pixel state, and reads EXPECTED, CHANNELS and FB_BYTES; nothing else. -/
theorem exec_pixelsOver (i : Instr) (s f : State) :
    exec i (s.pixelsOver f) = andThen (exec i s) fun t => .next (t.pixelsOver f) := by
  cases i with
  | rgb r g b => exact executeFrame_pixelsOver (commit_pixelsOver _ s f)
  | rgba r g b a => exact executeFrame_pixelsOver (commit_pixelsOver _ s f)
  | index slot =>
    refine executeFrame_pixelsOver (r := indexRule slot) ?_
    rw [indexRule, indexRule, show (s.pixelsOver f).cacheRead slot = s.cacheRead slot from rfl, emit_pixelsOver,
      andThen_assoc, andThen_assoc]
    rfl
  | diff dr dg db =>
    exact executeFrame_pixelsOver (r := fun t => commit (addDeltas t.prev dr dg db) t) (commit_pixelsOver _ s f)
  | luma dg drDg dbDg =>
    exact executeFrame_pixelsOver (r := fun t => commit (addDeltas t.prev (drDg + dg) dg (dbDg + dg)) t)
      (commit_pixelsOver _ s f)
  | run n => exact executeFrame_pixelsOver (r := fun t => emitTimes n t.prev t) (emitTimes_pixelsOver _ f n s)

theorem exec_streamOver (i : Instr) (s f : State) :
    exec i (s.streamOver f) = andThen (exec i s) fun t => .next (t.streamOver f) := by
  have e : s.streamOver f = s.pixelsOver (s.streamOver f) := rfl
  rw [e, exec_pixelsOver]
  cases h : exec i s with
  | next t =>
    have ht := exec_eq_next h
    have ho := executed_only s i
    rw [← ht] at ho
    unfold OnlyPixelState at ho
    show Host.Outcome.next _ = Host.Outcome.next _
    congr 1
    rw [ho]
    rfl
  | fault r => rfl
  | refused r => rfl

theorem complete_streamOver (s f : State) :
    complete (s.streamOver f) = andThen (complete s) fun t => .next (t.streamOver f) := by
  rw [complete, complete, show (s.streamOver f).opLead = s.opLead from rfl,
    show (s.streamOver f).opTb = s.opTb from rfl, exec_streamOver, andThen_assoc, andThen_assoc]
  rfl

theorem payloadByte_streamOver (c : Byte) (s f : State) :
    payloadByte c (s.streamOver f) = andThen (payloadByte c s) fun t => .next (t.streamOver f) := by
  unfold payloadByte
  by_cases h0 : s.opNeed = 0
  · rw [if_pos h0, if_pos (show (s.streamOver f).opNeed = 0 from h0)]
    by_cases h1 : opNeedOf c = 0
    · rw [if_pos h1, if_pos h1]
      exact complete_streamOver (s.takeLead c) f
    · rw [if_neg h1, if_neg h1]
      rfl
  · rw [if_neg h0, if_neg (show ¬(s.streamOver f).opNeed = 0 from h0)]
    by_cases h1 : (s.takeTrailing c).opGot = s.opNeed
    · rw [if_pos h1, if_pos (show ((s.streamOver f).takeTrailing c).opGot = (s.streamOver f).opNeed from h1)]
      exact complete_streamOver (s.takeTrailing c) f
    · rw [if_neg h1, if_neg (show ¬((s.streamOver f).takeTrailing c).opGot = (s.streamOver f).opNeed from h1)]
      rfl

/-- A released byte reads and writes the pixel state, the open operation and the counts, and reads EXPECTED, CHANNELS,
FB_BYTES and `epoch`; nothing else. -/
theorem release_streamOver (c : Byte) (s f : State) :
    release c (s.streamOver f) = andThen (release c s) fun t => .next (t.streamOver f) :=
  payloadByte_streamOver c s.countPayload f

theorem releaseAll_streamOver (f : State) : ∀ (bs : List Byte) (s : State),
    releaseAll bs (s.streamOver f) = andThen (releaseAll bs s) fun t => .next (t.streamOver f)
  | [], _ => rfl
  | c :: bs, s => by
    rw [releaseAll, releaseAll, release_streamOver, andThen_assoc, andThen_assoc]
    exact congrArg _ (funext fun t => releaseAll_streamOver f bs t)

/-- Releasing does not look at IN_OFFSET and ZPEND. -/
theorem releaseAll_pending (bs : List Byte) (s : State) (offset : U64) (zeros : BitVec 3) :
    releaseAll bs { s with inOffset := offset, zpend := zeros } =
      andThen (releaseAll bs s) fun t => .next { t with inOffset := offset, zpend := zeros } := by
  have e : ({ s with inOffset := offset, zpend := zeros } : State)
      = s.streamOver { s with inOffset := offset, zpend := zeros } := rfl
  rw [e, releaseAll_streamOver]
  cases h : releaseAll bs s with
  | next t =>
    have ht := releaseAll_eq_next h
    have ho := releasedAll_only bs s
    rw [← ht] at ho
    unfold OnlyReleaseState at ho
    show Host.Outcome.next _ = Host.Outcome.next _
    congr 1
    rw [ho]
    rfl
  | fault r => rfl
  | refused r => rfl

end Sys2Proof.Machine
end

