-- ==== Sys2Proof/Laws/Extractor.lean ====
section
/-! SUPPORT. The extractor's four cases on a byte, each as what it releases and what stays pending. -/

namespace Sys2Proof.Machine

theorem decoderSteps_append : ∀ (xs ys : List Token) (s : State),
    decoderSteps (xs ++ ys) s = andThen (decoderSteps xs s) (decoderSteps ys)
  | [], _, _ => rfl
  | t :: xs, ys, s => by
    rw [List.cons_append, decoderSteps, decoderSteps, andThen_assoc]
    exact congrArg _ (funext fun t => decoderSteps_append xs ys t)

theorem decoderSteps_one (t : Token) (s : State) : decoderSteps [t] s = decoderStep t s := by
  show andThen (decoderStep t s) (fun s => .next s) = _
  cases decoderStep t s <;> rfl

theorem releaseAll_one (c : Byte) (s : State) : releaseAll [c] s = release c s := by
  show andThen (release c s) (fun s => .next s) = _
  cases release c s <;> rfl

/-- A zero is held while fewer than seven are pending. -/
theorem extractor_hold {s : State} (hp : s.phase = .payload) (hz : s.zpend.toNat < 7) :
    decoderStep (.byte 0) s =
      .next { s with inOffset := sat64 (s.inOffset.toNat + 1), zpend := s.zpend + 1 } := by
  rw [decoderStep_payload hp]
  show extractByte 0 s.countInput = _
  unfold extractByte
  rw [if_pos rfl, if_pos (show s.countInput.zpend.toNat < 7 from hz)]
  rfl

/-- The oldest of seven pending zeros is released by the next. -/
theorem extractor_shift {s : State} (hp : s.phase = .payload) (hz : s.zpend = 7) :
    decoderStep (.byte 0) s =
      andThen (releaseAll [0] s) fun t => .next { t with inOffset := sat64 (s.inOffset.toNat + 1), zpend := 7 } := by
  have h := releaseAll_pending [0] s (sat64 (s.inOffset.toNat + 1)) 7
  rw [releaseAll_one] at h
  rw [← h, decoderStep_payload hp, ← hz]
  show extractByte 0 s.countInput = _
  unfold extractByte
  rw [if_pos rfl, if_neg (show ¬ s.countInput.zpend.toNat < 7 by rw [countInput_zpend, hz]; decide)]
  rfl

/-- 0x01 after seven zeros ends the payload. -/
theorem extractor_marker {s : State} (hp : s.phase = .payload) (hz : s.zpend = 7) :
    decoderStep (.byte 1) s =
      .next (finish (markerOffset s) { s with inOffset := sat64 (s.inOffset.toNat + 1), zpend := 0 }) := by
  rw [decoderStep_payload hp]
  show extractByte 1 s.countInput = _
  unfold extractByte
  rw [if_neg (by decide), if_pos ⟨rfl, hz⟩]
  rfl

/-- Any other byte releases the pending zeros and itself. -/
theorem extractor_flush {s : State} {b : Byte} (hp : s.phase = .payload) (hb : b ≠ 0)
    (hm : ¬(b = 1 ∧ s.zpend = 7)) :
    decoderStep (.byte b) s =
      andThen (releaseAll (List.replicate s.zpend.toNat 0 ++ [b]) s) fun t =>
        .next { t with inOffset := sat64 (s.inOffset.toNat + 1), zpend := 0 } := by
  rw [decoderStep_payload hp]
  show extractByte b s.countInput = _
  unfold extractByte
  rw [if_neg hb, if_neg (show ¬(b = 1 ∧ s.countInput.zpend = 7) from hm), releaseZeros_eq]
  have h := releaseAll_pending (List.replicate s.zpend.toNat 0) s (sat64 (s.inOffset.toNat + 1)) s.zpend
  have e : s.countInput = { s with inOffset := sat64 (s.inOffset.toNat + 1), zpend := s.zpend } := rfl
  rw [countInput_zpend, e, h, andThen_assoc, releaseAll_append, andThen_assoc]
  congr 1
  funext u
  rw [andThen_next, ← releaseAll_pending, releaseAll_one]
  rfl

/-- The extractor on bytes alone: what it has released of `y`, and how many zeros are pending. -/
def extractFold (y : List Byte) : List Byte × Nat :=
  y.foldl (fun st b => if b = 0 then (if st.2 < 7 then (st.1, st.2 + 1) else (st.1 ++ [0], st.2)) else (st.1 ++ List.replicate st.2 0 ++ [b], 0)) ([], 0)

theorem extractFold_concat (y : List Byte) (b : Byte) : extractFold (y ++ [b]) =
   if b = 0 then (if (extractFold y).2 < 7 then ((extractFold y).1, (extractFold y).2 + 1) else ((extractFold y).1 ++ [0], (extractFold y).2)) else ((extractFold y).1 ++ List.replicate (extractFold y).2 0 ++ [b], 0) := by
  unfold extractFold
  rw [List.foldl_append]; rfl

theorem zeros_succ (n : Nat) : List.replicate (n + 1) (0 : Byte) = List.replicate n 0 ++ [0] := List.replicate_succ'

/-- Released bytes and pending zeros are all of `y`; fewer than seven pending are all the zeros at its end. -/
theorem extractFold_spec (y : List Byte) : y = (extractFold y).1 ++ List.replicate (extractFold y).2 0 ∧ (extractFold y).2 ≤ 7 ∧
   ((extractFold y).2 < 7 → (extractFold y).1 = [] ∨ ∃ q c, (extractFold y).1 = q ++ [c] ∧ c ≠ 0) := by
  induction y using List.reverseRecOn with
  | nil => exact ⟨rfl, by decide, fun _ => .inl rfl⟩
  | append_singleton y b ih =>
    obtain ⟨h1, h2, h3⟩ := ih
    rw [extractFold_concat]
    by_cases hb : b = 0
    · subst hb
      rw [if_pos rfl]
      by_cases hz : (extractFold y).2 < 7
      · rw [if_pos hz]
        refine ⟨?_, by simp only; omega, fun h => h3 (by simp only at h; omega)⟩
        simp only
        rw [zeros_succ, ← List.append_assoc, ← h1]
      · rw [if_neg hz]
        refine ⟨?_, by simp only; omega, fun h => by simp only at h; omega⟩
        simp only
        have : (extractFold y).2 = 7 := by omega
        rw [this] at h1 ⊢
        conv_lhs => rw [h1]
        simp [List.append_assoc]
    · rw [if_neg hb]
      refine ⟨?_, by simp, fun _ => .inr ⟨_, b, rfl, hb⟩⟩
      simp only [List.replicate_zero, List.append_nil]
      rw [← h1]

/-- Before an end marker the machine has released what `extractFold` says and holds the zeros it says. -/
theorem extract_run {s : State} (hp : s.phase = .payload) (hz : s.zpend = 0) (y : List Byte)
    (hy : ∀ q, q <+: y → ¬ endMarker <:+ q) :
    decoderSteps (y.map .byte) s = andThen (releaseAll (extractFold y).1 s) fun t =>
      .next { t with inOffset := sat64 (s.inOffset.toNat + y.length), zpend := BitVec.ofNat 3 (extractFold y).2 } := by
  induction y using List.reverseRecOn with
  | nil =>
    show Host.Outcome.next s = Host.Outcome.next _
    congr 1
    show s = { s with inOffset := sat64 (s.inOffset.toNat + 0), zpend := 0 }
    rw [Nat.add_zero, sat64_toNat_self, ← hz]
  | append_singleton y b ih =>
    have hyy := fun q (hq : q <+: y) => hy q (hq.trans (List.prefix_append y [b]))
    obtain ⟨h1, h2, h3⟩ := extractFold_spec y
    rw [List.map_append, decoderSteps_append, ih hyy, andThen_assoc, extractFold_concat]
    -- result of the last step
    have key : ∀ t, releaseAll (extractFold y).1 s = .next t →
       decoderSteps (List.map Token.byte [b]) { t with inOffset := sat64 (s.inOffset.toNat + y.length), zpend := BitVec.ofNat 3 (extractFold y).2 } =
        andThen (releaseAll (if b = 0 then (if (extractFold y).2 < 7 then [] else [0]) else List.replicate (extractFold y).2 0 ++ [b]) t)
          fun u => .next { u with inOffset := sat64 (s.inOffset.toNat + (y ++ [b]).length), zpend := BitVec.ofNat 3 (if b = 0 then (if (extractFold y).2 < 7 then (extractFold y).2 + 1 else (extractFold y).2) else 0) } := by
      intro t ht
      have hpt : t.phase = .payload := by rw [releaseAll_eq_next ht, releasedAll_phase]; exact hp
      have hzn : (BitVec.ofNat 3 (extractFold y).2).toNat = (extractFold y).2 := by rw [BitVec.toNat_ofNat]; omega
      have hlen : sat64 ((sat64 (s.inOffset.toNat + y.length)).toNat + 1) = sat64 (s.inOffset.toNat + (y ++ [b]).length) := by
        rw [sat64_add, List.length_append]; rfl
      rw [List.map_singleton, decoderSteps_one]
      by_cases hb : b = 0
      · rw [if_pos hb, if_pos hb]
        subst hb
        by_cases hz7 : (extractFold y).2 < 7
        · rw [if_pos hz7, if_pos hz7, extractor_hold (by exact hpt) (by simp only [hzn]; exact hz7)]
          have : BitVec.ofNat 3 (extractFold y).2 + 1 = BitVec.ofNat 3 ((extractFold y).2 + 1) := by
            apply BitVec.eq_of_toNat_eq; simp [BitVec.toNat_add]
          simp only [hlen, this]
          rfl
        · have h7 : (extractFold y).2 = 7 := by omega
          rw [if_neg hz7, if_neg hz7, extractor_shift (by exact hpt) (by simp only [h7]; rfl), releaseAll_pending, andThen_assoc, h7]
          simp only [hlen]
          rfl
      · rw [if_neg hb, if_neg hb]
        have hnm : ¬ (b = 1 ∧ (extractFold y).2 = 7) := by
          rintro ⟨rfl, h7⟩
          refine hy (y ++ [1]) (List.prefix_refl _) ?_
          rw [h1, h7]
          exact ⟨(extractFold y).1, by simp [endMarker]⟩
        rw [extractor_flush (by exact hpt) hb]
        · simp only [hzn]
          rw [releaseAll_pending, andThen_assoc]
          simp only [hlen]
          rfl
        · rintro ⟨hb1, hz7⟩
          refine hnm ⟨hb1, ?_⟩
          have : BitVec.ofNat 3 (extractFold y).2 = 7 := hz7
          rw [← hzn, this]; rfl
    have split : (if b = 0 then (if (extractFold y).2 < 7 then ((extractFold y).1, (extractFold y).2 + 1) else ((extractFold y).1 ++ [0], (extractFold y).2)) else ((extractFold y).1 ++ List.replicate (extractFold y).2 0 ++ [b], 0))
       = ((extractFold y).1 ++ (if b = 0 then (if (extractFold y).2 < 7 then [] else [0]) else List.replicate (extractFold y).2 0 ++ [b]), (if b = 0 then (if (extractFold y).2 < 7 then (extractFold y).2 + 1 else (extractFold y).2) else 0)) := by
      split_ifs <;> simp
    rw [split, releaseAll_append, andThen_assoc]
    cases hr : releaseAll (extractFold y).1 s with
    | next t => exact key t hr
    | fault r => rfl
    | refused r => rfl

theorem extractFold_full {y p : List Byte} (h : y = p ++ List.replicate 7 0) : extractFold y = (p, 7) := by
  obtain ⟨h1, h2, h3⟩ := extractFold_spec y
  by_cases h7 : (extractFold y).2 = 7
  · rw [h7, h] at h1
    have := List.append_cancel_right h1
    rw [h] at h7 ⊢
    exact Prod.ext this.symm h7
  · exfalso
    have hlt : (extractFold y).2 < 7 := by omega
    obtain ⟨k, hk⟩ : ∃ k, 7 = (k + 1) + (extractFold y).2 := ⟨6 - (extractFold y).2, by omega⟩
    have e : y = p ++ List.replicate (k + 1) 0 ++ List.replicate (extractFold y).2 0 := by
      conv_lhs => rw [h, hk]
      rw [List.append_assoc, List.replicate_append_replicate]
    have this := List.append_cancel_right (e.symm.trans h1)
    rcases h3 hlt with h4 | ⟨q, c, h4, hc⟩
    · rw [h4] at this; simp at this
    · rw [h4, zeros_succ, ← List.append_assoc] at this
      have := List.append_inj_right' this rfl
      simp at this
      exact hc this.symm

end Sys2Proof.Machine
end

