-- ==== Sys2Proof/Laws/Invariant.lean ====
section
/-! SUPPORT. What keeps the clauses of the invariant: executing, releasing, finishing, raising, a header byte, the host. -/

namespace Sys2Proof.Machine

/-- The clauses of the invariant about pixels: PREV, the cache, PIXCOUNT, MP and the framebuffer. -/
structure PixelInv (s : State) : Prop where
  pixCount : s.prevValid = false → s.pixCount = 0
  mp : s.mp = true → s.prevValid = false
  prevStored : s.prevValid = true → storedPixel s.prev
  cacheStored : ∀ slot : Fin 64, storedPixel (s.cacheRead slot)
  cacheHome : ∀ slot : Fin 64, s.cacheRead slot = sentinel ∨ hash (s.cacheRead slot) = slot
  fbCanonical : s.fb.wf = true
  fbInside : ∀ c ∈ s.fb, c.1 < s.fbBytes

theorem emitted_inside {s : State} (p : Pixel) (h : CanEmit s) (hi : ∀ c ∈ s.fb, c.1 < s.fbBytes) :
    ∀ c ∈ (s.emitted p).fb, c.1 < s.fbBytes := by
  have e : (s.emitted p).fb = if s.pixCount.toNat < s.expected.toNat then
      s.fb.writeBytes (s.pixCount.toNat * s.channels.toNat) ((serialize s.channels p).take s.channels.toNat)
    else s.fb := rfl
  rw [e]
  split
  · rename_i hlt
    refine Memory.inside_writeBytes ?_ hi
    rw [serialize_take p h.channels, serialize_length p h.channels]
    exact pixel_inside hlt h.capacity
  · exact hi

theorem emittedAll_inside : ∀ (out : List Pixel) {s : State}, CanEmit s → (∀ c ∈ s.fb, c.1 < s.fbBytes) →
    ∀ c ∈ (s.emittedAll out).fb, c.1 < s.fbBytes
  | [], _, _, hi => hi
  | p :: out, _, h, hi => emittedAll_inside out (emitted_canEmit p h) (emitted_inside p h hi)

theorem commit_pix {s : State} (p : Pixel) (h : CanEmit s) (hp : PixelInv s) (hst : storedPixel p) (hm : s.mp = false) :
    PixelInv (((s.emitted p).cacheWrite (hash p) p).setPrev p) where
  pixCount := fun h => nomatch h
  mp := fun h => absurd (hm.symm.trans h) (by decide)
  prevStored := fun _ => hst
  cacheStored := fun slot => by
    have := cachesPixel_cacheWrite (s := s) (t := s.emitted p) p rfl slot
    rw [this]; split
    · exact hst
    · exact hp.cacheStored slot
  cacheHome := fun slot => by
    have := cachesPixel_cacheWrite (s := s) (t := s.emitted p) p rfl slot
    rw [this]; split
    · rename_i h; exact .inr h.symm
    · exact hp.cacheHome slot
  fbCanonical := (emitted_canEmit p h).canonical
  fbInside := emitted_inside p h hp.fbInside

theorem addDeltas_stored {p : Pixel} (h : storedPixel p) (a b c : Int) : storedPixel (addDeltas p a b c) := h

theorem ruled_pix {s : State} (i : Instr) (h : CanEmit s) (hp : PixelInv s) (hm : s.mp = false)
    (hr : readsPrev i = true → s.prevValid = true) : PixelInv (s.ruled i) ∧ (s.ruled i).prevValid = true := by
  cases i with
  | rgb r g b => exact ⟨commit_pix _ h hp (fun _ => rfl) hm, rfl⟩
  | rgba r g b a => exact ⟨commit_pix _ h hp (fun h => nomatch h) hm, rfl⟩
  | index slot =>
    refine ⟨⟨fun h => (nomatch h), fun h => absurd (hm.symm.trans h) (by decide), fun _ => hp.cacheStored slot, hp.cacheStored, hp.cacheHome, ?_, ?_⟩, rfl⟩
    · exact (emitted_canEmit _ h).canonical
    · exact emitted_inside _ h hp.fbInside
  | diff a b c => exact ⟨commit_pix _ h hp (addDeltas_stored (hp.prevStored (hr rfl)) _ _ _) hm, rfl⟩
  | luma a b c => exact ⟨commit_pix _ h hp (addDeltas_stored (hp.prevStored (hr rfl)) _ _ _) hm, rfl⟩
  | run n =>
    rw [ruled_run]
    have e := emittedAll_only (List.replicate n s.prev) s
    have h1 : (s.emittedAll (List.replicate n s.prev)).fb.wf = true := (emittedAll_canEmit _ h).canonical
    have h2 := emittedAll_inside (List.replicate n s.prev) h hp.fbInside
    generalize s.emittedAll (List.replicate n s.prev) = u at *
    rw [e]
    have hv : s.prevValid = true := hr rfl
    exact ⟨⟨fun h => absurd (hv.symm.trans h) (by decide), fun h => absurd (hm.symm.trans h) (by decide), hp.prevStored, hp.cacheStored, hp.cacheHome, h1, h2⟩, hv⟩

/-- Executing an operation keeps the pixel clauses and leaves a previous pixel or MP (43_pixel_ops.md R200). -/
theorem executed_pix {s : State} (i : Instr) (h : CanEmit s) (hp : PixelInv s) :
    PixelInv (s.executed i) ∧ ((s.executed i).prevValid = true ∨ (s.executed i).mp = true) := by
  by_cases hm : s.mp = true
  · rw [executed_of_mp i hm]; exact ⟨hp, .inr hm⟩
  · have hm : s.mp = false := by simpa using hm
    by_cases hr : readsPrev i = true ∧ s.prevValid = false
    · rw [executed_latch hm hr.1 hr.2]
      exact ⟨⟨hp.pixCount, fun _ => hr.2, hp.prevStored, hp.cacheStored, hp.cacheHome, hp.fbCanonical, hp.fbInside⟩, .inr rfl⟩
    · have hr : readsPrev i = true → s.prevValid = true := by
        intro h; by_contra hc; exact hr ⟨h, by simpa using hc⟩
      rw [executed_ruled hm hr]
      exact ⟨(ruled_pix i h hp hm hr).1, .inl (ruled_pix i h hp hm hr).2⟩

/-- The clauses of the invariant that hold in every phase. -/
structure DecodeInv (s : State) : Prop extends PixelInv s where
  opNeed : s.opNeed.toNat = 0 ∨ s.opNeed.toNat = 1 ∨ s.opNeed.toNat = 3 ∨ s.opNeed.toNat = 4
  opNeedOfLead : s.opNeed.toNat ≠ 0 → s.opNeed.toNat = opNeedOf s.opLead
  opGot : s.opNeed.toNat ≠ 0 → s.opGot.toNat < s.opNeed.toNat
  firstOp : s.opCount ≠ 0 → s.prevValid = true ∨ s.mp = true

theorem completed_core {s : State} (h : CanEmit s) (hc : PixelInv s) : DecodeInv s.completed := by
  have ⟨h1, h2⟩ := executed_pix (decodeOp s.opLead s.opTb) h hc
  exact { h1 with
    opNeed := .inl rfl
    opNeedOfLead := fun h => absurd rfl h
    opGot := fun h => absurd rfl h
    firstOp := fun _ => h2
    pixCount := h1.pixCount }

theorem taken_core {s : State} (c : Byte) (h : CanEmit s) (hc : DecodeInv s) : DecodeInv (s.taken c) := by
  unfold State.taken
  split
  · split
    · exact completed_core (s := s.takeLead c) ⟨h.channels, h.capacity, h.canonical⟩
        ⟨hc.pixCount, hc.mp, hc.prevStored, hc.cacheStored, hc.cacheHome, hc.fbCanonical, hc.fbInside⟩
    · rename_i h0 h1
      have hn : (BitVec.ofNat 3 (opNeedOf c)).toNat = opNeedOf c := by
        rcases opNeedOf_mem c with h | h | h | h <;> rw [h] <;> rfl
      exact { hc with
        opNeed := by
          have e : ((s.takeLead c).openOp (opNeedOf c)).opNeed.toNat = opNeedOf c := hn
          rw [e]; exact opNeedOf_mem c
        opNeedOfLead := fun _ => hn
        opGot := fun _ => by
          show 0 < (BitVec.ofNat 3 (opNeedOf c)).toNat
          rw [hn]; omega
        pixCount := hc.pixCount }
  · split
    · exact completed_core (s := s.takeTrailing c) ⟨h.channels, h.capacity, h.canonical⟩
        ⟨hc.pixCount, hc.mp, hc.prevStored, hc.cacheStored, hc.cacheHome, hc.fbCanonical, hc.fbInside⟩
    · rename_i h0 h1
      have hg := hc.opGot
      exact { hc with
        opGot := fun hne => by
          have := hg hne
          have hl := s.opNeed.isLt
          have h2 : (s.opGot + 1).toNat = s.opGot.toNat + 1 := by rw [BitVec.toNat_add]; simp; omega
          show (s.opGot + 1).toNat < s.opNeed.toNat
          have h1 : ¬ (s.opGot + 1 = s.opNeed) := h1
          have : (s.opGot + 1).toNat ≠ s.opNeed.toNat := fun e => h1 (BitVec.eq_of_toNat_eq e)
          omega
        pixCount := hc.pixCount }

theorem released_core {s : State} (c : Byte) (h : CanEmit s) (hc : DecodeInv s) : DecodeInv (s.released c) :=
  taken_core (s := s.countPayload) c ⟨h.channels, h.capacity, h.canonical⟩ { hc with pixCount := hc.pixCount }

theorem releasedAll_core : ∀ (bs : List Byte) {s : State}, CanEmit s → DecodeInv s → DecodeInv (s.releasedAll bs)
  | [], _, _, hc => hc
  | c :: bs, _, h, hc => releasedAll_core bs (released_canEmit c h) (released_core c h hc)

theorem decodeInv_of_inv {s : State} (h : Inv s) : DecodeInv s :=
  { h with pixCount := h.pixCount }

theorem canEmit_of_inv {s : State} (h : Inv s) (hp : s.phase = .payload) : CanEmit s :=
  ⟨(h.payload hp).1.channels, (h.payload hp).1.capacity, h.fbCanonical⟩

theorem taken_payloadLen (s : State) (c : Byte) : (s.taken c).payloadLen = s.payloadLen := by
  unfold State.taken
  split
  · split
    · exact executed_payloadLen _ _
    · rfl
  · split
    · exact executed_payloadLen _ _
    · rfl

theorem released_payloadLen (s : State) (c : Byte) : (s.released c).payloadLen = sat64 (s.payloadLen.toNat + 1) :=
  taken_payloadLen s.countPayload c

theorem releasedAll_payloadLen : ∀ (bs : List Byte) (s : State), (s.releasedAll bs).payloadLen = sat64 (s.payloadLen.toNat + bs.length)
  | [], s => (sat64_toNat_self s.payloadLen).symm
  | c :: bs, s => by
    show ((s.released c).releasedAll bs).payloadLen = _
    rw [releasedAll_payloadLen bs, released_payloadLen, sat64_add]
    simp only [List.length_cons, Nat.add_assoc, Nat.add_comm 1]

/-- The marker's offset in bytes (45_framebuffer.md R246). -/
theorem markerOffset_toNat (s : State) : (markerOffset s).toNat = min (14 + s.payloadLen.toNat) (2 ^ 64 - 1) :=
  sat64_toNat _

/-- The marker's offset after a payload has been released. -/
theorem markerOffset_releasedAll (bs : List Byte) (s : State) :
    markerOffset (s.releasedAll bs) = sat64 (14 + s.payloadLen.toNat + bs.length) := by
  rw [markerOffset, releasedAll_payloadLen, Nat.add_comm 14, sat64_add]
  congr 1
  omega

/-- Until IN_OFFSET saturates the marker's offset is that of its last byte less 7 (41_stream_extractor.md R141). -/
theorem markerOffset_eq_sub {s : State} (h : Inv s) (hp : s.phase = .payload) (hz : s.zpend = 7)
    (hs : s.inOffset.toNat < 2 ^ 64 - 1) : markerOffset s = s.inOffset - 7 := by
  have ho := (h.payload hp).2
  rw [hz] at ho
  simp only [counterMax] at ho
  have h7 : (7#3).toNat = 7 := rfl
  have hm := markerOffset_toNat s
  bv_omega

/-- The invariant of a state of phase PAYLOAD. -/
theorem inv_payload {s : State} (hc : DecodeInv s) (hp : s.phase = .payload) (ha : HeaderAccepted s)
   (ho : s.inOffset.toNat = min (14 + s.payloadLen.toNat + s.zpend.toNat) counterMax)
   (he : s.errCode = .none ∧ s.errValue = 0 ∧ s.errOffset = 0 ∧ s.errOpIndex = 0)
   (hcs : s.colorspace = 0 ∨ s.colorspace = 1) : Inv s :=
  { hc with
    header := fun h => absurd (hp.symm.trans h) (by decide)
    payload := fun _ => ⟨ha, ho⟩
    done := fun h => absurd (hp.symm.trans h) (by decide)
    noError := fun _ => he
    error := fun h => absurd (hp.symm.trans h) (by decide)
    channels := .inr ha.channels
    colorspace := hcs
    pixCount := hc.pixCount }

/-- Raising an error keeps the invariant. -/
theorem inv_raise {s : State} (hc : DecodeInv s) (e : ErrCode) (v : Byte) (o i : U64) (he : e ≠ .none ∧ e ≠ .internalConsistency)
   (hch : s.channels = 0 ∨ s.channels = 3 ∨ s.channels = 4) (hcs : s.colorspace = 0 ∨ s.colorspace = 1) : Inv (s.raise e v o i) :=
  { hc with
    header := fun h => nomatch h
    payload := fun h => nomatch h
    done := fun h => nomatch h
    noError := fun h => absurd rfl h
    error := fun _ => he
    channels := hch
    colorspace := hcs
    pixCount := hc.pixCount }

/-- Finish keeps the invariant. -/
theorem inv_finish {s : State} (m : U64) (hc : DecodeInv s) (ha : HeaderAccepted s)
   (ho : s.inOffset.toNat = min (22 + s.payloadLen.toNat) counterMax)
   (he : s.errCode = .none ∧ s.errValue = 0 ∧ s.errOffset = 0 ∧ s.errOpIndex = 0)
   (hcs : s.colorspace = 0 ∨ s.colorspace = 1) : Inv (finish m s) := by
  by_cases h : s.opNeed = 0
  · by_cases hm : s.mp = true
    · rw [finish_missing h hm]; exact inv_raise hc _ _ _ _ (by decide) (.inr ha.channels) hcs
    · have hm : s.mp = false := by simpa using hm
      by_cases hx : s.pixCount = s.expected
      · rw [finish_done h hm hx]
        exact { hc with
          header := fun h => nomatch h
          payload := fun h => nomatch h
          done := fun _ => ⟨⟨ha.hdrValid, ha.channels, ha.expected, ha.capacity⟩, ho, hx, h, hm⟩
          noError := fun _ => he
          error := fun h => nomatch h
          channels := .inr ha.channels
          colorspace := hcs
          pixCount := hc.pixCount }
      · rw [finish_count h hm hx]; exact inv_raise hc _ _ _ _ (by decide) (.inr ha.channels) hcs
  · rw [finish_cut h]; exact inv_raise hc _ _ _ _ (by decide) (.inr ha.channels) hcs

theorem inv_released {s : State} (c : Byte) (hc : DecodeInv s) (hp : s.phase = .payload) (ha : HeaderAccepted s)
   (ho : s.inOffset.toNat = min (14 + (s.payloadLen.toNat + 1) + s.zpend.toNat) counterMax)
   (he : s.errCode = .none ∧ s.errValue = 0 ∧ s.errOffset = 0 ∧ s.errOpIndex = 0)
   (hcs : s.colorspace = 0 ∨ s.colorspace = 1) : Inv (s.released c) := by
  have hce : CanEmit s := ⟨ha.channels, ha.capacity, hc.fbCanonical⟩
  have h1 := released_core c hce hc
  have h2 := released_payloadLen s c
  have e := released_only s c
  generalize s.released c = t at *
  refine inv_payload h1 (by rw [e]; exact hp) ⟨?_, ?_, ?_, ?_⟩ ?_ (by rw [e]; exact he) (by rw [e]; exact hcs)
  · rw [e]; exact ha.hdrValid
  · rw [e]; exact ha.channels
  · rw [e]; exact ha.expected
  · rw [e]; exact ha.capacity
  · rw [h2, sat64_toNat]
    have : t.inOffset = s.inOffset := by rw [e]
    rw [this, ho]
    have : t.zpend = s.zpend := by rw [e]
    rw [this]
    unfold counterMax
    omega

theorem inv_extracted {s : State} (b : Byte) (h : Inv s) (hp : s.phase = .payload) :
    Inv (s.countInput.extracted b) := by
  have hc := decodeInv_of_inv h
  obtain ⟨ha, ho⟩ := h.payload hp
  have hce : CanEmit s := canEmit_of_inv h hp
  have he := h.noError (by rw [hp]; decide)
  have hcs := h.colorspace
  have hz := s.zpend.isLt
  have hpl := s.payloadLen.isLt
  have hmx : counterMax = 2^64 - 1 := rfl
  have hci : DecodeInv s.countInput := { hc with pixCount := hc.pixCount }
  have hai : HeaderAccepted s.countInput := ⟨ha.hdrValid, ha.channels, ha.expected, ha.capacity⟩
  have hoi : s.countInput.inOffset.toNat = min (min (14 + s.payloadLen.toNat + s.zpend.toNat) counterMax + 1) counterMax := by
    rw [countInput_inOffset, sat64_toNat, ho]; rfl
  unfold State.extracted
  split
  · split
    · rename_i hlt
      have hlt : s.zpend.toNat < 7 := hlt
      refine inv_payload { hc with pixCount := hc.pixCount } hp ⟨ha.hdrValid, ha.channels, ha.expected, ha.capacity⟩ ?_ he hcs
      show s.countInput.inOffset.toNat = min (14 + s.payloadLen.toNat + (s.zpend + 1).toNat) counterMax
      have : (s.zpend + 1).toNat = s.zpend.toNat + 1 := by rw [BitVec.toNat_add]; simp; omega
      rw [hoi, this]
      omega
    · rename_i hlt
      have hlt : ¬ s.zpend.toNat < 7 := hlt
      refine inv_released 0 hci hp hai ?_ he hcs
      rw [hoi]
      show _ = min (14 + (s.payloadLen.toNat + 1) + s.zpend.toNat) counterMax
      omega
  · split
    · rename_i hb
      have hb : s.zpend = 7 := hb.2
      refine inv_finish _ { hc with pixCount := hc.pixCount } ⟨ha.hdrValid, ha.channels, ha.expected, ha.capacity⟩ ?_ he hcs
      show s.countInput.inOffset.toNat = min (22 + s.payloadLen.toNat) counterMax
      rw [hoi, hb]
      simp; omega
    · have e := releasedAll_only (List.replicate s.countInput.zpend.toNat 0) s.countInput
      have e2 := releasedAll_payloadLen (List.replicate s.countInput.zpend.toNat 0) s.countInput
      have e3 := releasedAll_core (List.replicate s.countInput.zpend.toNat 0) (s := s.countInput) ⟨hce.channels, hce.capacity, hce.canonical⟩ hci
      generalize s.countInput.releasedAll _ = u at *
      have ui : u.inOffset = s.countInput.inOffset := by rw [e]
      refine inv_released b { e3 with pixCount := e3.pixCount } ?_ ⟨?_, ?_, ?_, ?_⟩ ?_ ?_ ?_
      · show u.phase = _; rw [e]; exact hp
      · show u.hdrValid = _; rw [e]; exact ha.hdrValid
      · show u.channels = _ ∨ u.channels = _; rw [e]; exact ha.channels
      · show u.expected.toNat = u.width.toNat * u.height.toNat; rw [e]; exact ha.expected
      · show u.expected.toNat * u.channels.toNat ≤ u.fbBytes; rw [e]; exact ha.capacity
      · show u.inOffset.toNat = min (14 + (u.payloadLen.toNat + 1) + 0) counterMax
        rw [ui, hoi, e2, sat64_toNat]
        simp
        omega
      · show u.errCode = _ ∧ u.errValue = _ ∧ u.errOffset = _ ∧ u.errOpIndex = _; rw [e]; exact he
      · show u.colorspace = _ ∨ u.colorspace = _; rw [e]; exact hcs

theorem inv_header {s : State} (b : Byte) (h : Inv s) (hp : s.phase = .header) :
    Inv (headerField s.inOffset.toNat b s.countInput) := by
  have hc := decodeInv_of_inv h
  have hcs := h.colorspace
  have hch := h.channels
  have he := h.noError (by rw [hp]; decide)
  obtain ⟨ho, h1, h2, h3, h4, h5, h6, h7, h8, h9, h10, hw, hh, hcc, hc13⟩ := h.header hp
  have hci : DecodeInv s.countInput := { hc with pixCount := hc.pixCount }
  have hoi : s.countInput.inOffset.toNat = s.inOffset.toNat + 1 := by
    rw [countInput_inOffset, sat64_toNat]; omega
  have go : ∀ t : State, t.phase = .header → OnlyHeaderState s.countInput t → t.inOffset.toNat = s.inOffset.toNat + 1 → t.inOffset.toNat ≤ 13 →
      (t.inOffset.toNat ≤ 4 → t.width = 0) → (t.inOffset.toNat ≤ 8 → t.height = 0) → (t.inOffset.toNat ≤ 12 → t.channels = 0) →
      (t.inOffset.toNat = 13 → t.channels = 3 ∨ t.channels = 4) → (t.channels = 0 ∨ t.channels = 3 ∨ t.channels = 4) →
      t.hdrValid = s.hdrValid → t.expected = s.expected → t.colorspace = s.colorspace →
      (t.errCode = .none ∧ t.errValue = 0 ∧ t.errOffset = 0 ∧ t.errOpIndex = 0) → Inv t := by
    intro t tp ho' ti ti2 tw th tc t13 tcc tv te tcs tn
    have hct : DecodeInv t := by
      unfold OnlyHeaderState at ho'
      rw [ho']
      exact { hc with pixCount := hc.pixCount }
    refine { hct with
      header := fun _ => ?_
      payload := fun h => absurd (tp.symm.trans h) (by decide)
      done := fun h => absurd (tp.symm.trans h) (by decide)
      noError := fun _ => tn
      error := fun h => absurd (tp.symm.trans h) (by decide)
      channels := tcc
      colorspace := tcs ▸ hcs
      pixCount := hct.pixCount }
    refine ⟨ti2, by rw [ho']; exact h1, by rw [ho']; exact h2, by rw [ho']; exact h3, by rw [ho']; exact h4, by rw [ho']; exact h5, by rw [ho']; exact h6, by rw [ho']; exact h7, tv.trans h8, te.trans h9, tcs.trans h10, tw, th, tc, t13⟩
  by_cases c1 : s.inOffset.toNat ≤ 3
  · rw [headerField_magic _ _ c1]
    unfold magicByte
    split
    · exact inv_raise hci _ _ _ _ (by decide) hch hcs
    · exact go _ hp rfl hoi (by omega) (fun _ => hw (by omega)) (fun _ => hh (by omega)) (fun _ => hcc (by omega)) (by omega) hch rfl rfl rfl he
  by_cases c2 : s.inOffset.toNat ≤ 7
  · rw [headerField_width _ _ (by omega) c2]
    have hoi' : (widthByte b s.countInput).inOffset.toNat = s.inOffset.toNat + 1 := hoi
    exact go (widthByte b s.countInput) hp rfl hoi (by omega) (fun _ => by omega) (fun _ => hh (by omega)) (fun _ => hcc (by omega)) (by omega) hch rfl rfl rfl he
  by_cases c3 : s.inOffset.toNat ≤ 11
  · rw [headerField_height _ _ (by omega) c3]
    have hoi' : (heightByte b s.countInput).inOffset.toNat = s.inOffset.toNat + 1 := hoi
    exact go (heightByte b s.countInput) hp rfl hoi (by omega) (fun _ => by omega) (fun _ => by omega) (fun _ => hcc (by omega)) (by omega) hch rfl rfl rfl he
  by_cases c4 : s.inOffset.toNat = 12
  · rw [c4, headerField_channel]
    unfold channelByte
    split
    · rename_i hb
      refine go _ hp rfl hoi ?_ ?_ ?_ ?_ (fun _ => hb) (.inr hb) rfl rfl rfl he
      · show s.countInput.inOffset.toNat ≤ 13; omega
      · intro h; have h : s.countInput.inOffset.toNat ≤ 4 := h; omega
      · intro h; have h : s.countInput.inOffset.toNat ≤ 8 := h; omega
      · intro h; have h : s.countInput.inOffset.toNat ≤ 12 := h; omega
    · exact inv_raise hci _ _ _ _ (by decide) hch hcs
  have c5 : s.inOffset.toNat = 13 := by omega
  rw [c5, headerField_colorSpace]
  unfold colorSpaceByte
  split
  · rename_i hb
    by_cases hcap : s.width.toNat * s.height.toNat * s.channels.toNat ≤ s.fbBytes
    · rw [headerDone_fits (by exact hcap)]
      refine inv_payload { hc with pixCount := hc.pixCount } rfl ⟨rfl, hc13 c5, expected_exact _ _, ?_⟩ ?_ he hb
      · show (_ : U64).toNat * _ ≤ _
        rw [expected_exact]; exact hcap
      · show s.countInput.inOffset.toNat = min (14 + s.payloadLen.toNat + s.zpend.toNat) counterMax
        rw [hoi, c5, h1, h4]; decide
    · rw [headerDone_exceeds (by exact Nat.not_le.1 hcap)]
      exact { hc with
        header := fun h => nomatch h
        payload := fun h => nomatch h
        done := fun h => nomatch h
        noError := fun h => absurd rfl h
        error := fun _ => ⟨by simp, by simp⟩
        channels := hch
        colorspace := hb
        pixCount := hc.pixCount }
  · exact inv_raise hci _ _ _ _ (by decide) hch hcs

/-- A decoder step keeps the invariant. -/
theorem inv_stepped {s : State} (tok : Token) (h : Inv s) : Inv (s.stepped tok) := by
  unfold State.stepped
  cases hp : s.phase
  · exact h
  · cases tok with
    | eof => exact inv_raise (decodeInv_of_inv h) _ _ _ _ (by decide) h.channels h.colorspace
    | byte b => exact inv_header b h hp
  · cases tok with
    | eof => exact inv_raise (decodeInv_of_inv h) _ _ _ _ (by decide) h.channels h.colorspace
    | byte b => exact inv_extracted b h hp
  · exact h
  · exact h

/-- The invariant says nothing about IRQ_EN and the model's own fields. -/
theorem inv_other {s : State} (h : Inv s) (q : Bool) (r : Word) (f : Byte) (es : List Edge) (src : List InPins) (e : Nat) :
  Inv { s with irqEn := q, regRdata := r, fbRdata := f, edges := es, source := src, epoch := e } :=
  ⟨h.opNeed, h.opNeedOfLead, h.opGot, h.header, fun hp => ⟨⟨(h.payload hp).1.hdrValid, (h.payload hp).1.channels, (h.payload hp).1.expected, (h.payload hp).1.capacity⟩, (h.payload hp).2⟩,
   fun hp => ⟨⟨(h.done hp).1.hdrValid, (h.done hp).1.channels, (h.done hp).1.expected, (h.done hp).1.capacity⟩, (h.done hp).2⟩, h.pixCount, h.mp, h.firstOp, h.noError, h.error, h.channels, h.colorspace, h.prevStored, h.cacheStored, h.cacheHome, h.fbCanonical, h.fbInside⟩

theorem cacheRead_replicate {s : State} (h : s.cache = Vector.replicate 64 sentinel) (i : Fin 64) : s.cacheRead i = sentinel := by
  unfold State.cacheRead
  rw [h]; simp

/-- The invariant of a state in which nothing has been decoded. -/
theorem inv_fresh {s : State} (hc : s.cache = Vector.replicate 64 sentinel) (hw : s.fb.wf = true) (hi : ∀ c ∈ s.fb, c.1 < s.fbBytes)
  (hp : s.phase = .idle ∨ s.phase = .header) (h0 : s.inOffset = 0 ∧ s.payloadLen = 0 ∧ s.opCount = 0 ∧ s.pixCount = 0 ∧ s.zpend = 0 ∧ s.opNeed = 0
      ∧ s.mp = false ∧ s.prevValid = false ∧ s.hdrValid = false ∧ s.expected = 0 ∧ s.colorspace = 0 ∧ s.width = 0 ∧ s.height = 0 ∧ s.channels = 0)
  (he : s.errCode = .none ∧ s.errValue = 0 ∧ s.errOffset = 0 ∧ s.errOpIndex = 0) : Inv s := by
  obtain ⟨a1,a2,a3,a4,a5,a6,a7,a8,a9,a10,a11,a12,a13,a14⟩ := h0
  have hsr : ∀ i, s.cacheRead i = sentinel := cacheRead_replicate hc
  constructor
  · rw [a6]; exact .inl rfl
  · rw [a6]; intro h; exact absurd rfl h
  · rw [a6]; intro h; exact absurd rfl h
  · intro _; exact ⟨by rw [a1]; decide, a2, a3, a4, a5, a6, a7, a8, a9, a10, a11, fun _ => a12, fun _ => a13, fun _ => a14, fun h => by rw [a1] at h; exact absurd h (by decide)⟩
  · intro h; rcases hp with hp | hp <;> rw [hp] at h <;> cases h
  · intro h; rcases hp with hp | hp <;> rw [hp] at h <;> cases h
  · intro _; exact a4
  · intro _; exact a8
  · intro h; exact absurd a3 h
  · intro _; exact he
  · intro h; rcases hp with hp | hp <;> rw [hp] at h <;> cases h
  · exact .inl a14
  · exact .inl a11
  · intro h; rw [a8] at h; cases h
  · intro i; rw [hsr]; intro h; cases h
  · intro i; exact .inl (hsr i)
  · exact hw
  · exact hi

/-- The host's access keeps the invariant. -/
theorem inv_hostAccess {s : State} (e : Edge) (h : Inv s) : Inv (hostAccess e s) := by
  rw [hostAccess_eq]
  split
  · exact inv_fresh rfl h.fbCanonical h.fbInside (.inr rfl) ⟨rfl,rfl,rfl,rfl,rfl,rfl,rfl,rfl,rfl,rfl,rfl,rfl,rfl,rfl⟩ ⟨rfl,rfl,rfl,rfl⟩
  · exact inv_other h _ _ _ s.edges s.source s.epoch

end Sys2Proof.Machine
end

