-- ==== Sys2Proof/Laws/Kind.lean ====
section
/-! SUPPORT. States that differ in kind bits only: every operation over pixels keeps them so (10_state.md R25). -/

namespace Sys2Proof.Machine

/-- `s'` is `s` with a PREV and a cache that differ from it in kind bits only. -/
def SameButKinds (s s' : State) : Prop := ∃ p c, s' = { s with prev := p, cache := c } ∧ Pixel.eraseKind s.prev = Pixel.eraseKind p ∧ s.cache.map Pixel.eraseKind = c.map Pixel.eraseKind

theorem sameButKinds_iff (s s' : State) : SameButKinds s s' ↔ eraseKinds s = eraseKinds s' := by
  constructor
  · rintro ⟨p, c, rfl, h1, h2⟩
    unfold eraseKinds; simp only [h1, h2]
  · intro h
    refine ⟨s'.prev, s'.cache, ?_, ?_, ?_⟩
    · cases s; cases s'; unfold eraseKinds at h; simp at h ⊢; simp [h]
    · have := congrArg State.prev h; exact this
    · have := congrArg State.cache h; exact this

/-- Where `o` answers a next state, so does `o'`, and the two differ in kind bits only. -/
def BothAnswer (o o' : Result) : Prop := ∀ t, o = .next t → ∃ t', o' = .next t' ∧ SameButKinds t t'

theorem BothAnswer.next {s s' : State} (h : SameButKinds s s') : BothAnswer (.next s) (.next s') := fun t ht => by
  cases ht; exact ⟨_, rfl, h⟩

theorem BothAnswer.bind {o o' : Result} {f f' : State → Result} (h : BothAnswer o o') (hf : ∀ s s', SameButKinds s s' → BothAnswer (f s) (f' s')) : BothAnswer (andThen o f) (andThen o' f') := by
  intro t ht
  obtain ⟨u, hu, ht⟩ := andThen_eq_next.1 ht
  obtain ⟨u', hu', hk⟩ := h u hu
  obtain ⟨t', ht', hk'⟩ := hf u u' hk t ht
  exact ⟨t', by rw [hu']; exact ht', hk'⟩

/-- Two pixels of the same channels. -/
def SameChannels (p q : Pixel) : Prop := Pixel.eraseKind p = Pixel.eraseKind q

theorem SameChannels.fields {p q} (h : SameChannels p q) : p.r = q.r ∧ p.g = q.g ∧ p.b = q.b ∧ p.a = q.a := by
  unfold SameChannels Pixel.eraseKind at h
  simp only [Pixel.mk.injEq, true_and] at h
  exact h

theorem SameChannels.serialize {p q} (h : SameChannels p q) (c : Byte) : serialize c p = serialize c q := by
  obtain ⟨h1, h2, h3, h4⟩ := h.fields
  unfold Machine.serialize; rw [h1, h2, h3, h4]
theorem SameChannels.hash {p q} (h : SameChannels p q) : hash p = hash q := by
  obtain ⟨h1, h2, h3, h4⟩ := h.fields
  unfold Machine.hash; simp only [h1, h2, h3, h4]

theorem SameButKinds.prev {s s'} (h : SameButKinds s s') : SameChannels s.prev s'.prev := by obtain ⟨p, c, rfl, h1, h2⟩ := h; exact h1
theorem SameButKinds.cacheRead {s s'} (h : SameButKinds s s') (i : Fin 64) : SameChannels (s.cacheRead i) (s'.cacheRead i) := by
  obtain ⟨p, c, rfl, h1, h2⟩ := h
  have := congrArg (fun v : Vector Pixel 64 => v[i]) h2
  simpa [State.cacheRead, SameChannels] using this

theorem sameButKinds_emit {p q : Pixel} {s s' : State} (h : SameButKinds s s') (hp : SameChannels p q) : BothAnswer (emit p s) (emit q s') := by
  obtain ⟨p', c', rfl, h1, h2⟩ := h
  intro t ht
  rw [emit_eq] at ht
  split at ht
  · cases ht
  · rename_i hn
    refine ⟨_, by rw [emit_eq]; exact if_neg hn, ?_⟩
    cases ht
    refine ⟨p', c', ?_, h1, h2⟩
    unfold State.emitted
    simp only [hp.serialize]

theorem sameButKinds_emitTimes {p q : Pixel} (hp : SameChannels p q) : ∀ (n : Nat) {s s' : State}, SameButKinds s s' → BothAnswer (emitTimes n p s) (emitTimes n q s')
  | 0, _, _, h => BothAnswer.next h
  | n + 1, _, _, h => BothAnswer.bind (sameButKinds_emit h hp) fun _ _ h => sameButKinds_emitTimes hp n h

theorem sameButKinds_commit {p q : Pixel} (hp : SameChannels p q) {s s' : State} (h : SameButKinds s s') : BothAnswer (commit p s) (commit q s') := by
  refine BothAnswer.bind (sameButKinds_emit h hp) fun u u' hu => BothAnswer.next ?_
  obtain ⟨p', c', rfl, h1, h2⟩ := hu
  refine ⟨q, c'.set (hash q) q, rfl, hp, ?_⟩
  show (u.cache.set (hash p) p).map _ = _
  have : Pixel.eraseKind p = Pixel.eraseKind q := hp
  have hh := hp.hash
  simp only [Vector.map_set, h2, this, hh]

theorem sameButKinds_frame {b : Bool} {r r' : State → Result} {s s' : State} (h : SameButKinds s s') (hr : BothAnswer (r s) (r' s')) : BothAnswer (executeFrame b r s) (executeFrame b r' s') := by
  have e1 : s'.mp = s.mp := by obtain ⟨p, c, rfl, -⟩ := h; rfl
  have e2 : s'.prevValid = s.prevValid := by obtain ⟨p, c, rfl, -⟩ := h; rfl
  unfold executeFrame
  rw [e1, e2]
  split
  · exact BothAnswer.next h
  · split
    · obtain ⟨p, c, rfl, h1, h2⟩ := h
      exact BothAnswer.next ⟨p, c, rfl, h1, h2⟩
    · exact hr

theorem SameChannels.addDeltas {p q} (h : SameChannels p q) (a b c : Int) : SameChannels (addDeltas p a b c) (addDeltas q a b c) := by
  obtain ⟨h1, h2, h3, h4⟩ := h.fields
  unfold SameChannels Pixel.eraseKind Machine.addDeltas
  simp only [h1, h2, h3, h4]

theorem sameButKinds_exec (i : Instr) {s s' : State} (h : SameButKinds s s') : BothAnswer (exec i s) (exec i s') := by
  cases i with
  | rgb r g b => exact sameButKinds_frame h (sameButKinds_commit rfl h)
  | rgba r g b a => exact sameButKinds_frame h (sameButKinds_commit rfl h)
  | index slot =>
    refine sameButKinds_frame h (BothAnswer.bind (sameButKinds_emit h (h.cacheRead slot)) fun u u' hu => BothAnswer.next ?_)
    obtain ⟨p', c', rfl, h1, h2⟩ := hu
    exact ⟨_, c', rfl, h.cacheRead slot, h2⟩
  | diff a b c => exact sameButKinds_frame h (sameButKinds_commit (h.prev.addDeltas _ _ _) h)
  | luma a b c => exact sameButKinds_frame h (sameButKinds_commit (h.prev.addDeltas _ _ _) h)
  | run n => exact sameButKinds_frame h (sameButKinds_emitTimes h.prev n h)

/-- An update that leaves PREV and the cache. -/
theorem sameButKinds_map {f : State → State} (hf : ∀ s p c, f { s with prev := p, cache := c } = { f s with prev := p, cache := c }) (hf1 : ∀ s, (f s).prev = s.prev) (hf2 : ∀ s, (f s).cache = s.cache) {s s'} (h : SameButKinds s s') : SameButKinds (f s) (f s') := by
  obtain ⟨p, c, rfl, h1, h2⟩ := h
  exact ⟨p, c, hf s p c, by rw [hf1]; exact h1, by rw [hf2]; exact h2⟩

theorem sameButKinds_complete {s s'} (h : SameButKinds s s') : BothAnswer (complete s) (complete s') := by
  have e1 : s'.opLead = s.opLead := by obtain ⟨p, c, rfl, -⟩ := h; rfl
  have e2 : s'.opTb = s.opTb := by obtain ⟨p, c, rfl, -⟩ := h; rfl
  unfold complete; rw [e1, e2]
  exact BothAnswer.bind (sameButKinds_exec _ h) fun _ _ h => BothAnswer.next (sameButKinds_map (f := State.countOp) (fun _ _ _ => rfl) (fun _ => rfl) (fun _ => rfl) h)

theorem sameButKinds_payloadByte (c : Byte) {s s'} (h : SameButKinds s s') : BothAnswer (payloadByte c s) (payloadByte c s') := by
  have k1 : SameButKinds (s.takeLead c) (s'.takeLead c) := sameButKinds_map (f := fun s => s.takeLead c) (fun _ _ _ => rfl) (fun _ => rfl) (fun _ => rfl) h
  have k2 : SameButKinds ((s.takeLead c).openOp (opNeedOf c)) ((s'.takeLead c).openOp (opNeedOf c)) := sameButKinds_map (f := fun s => (s.takeLead c).openOp (opNeedOf c)) (fun _ _ _ => rfl) (fun _ => rfl) (fun _ => rfl) h
  have k3 : SameButKinds (s.takeTrailing c) (s'.takeTrailing c) := sameButKinds_map (f := fun s => s.takeTrailing c) (fun _ _ _ => rfl) (fun _ => rfl) (fun _ => rfl) h
  have e1 : s'.opNeed = s.opNeed := by obtain ⟨p, c, rfl, -⟩ := h; rfl
  have e2 : (s'.takeTrailing c).opGot = (s.takeTrailing c).opGot := by obtain ⟨p, c, rfl, -⟩ := h; rfl
  unfold payloadByte; rw [e1, e2]
  split
  · split
    · exact sameButKinds_complete k1
    · exact BothAnswer.next k2
  · split
    · exact sameButKinds_complete k3
    · exact BothAnswer.next k3

theorem sameButKinds_release (c : Byte) {s s'} (h : SameButKinds s s') : BothAnswer (release c s) (release c s') :=
  sameButKinds_payloadByte c (sameButKinds_map (f := State.countPayload) (fun _ _ _ => rfl) (fun _ => rfl) (fun _ => rfl) h)

theorem sameButKinds_zeros : ∀ n {s s'}, SameButKinds s s' → BothAnswer (releaseZeros n s) (releaseZeros n s')
  | 0, _, _, h => BothAnswer.next h
  | n + 1, _, _, h => BothAnswer.bind (sameButKinds_release 0 h) fun _ _ h => sameButKinds_zeros n h

theorem sameButKinds_raise (e : ErrCode) (v : Byte) (o i : U64) {s s'} (h : SameButKinds s s') : SameButKinds (s.raise e v o i) (s'.raise e v o i) :=
  sameButKinds_map (f := fun s => s.raise e v o i) (fun _ _ _ => rfl) (fun _ => rfl) (fun _ => rfl) h

theorem sameButKinds_finish (m : U64) {s s'} (h : SameButKinds s s') : SameButKinds (finish m s) (finish m s') := by
  obtain ⟨p, c, rfl, h1, h2⟩ := h
  unfold finish
  simp only
  split
  · exact ⟨p, c, rfl, h1, h2⟩
  · split
    · exact ⟨p, c, rfl, h1, h2⟩
    · split
      · exact ⟨p, c, rfl, h1, h2⟩
      · exact ⟨p, c, rfl, h1, h2⟩

theorem sameButKinds_setZpend (z : BitVec 3) {s s'} (h : SameButKinds s s') : SameButKinds (s.setZpend z) (s'.setZpend z) :=
  sameButKinds_map (f := fun s => s.setZpend z) (fun _ _ _ => rfl) (fun _ => rfl) (fun _ => rfl) h

theorem sameButKinds_extract (b : Byte) {s s'} (h : SameButKinds s s') : BothAnswer (extractByte b s) (extractByte b s') := by
  have e1 : s'.zpend = s.zpend := by obtain ⟨p, c, rfl, -⟩ := h; rfl
  have e2 : markerOffset s' = markerOffset s := by obtain ⟨p, c, rfl, -⟩ := h; rfl
  unfold extractByte; rw [e1, e2]
  split
  · split
    · exact BothAnswer.next (sameButKinds_setZpend _ h)
    · exact sameButKinds_release _ h
  · split
    · exact BothAnswer.next (sameButKinds_finish _ (sameButKinds_setZpend _ h))
    · exact BothAnswer.bind (sameButKinds_zeros _ h) fun _ _ h => sameButKinds_release b (sameButKinds_setZpend 0 h)

end Sys2Proof.Machine
end

