-- ==== Sys2Proof/Laws/OpDecoder.lean ====
section
/-! SUPPORT. Payload bytes as operations: what a released byte does to the open operation. -/

namespace Sys2Proof.Machine

/-- A leading byte that needs nothing more completes its operation. -/
theorem release_single {c : Byte} {s : State} (h : s.opNeed = 0) (hc : opNeedOf c = 0) :
    release c s = complete (s.countPayload.takeLead c) := by
  rw [release, payloadByte, if_pos (show s.countPayload.opNeed = 0 from h), if_pos hc]

/-- A leading byte that needs trailing bytes opens its operation. -/
theorem release_lead {c : Byte} {s : State} (h : s.opNeed = 0) (hc : opNeedOf c ≠ 0) :
    release c s = .next ((s.countPayload.takeLead c).openOp (opNeedOf c)) := by
  rw [release, payloadByte, if_pos (show s.countPayload.opNeed = 0 from h), if_neg hc]

/-- A trailing byte that is not the last. -/
theorem release_trailing {c : Byte} {s : State} (h : s.opNeed ≠ 0) (hc : s.opGot + 1 ≠ s.opNeed) :
    release c s = .next (s.countPayload.takeTrailing c) := by
  rw [release, payloadByte, if_neg (show s.countPayload.opNeed ≠ 0 from h),
    if_neg (show (s.countPayload.takeTrailing c).opGot ≠ s.countPayload.opNeed from hc)]

/-- The last trailing byte completes the operation. -/
theorem release_last {c : Byte} {s : State} (h : s.opNeed ≠ 0) (hc : s.opGot + 1 = s.opNeed) :
    release c s = complete (s.countPayload.takeTrailing c) := by
  rw [release, payloadByte, if_neg (show s.countPayload.opNeed ≠ 0 from h),
    if_pos (show (s.countPayload.takeTrailing c).opGot = s.countPayload.opNeed from hc)]

theorem trailingBytes_get (l : List Byte) (k : Fin 4) : (trailingBytes l)[k] = l.getD k.val 0 := by
  have h : ∀ k : Fin 4, k = 0 ∨ k = 1 ∨ k = 2 ∨ k = 3 := by decide
  rcases h k with rfl | rfl | rfl | rfl <;> rfl

/-- The bytes of an operation, released one after another when none is open: the counts and the operation registers,
then completion. -/
theorem releaseAll_operation {lead : Byte} {tl : List Byte} {s : State} (h : s.opNeed = 0)
    (hl : tl.length = opNeedOf lead) : ∃ u : State,
      releaseAll (lead :: tl) s = complete u ∧ decodeOp u.opLead u.opTb = decodeOp lead (trailingBytes tl)
        ∧ u = { s with payloadLen := sat64 (s.payloadLen.toNat + (lead :: tl).length), opLead := u.opLead,
                       opLeadPos := leadOffset s.countPayload, opNeed := u.opNeed, opGot := u.opGot, opTb := u.opTb } := by
  have tail : ∀ (w : State) (c : Byte), releaseAll [c] w = release c w := fun w c => releaseAll_one c w
  have hsat : ∀ n k : Nat, sat64 ((sat64 n).toNat + k) = sat64 (n + k) := sat64_add
  rcases opNeedOf_mem lead with hn | hn | hn | hn
  · obtain rfl : tl = [] := List.eq_nil_of_length_eq_zero (hl.trans hn)
    refine ⟨s.countPayload.takeLead lead, ?_, decodeOp_noNeed hn _ _, rfl⟩
    rw [releaseAll_one, release_single h hn]
  · match tl, hl.trans hn with
    | [a], _ =>
      refine ⟨((s.countPayload.takeLead lead).openOp (opNeedOf lead)).countPayload.takeTrailing a, ?_, ?_, ?_⟩
      · rw [releaseAll, release_lead h (by omega), andThen_next, releaseAll_one, hn,
          release_last (show (1 : BitVec 3) ≠ 0 by decide) (show (0 : BitVec 3) + 1 = 1 by decide)]
      · apply decodeOp_congr
        intro k hk
        rw [trailingBytes_get]
        have hk : k.val < opNeedOf lead := hk
        obtain rfl : k = 0 := Fin.ext (by show k.val = 0; omega)
        show (s.opTb.setIfInBounds 0 a)[0] = a
        simp
      · simp only [State.takeTrailing, State.countPayload, State.openOp, State.takeLead, hsat]
        rfl
  · match tl, hl.trans hn with
    | [a, b, c], _ =>
      refine ⟨((((s.countPayload.takeLead lead).openOp (opNeedOf lead)).countPayload.takeTrailing a).countPayload.takeTrailing
        b).countPayload.takeTrailing c, ?_, ?_, ?_⟩
      · rw [releaseAll, release_lead h (by omega), andThen_next, hn, releaseAll,
          release_trailing (show (3 : BitVec 3) ≠ 0 by decide) (show (0 : BitVec 3) + 1 ≠ 3 by decide), andThen_next,
          releaseAll, release_trailing (show (3 : BitVec 3) ≠ 0 by decide) (show (0 : BitVec 3) + 1 + 1 ≠ 3 by decide),
          andThen_next, releaseAll_one,
          release_last (show (3 : BitVec 3) ≠ 0 by decide) (show (0 : BitVec 3) + 1 + 1 + 1 = 3 by decide)]
      · apply decodeOp_congr
        intro k hk
        rw [trailingBytes_get]
        have hk : k.val < opNeedOf lead := hk
        show (((s.opTb.setIfInBounds 0 a).setIfInBounds 1 b).setIfInBounds 2 c)[k] = _
        have h3 : k = 0 ∨ k = 1 ∨ k = 2 := by omega
        rcases h3 with rfl | rfl | rfl <;> simp
      · simp only [State.takeTrailing, State.countPayload, State.openOp, State.takeLead, hsat]
        rfl
  · match tl, hl.trans hn with
    | [a, b, c, d], _ =>
      refine ⟨(((((s.countPayload.takeLead lead).openOp (opNeedOf lead)).countPayload.takeTrailing a).countPayload.takeTrailing
        b).countPayload.takeTrailing c).countPayload.takeTrailing d, ?_, ?_, ?_⟩
      · rw [releaseAll, release_lead h (by omega), andThen_next, hn, releaseAll,
          release_trailing (show (4 : BitVec 3) ≠ 0 by decide) (show (0 : BitVec 3) + 1 ≠ 4 by decide), andThen_next,
          releaseAll, release_trailing (show (4 : BitVec 3) ≠ 0 by decide) (show (0 : BitVec 3) + 1 + 1 ≠ 4 by decide),
          andThen_next, releaseAll,
          release_trailing (show (4 : BitVec 3) ≠ 0 by decide) (show (0 : BitVec 3) + 1 + 1 + 1 ≠ 4 by decide),
          andThen_next, releaseAll_one,
          release_last (show (4 : BitVec 3) ≠ 0 by decide) (show (0 : BitVec 3) + 1 + 1 + 1 + 1 = 4 by decide)]
      · apply decodeOp_congr
        intro k hk
        rw [trailingBytes_get]
        show ((((s.opTb.setIfInBounds 0 a).setIfInBounds 1 b).setIfInBounds 2 c).setIfInBounds 3 d)[k] = _
        have h3 : k = 0 ∨ k = 1 ∨ k = 2 ∨ k = 3 := by omega
        rcases h3 with rfl | rfl | rfl | rfl <;> simp
      · simp only [State.takeTrailing, State.countPayload, State.openOp, State.takeLead, hsat]
        rfl

/-- Where the bytes of the open operation and one more decode, that byte completes the operation they decode to. -/
theorem open_complete {s : State} (hnl : s.opNeed.toNat ≠ 0 → s.opNeed.toNat = opNeedOf s.opLead)
    (hgl : s.opNeed.toNat ≠ 0 → s.opGot.toNat < s.opNeed.toNat) {b : Byte} {i : Instr} (h : decode (openBytes s ++ [b]) = .ok (i, [])) :
    payloadByte b s = complete (if s.opNeed = 0 then s.takeLead b else s.takeTrailing b) ∧
      decodeOp (if s.opNeed = 0 then s.takeLead b else s.takeTrailing b).opLead (if s.opNeed = 0 then s.takeLead b else s.takeTrailing b).opTb = i := by
  unfold payloadByte
  by_cases h0 : s.opNeed = 0
  · unfold openBytes at h
    rw [if_pos h0] at h
    simp only [List.nil_append, decode, List.length_nil] at h
    split at h
    · cases h
    · have hn : opNeedOf b = 0 := by omega
      rw [if_pos h0, if_pos hn, if_pos h0]
      refine ⟨rfl, ?_⟩
      simp only [Except.ok.injEq, Prod.mk.injEq] at h
      rw [← h.1]
      exact decodeOp_noNeed hn _ _
  · have hne : s.opNeed.toNat ≠ 0 := fun e => h0 (BitVec.eq_of_toNat_eq e)
    have hl := hnl hne
    have hg := hgl hne
    unfold openBytes at h
    rw [if_neg h0] at h
    have h4 := opNeedOf_le s.opLead
    have hlen : (s.opTb.toList.take s.opGot.toNat).length = s.opGot.toNat := by simp; omega
    simp only [List.cons_append, decode] at h
    split at h
    · cases h
    · rename_i hlt
      simp only [Except.ok.injEq, Prod.mk.injEq] at h
      obtain ⟨h1, h2⟩ := h
      have h3 := congrArg List.length h2
      rw [List.length_drop, List.length_append, hlen] at h3
      simp only [List.length_append, hlen, List.length_cons, List.length_nil] at hlt h3
      have hn : s.opGot.toNat + 1 = s.opNeed.toNat := by omega
      rw [if_neg h0, if_neg h0]
      have hgot : (s.takeTrailing b).opGot = s.opNeed := by
        apply BitVec.eq_of_toNat_eq
        show (s.opGot + 1).toNat = _
        have := s.opNeed.isLt
        rw [BitVec.toNat_add]; simp; omega
      rw [if_pos hgot]
      refine ⟨rfl, ?_⟩
      rw [← h1]
      apply decodeOp_congr
      intro k hk
      show (s.opTb.setIfInBounds s.opGot.toNat b)[k] = (trailingBytes (s.opTb.toList.take s.opGot.toNat ++ [b]))[k]
      have hk4 := k.isLt
      rw [trailingBytes_get]
      by_cases hkg : k.val = s.opGot.toNat
      · have : (s.opTb.toList.take s.opGot.toNat ++ [b]).getD k.val 0 = b := by
          rw [hkg, List.getD_append_right _ _ _ _ (by omega), hlen]; simp
        rw [this]
        simp [hkg]
      · have hkl : k.val < s.opGot.toNat := by
          have : k.val < opNeedOf s.opLead := hk
          omega
        rw [List.getD_append _ _ _ _ (by omega)]
        have e1 : (s.opTb.setIfInBounds s.opGot.toNat b)[k] = s.opTb[k] := by
          simp only [Fin.getElem_fin]
          rw [Vector.getElem_setIfInBounds_ne]
          omega
        rw [e1]
        simp [List.getD_eq_getElem?_getD, hkl]

/-- A step on a byte that the extractor releases at once: a byte other than 0x00 while none is pending, or a 0x00 while
seven are. -/
theorem step_releases {s : State} {p : InPins} {rest : List InPins} {b : Byte} (hp : s.phase = .payload)
    (hr : s.nextEdge.rst = false) (hnb : s.nextEdge.busy = false) (hsrc : s.source = p :: rest)
    (htok : p.token = some (.byte b)) (hz : s.zpend = 0 ∧ b ≠ 0 ∨ s.zpend = 7 ∧ b = 0) :
    step s = release b (s.atToken rest).countInput := by
  have hb : s.phase.busy = true := by rw [hp]; rfl
  rw [step_token hr hb hnb hsrc htok, decoderStep_payload (by rw [atToken_busy rest hb]; exact hp)]
  show extractByte b (s.atToken rest).countInput = _
  have hzz : (s.atToken rest).countInput.zpend = s.zpend := by rw [atToken_busy rest hb]; rfl
  unfold extractByte
  rcases hz with ⟨h0, hb0⟩ | ⟨h7, hb0⟩
  · rw [if_neg hb0, if_neg (by rw [hzz, h0]; simp), hzz, h0]
    show andThen (Host.Outcome.next _) _ = _
    rw [andThen_next]
    congr 1
    have h00 : (s.atToken rest).countInput.zpend = 0 := hzz.trans h0
    rw [← h00]
    rfl
  · rw [if_pos hb0, if_neg (by rw [hzz, h7]; decide), hb0]

end Sys2Proof.Machine
end

