-- ==== Sys2Proof/Laws/PerInstr.lean ====
section
/-! SUPPORT. What is said of every instruction as syntax, one lemma per constructor (LAWS.json). -/

namespace Sys2Proof.Laws.EncodedLength

/-- A well-formed operation is encoded as a leading byte and exactly the trailing bytes that byte announces
(30_encoding.md R93; 42_op_decoder.md R161). -/
def Statement (i : Instr) : Prop :=
  i.wf = true → ∃ lead tl, encode i = lead :: tl ∧ tl.length = opNeedOf lead

theorem rgb (r g b : Byte) : Statement (.rgb r g b) :=
  fun _ => ⟨0xFE, [r, g, b], rfl, rfl⟩

theorem rgba (r g b a : Byte) : Statement (.rgba r g b a) :=
  fun _ => ⟨0xFF, [r, g, b, a], rfl, rfl⟩

theorem index (slot : Fin 64) : Statement (.index slot) :=
  fun _ => ⟨_, [], rfl, by rw [opNeedOf, (indexLead_fields (BitVec.ofFin (w := 6) slot)).1]; rfl⟩

theorem diff (dr dg db : Int) : Statement (.diff dr dg db) :=
  fun _ => ⟨_, [], rfl, by
    rw [opNeedOf, (diffLead_fields (rawField 2 db (-2)) (rawField 2 dg (-2)) (rawField 2 dr (-2))).1]; rfl⟩

theorem luma (dg drDg dbDg : Int) : Statement (.luma dg drDg dbDg) :=
  fun _ => ⟨_, [_], rfl, by rw [opNeedOf, (lumaLead_fields (rawField 6 dg (-32))).1]; rfl⟩

theorem run (length : Nat) : Statement (.run length) := by
  intro h
  simp [Instr.wf] at h
  have hn : (BitVec.ofNat 6 (length - 1)).toNat ≤ 61 := by simp; omega
  exact ⟨_, [], rfl, by rw [opNeedOf, (runLead_fields _ hn).1]; rfl⟩

end Sys2Proof.Laws.EncodedLength
end

