-- ==== Sys2Proof/Laws/Staged.lean ====
section
/-! SUPPORT. The staged reference decoder one byte at a time: how one more payload byte changes the operations split off
and the pixels reconstructed, and that a released byte changes the machine the same way. -/

namespace Sys2Proof.Machine

/-! ## Splitting -/

theorem decode_concat {bs rest : List Byte} {i : Instr} (c : Byte) (h : decode bs = .ok (i, rest)) :
    decode (bs ++ [c]) = .ok (i, rest ++ [c]) := by
  cases bs with
  | nil => cases h
  | cons lead tl =>
    have h4 := opNeedOf_le lead
    simp only [List.cons_append, decode] at h ⊢
    split at h
    · cases h
    · rename_i hn
      rw [if_neg (by rw [List.length_append]; omega)]
      simp only [Except.ok.injEq, Prod.mk.injEq] at h ⊢
      obtain ⟨h1, h2⟩ := h
      refine ⟨?_, by rw [← h2, List.drop_append_of_le_length (by omega)]⟩
      rw [← h1]
      apply decodeOp_congr
      intro k hk
      rw [trailingBytes_get, trailingBytes_get, List.getD_append _ _ _ _ (by omega)]

/-- Bytes that do not decode, and one more, decode to an operation and nothing after it, if at all. -/
theorem decode_completes {bs rest : List Byte} {i : Instr} {e : DecodeError} {c : Byte} (h : decode bs = .error e)
    (hc : decode (bs ++ [c]) = .ok (i, rest)) : rest = [] := by
  cases bs with
  | nil =>
    simp only [List.nil_append, decode] at hc
    split at hc
    · cases hc
    · simp only [Except.ok.injEq, Prod.mk.injEq] at hc
      rw [← hc.2]
      simp
  | cons lead tl =>
    simp only [List.cons_append, decode] at h hc
    split at h
    · rename_i hn
      split at hc
      · cases hc
      · simp only [Except.ok.injEq, Prod.mk.injEq] at hc
        rw [← hc.2]
        apply List.drop_eq_nil_of_le
        rw [List.length_append]
        simpa using hn
    · cases h

theorem decode_rest_length {bs rest : List Byte} {i : Instr} (h : decode bs = .ok (i, rest)) :
    rest.length < bs.length := by
  cases bs with
  | nil => cases h
  | cons lead tl =>
    simp only [decode] at h
    split at h
    · cases h
    · simp only [Except.ok.injEq, Prod.mk.injEq] at h
      rw [← h.2, List.length_drop, List.length_cons]
      omega

/-- One more byte: it completes an operation or joins the cut one. -/
theorem splitOps_concat (c : Byte) : ∀ (n : Nat) (bs : List Byte), bs.length ≤ n →
    splitOps (n + 1) (bs ++ [c]) =
      match decode ((splitOps n bs).2 ++ [c]) with
      | .ok (i, _) => ((splitOps n bs).1 ++ [i], [])
      | .error _ => ((splitOps n bs).1, (splitOps n bs).2 ++ [c])
  | 0, bs, h => by
    obtain rfl : bs = [] := List.eq_nil_of_length_eq_zero (by omega)
    simp only [splitOps, List.nil_append]
    cases hd : decode [c] with
    | ok r =>
      obtain ⟨i, rest⟩ := r
      have : rest = [] := decode_completes (bs := []) (e := .noLeadingByte) rfl hd
      simp [this]
    | error e => rfl
  | n + 1, bs, h => by
    rw [splitOps]
    cases hd : decode bs with
    | ok r =>
      obtain ⟨i, rest⟩ := r
      have hl := decode_rest_length hd
      rw [decode_concat c hd]
      have e : splitOps (n + 1) bs = (i :: (splitOps n rest).1, (splitOps n rest).2) := by rw [splitOps, hd]
      simp only [e, splitOps_concat c n rest (by omega)]
      cases decode ((splitOps n rest).2 ++ [c]) <;> rfl
    | error er =>
      have e : splitOps (n + 1) bs = ([], bs) := by rw [splitOps, hd]
      rw [e]
      simp only [List.nil_append]
      cases hd2 : decode (bs ++ [c]) with
      | ok r =>
        obtain ⟨i, rest⟩ := r
        obtain rfl : rest = [] := decode_completes hd hd2
        cases n <;> rfl
      | error e => rfl

/-- The bytes left over are an operation that is not complete. -/
theorem splitOps_cut : ∀ (n : Nat) (bs : List Byte), bs.length ≤ n → ∃ e, decode (splitOps n bs).2 = .error e
  | 0, bs, h => by
    obtain rfl : bs = [] := List.eq_nil_of_length_eq_zero (by omega)
    exact ⟨_, rfl⟩
  | n + 1, bs, h => by
    cases hd : decode bs with
    | ok r =>
      obtain ⟨i, rest⟩ := r
      have hl := decode_rest_length hd
      have e : splitOps (n + 1) bs = (i :: (splitOps n rest).1, (splitOps n rest).2) := by rw [splitOps, hd]
      rw [e]
      exact splitOps_cut n rest (by omega)
    | error er =>
      have e : splitOps (n + 1) bs = ([], bs) := by rw [splitOps, hd]
      rw [e]
      exact ⟨er, hd⟩

theorem splitOps_cut_le : ∀ (n : Nat) (bs : List Byte), (splitOps n bs).1.length + (splitOps n bs).2.length ≤ bs.length
  | 0, bs => by simp [splitOps]
  | n + 1, bs => by
    cases hd : decode bs with
    | ok r =>
      obtain ⟨i, rest⟩ := r
      have hl := decode_rest_length hd
      have e : splitOps (n + 1) bs = (i :: (splitOps n rest).1, (splitOps n rest).2) := by rw [splitOps, hd]
      have ih := splitOps_cut_le n rest
      rw [e, List.length_cons]
      simp only
      omega
    | error er =>
      have e : splitOps (n + 1) bs = ([], bs) := by rw [splitOps, hd]
      rw [e]
      simp

/-! ## Reconstructing -/

/-- The machine's pixel state is the reconstructor's: PREV, the cache, how many pixels, and the bytes of those inside the
image. -/
structure Shows (u : State) (st : Recon) : Prop where
  prev : st.prev = if u.prevValid then some u.prev else none
  cache : u.cache = st.cache
  pixCount : u.pixCount = sat64 st.out.length
  bytes : ∀ k, k < st.out.length → k < u.expected.toNat → ∀ j, j < u.channels.toNat →
    u.fb.read (k * u.channels.toNat + j) = (serialize u.channels (st.out.getD k sentinel)).getD j 0

/-- The machine's pixel state is that after the operations `ops`: MP where the reconstructor fails, what it shows
otherwise. -/
def Reconstructs (u : State) (ops : List Instr) : Prop :=
  match ops.foldlM Recon.exec Recon.initial with
  | none => u.mp = true
  | some st => u.mp = false ∧ Shows u st

theorem shows_emitted {u : State} {st : Recon} (p : Pixel) (h : Shows u st) (hc : CanEmit u)
    (he : u.expected.toNat < 2 ^ 64 - 1) :
    (u.emitted p).pixCount = sat64 (st.out ++ [p]).length ∧
      ∀ k, k < (st.out ++ [p]).length → k < u.expected.toNat → ∀ j, j < u.channels.toNat →
        (u.emitted p).fb.read (k * u.channels.toNat + j)
          = (serialize u.channels ((st.out ++ [p]).getD k sentinel)).getD j 0 := by
  refine ⟨?_, fun k hk hke j hj => ?_⟩
  · rw [emitted_pixCount, h.pixCount, sat64_add, List.length_append]
    rfl
  · have hpc : u.pixCount.toNat = min st.out.length (2 ^ 64 - 1) := by rw [h.pixCount, sat64_toNat]
    rw [emitted_read p hc]
    by_cases hlast : k = st.out.length
    · have hk' : u.pixCount.toNat = k := by omega
      have hg : (st.out ++ [p]).getD k sentinel = p := by
        rw [hlast, List.getD_append_right _ _ _ _ (le_refl _), Nat.sub_self]
        rfl
      rw [hk', if_pos ⟨hke, by omega, by rw [Nat.add_mul, Nat.one_mul]; omega⟩, hg]
      congr 1
      omega
    · rw [List.length_append, List.length_singleton] at hk
      have hg : (st.out ++ [p]).getD k sentinel = st.out.getD k sentinel :=
        List.getD_append _ _ _ _ (by omega)
      rw [hg, if_neg, h.bytes k (by omega) hke j hj]
      rintro ⟨h1, h2, -⟩
      have hlt : k + 1 ≤ u.pixCount.toNat := by omega
      have := Nat.mul_le_mul_right u.channels.toNat hlt
      rw [Nat.add_mul, Nat.one_mul] at this
      omega

theorem shows_commit {u : State} {st : Recon} (p : Pixel) (h : Shows u st) (hc : CanEmit u)
    (he : u.expected.toNat < 2 ^ 64 - 1) :
    Shows (((u.emitted p).cacheWrite (hash p) p).setPrev p) (st.commit p) where
  prev := rfl
  cache := by
    show u.cache.set (hash p) p = st.cache.set (hash p) p
    rw [h.cache]
  pixCount := (shows_emitted p h hc he).1
  bytes := (shows_emitted p h hc he).2

theorem shows_emittedAll {u : State} {st : Recon} (hc : CanEmit u) (he : u.expected.toNat < 2 ^ 64 - 1)
    (h : Shows u st) : ∀ (out : List Pixel), Shows (u.emittedAll out) { st with out := st.out ++ out } := by
  intro out
  induction out generalizing u st with
  | nil => rw [List.append_nil]; exact h
  | cons p out ih =>
    have h1 : Shows (u.emitted p) { st with out := st.out ++ [p] } :=
      ⟨h.prev, h.cache, (shows_emitted p h hc he).1, (shows_emitted p h hc he).2⟩
    have h2 := ih (emitted_canEmit p hc) he h1
    simp only [List.append_assoc, List.singleton_append] at h2
    exact h2

/-- One more operation changes the machine as it changes the reconstructor. -/
theorem reconstructs_executed {u : State} {ops : List Instr} (i : Instr) (h : Reconstructs u ops) (hc : CanEmit u)
    (he : u.expected.toNat < 2 ^ 64 - 1) : Reconstructs (u.executed i) (ops ++ [i]) := by
  unfold Reconstructs at h ⊢
  rw [List.foldlM_append]
  cases hf : ops.foldlM Recon.exec Recon.initial with
  | none =>
    rw [hf] at h
    have h : u.mp = true := h
    show (u.executed i).mp = true
    rw [executed_of_mp i h]
    exact h
  | some st =>
    rw [hf] at h
    obtain ⟨hm, hs⟩ := h
    show match (Recon.exec st i >>= pure) with
      | none => (u.executed i).mp = true
      | some st => (u.executed i).mp = false ∧ Shows (u.executed i) st
    have hv := hs.prev
    by_cases hr : readsPrev i = true ∧ u.prevValid = false
    · rw [executed_latch hm hr.1 hr.2]
      rw [hr.2] at hv
      have hv : st.prev = none := hv
      cases i with
      | rgb r g b => cases hr.1
      | rgba r g b a => cases hr.1
      | index slot => cases hr.1
      | diff a b c => simp only [Recon.exec, hv]; rfl
      | luma a b c => simp only [Recon.exec, hv]; rfl
      | run n => simp only [Recon.exec, hv]; rfl
    · have hr' : readsPrev i = true → u.prevValid = true := by
        intro h
        by_contra hn
        exact hr ⟨h, by simpa using hn⟩
      rw [executed_ruled hm hr']
      cases i with
      | rgb r g b => exact ⟨hm, shows_commit _ hs hc he⟩
      | rgba r g b a => exact ⟨hm, shows_commit _ hs hc he⟩
      | index slot =>
        have hslot : st.cache[slot] = u.cacheRead slot := by unfold State.cacheRead; rw [hs.cache]
        refine ⟨hm, ?_, hs.cache, ?_, ?_⟩
        · show some st.cache[slot] = some (u.cacheRead slot)
          rw [hslot]
        · show _ = sat64 (st.out ++ [st.cache[slot]]).length
          rw [hslot]
          exact (shows_emitted _ hs hc he).1
        · show ∀ k, k < (st.out ++ [st.cache[slot]]).length → _ → ∀ j, _ → _ = (serialize _ ((st.out ++ [st.cache[slot]]).getD k _)).getD j 0
          rw [hslot]
          exact (shows_emitted _ hs hc he).2
      | diff a b c =>
        rw [hr' rfl] at hv
        have hv : st.prev = some u.prev := hv
        simp only [Recon.exec, hv]
        exact ⟨hm, shows_commit _ hs hc he⟩
      | luma a b c =>
        rw [hr' rfl] at hv
        have hv : st.prev = some u.prev := hv
        simp only [Recon.exec, hv]
        exact ⟨hm, shows_commit _ hs hc he⟩
      | run n =>
        rw [hr' rfl] at hv
        have hv : st.prev = some u.prev := hv
        simp only [Recon.exec, hv]
        rw [ruled_run]
        have h1 := shows_emittedAll hc he hs (List.replicate n u.prev)
        rw [hv] at h1
        refine ⟨?_, h1⟩
        rw [emittedAll_only]
        exact hm

/-! ## Releasing -/

/-- The machine has released exactly the payload bytes `p`: the counts, the open operation and the pixels are those of the
operations split off `p`. -/
structure Released (p : List Byte) (u : State) : Prop where
  payloadLen : u.payloadLen = sat64 p.length
  opCount : u.opCount = sat64 (splitOps p.length p).1.length
  cut : openBytes u = (splitOps p.length p).2
  opNeed : u.opNeed.toNat ≠ 0 → u.opNeed.toNat = opNeedOf u.opLead
  opGot : u.opNeed.toNat ≠ 0 → u.opGot.toNat < u.opNeed.toNat
  leadPos : u.opNeed ≠ 0 → p.length < 2 ^ 63 →
    u.opLeadPos.toNat = 14 + (p.length - (splitOps p.length p).2.length)
  pixels : Reconstructs u (splitOps p.length p).1

theorem reconstructs_of_same {u v : State} {ops : List Instr} (h : Reconstructs u ops) (hs : SamePixelState u v)
    (he : u.expected = v.expected) (hc : u.channels = v.channels) : Reconstructs v ops := by
  obtain ⟨h1, h2, h3, h4, h5, h6⟩ := hs
  unfold Reconstructs at *
  cases hf : ops.foldlM Recon.exec Recon.initial with
  | none => rw [hf] at h; exact h6 ▸ h
  | some st =>
    rw [hf] at h
    exact ⟨h6 ▸ h.1, ⟨by rw [← h5, ← h4]; exact h.2.prev, h3 ▸ h.2.cache, h1 ▸ h.2.pixCount,
      by rw [← he, ← hc, ← h2]; exact h.2.bytes⟩⟩

theorem openBytes_openOp (s : State) {c : Byte} (h : opNeedOf c ≠ 0) :
    openBytes ((s.takeLead c).openOp (opNeedOf c)) = [c] ∧ ((s.takeLead c).openOp (opNeedOf c)).opNeed.toNat = opNeedOf c := by
  have hn : (BitVec.ofNat 3 (opNeedOf c)).toNat = opNeedOf c := by
    rcases opNeedOf_mem c with h | h | h | h <;> rw [h] <;> rfl
  have hne : (BitVec.ofNat 3 (opNeedOf c)) ≠ 0 := fun e => h (by rw [← hn, e]; rfl)
  refine ⟨?_, hn⟩
  unfold openBytes
  rw [if_neg (show ((s.takeLead c).openOp (opNeedOf c)).opNeed ≠ 0 from hne)]
  rfl

theorem openBytes_takeTrailing {s : State} (c : Byte) (h : s.opNeed ≠ 0) (hg : s.opGot.toNat < 4) :
    openBytes (s.takeTrailing c) = openBytes s ++ [c] := by
  have hgot : (s.takeTrailing c).opGot.toNat = s.opGot.toNat + 1 := by
    show (s.opGot + 1).toNat = _
    rw [BitVec.toNat_add]
    simp
    omega
  unfold openBytes
  rw [if_neg h, if_neg (show (s.takeTrailing c).opNeed ≠ 0 from h), hgot]
  show s.opLead :: (s.opTb.setIfInBounds s.opGot.toNat c).toList.take (s.opGot.toNat + 1) = _
  rw [List.cons_append, Vector.toList_setIfInBounds]
  congr 1
  rw [List.take_add_one, List.take_set_of_le (le_refl _)]
  simp [hg]

/-- One more released byte. -/
theorem released_concat {p : List Byte} {u : State} (c : Byte) (h : Released p u) (hc : CanEmit u)
    (he : u.expected.toNat < 2 ^ 64 - 1) : Released (p ++ [c]) (u.released c) := by
  have hsplit := splitOps_concat c p.length p (le_refl _)
  have hlen : (p ++ [c]).length = p.length + 1 := by simp
  obtain ⟨er, hcut⟩ := splitOps_cut p.length p (le_refl _)
  have hpl : (u.released c).payloadLen = sat64 (p ++ [c]).length := by
    rw [released_payloadLen, h.payloadLen, sat64_add, hlen]
  rw [← h.cut] at hcut
  have hvopen : openBytes u.countPayload = openBytes u := rfl
  cases hd : decode ((splitOps p.length p).2 ++ [c]) with
  | ok r =>
    obtain ⟨i, rest⟩ := r
    rw [hd] at hsplit
    simp only at hsplit
    rw [← h.cut] at hd
    obtain rfl : rest = [] := decode_completes hcut hd
    obtain ⟨h1, h2⟩ := open_complete (s := u.countPayload) h.opNeed h.opGot hd
    have hce : CanEmit u.countPayload := ⟨hc.channels, hc.capacity, hc.canonical⟩
    generalize hw : (if u.countPayload.opNeed = 0 then u.countPayload.takeLead c else u.countPayload.takeTrailing c) = w
      at h1 h2
    have hwp : SamePixelState u w ∧ u.expected = w.expected ∧ u.channels = w.channels ∧ CanEmit w
        ∧ w.opCount = u.opCount := by
      rw [← hw]
      split <;> exact ⟨⟨rfl, rfl, rfl, rfl, rfl, rfl⟩, rfl, rfl, ⟨hc.channels, hc.capacity, hc.canonical⟩, rfl⟩
    obtain ⟨w1, w2, w3, w4, w5⟩ := hwp
    have hr : u.released c = w.completed := by
      have h3 := payloadByte_next c hce.capacity
      rw [h1, complete_next w4.capacity] at h3
      exact (Host.Outcome.next.inj h3).symm
    have hcomp : w.completed = (w.executed i).countOp := by unfold State.completed; rw [h2]
    have hx := reconstructs_executed i (reconstructs_of_same h.pixels w1 w2 w3) w4 (w2 ▸ he)
    refine ⟨hpl, ?_, ?_, ?_, ?_, ?_, ?_⟩
    · rw [hlen, hsplit, hr, hcomp, countOp_opCount, executed_opCount, w5, h.opCount, sat64_add, List.length_append]
      rfl
    · rw [hlen, hsplit, hr, hcomp]
      rfl
    · rw [hr, hcomp]
      exact fun h => absurd rfl h
    · rw [hr, hcomp]
      exact fun h => absurd rfl h
    · rw [hr, hcomp]
      exact fun h => absurd rfl h
    · rw [hlen, hsplit, hr, hcomp]
      exact reconstructs_of_same hx ⟨rfl, rfl, rfl, rfl, rfl, rfl⟩ rfl rfl
  | error e =>
    rw [hd] at hsplit
    simp only at hsplit
    rw [← h.cut] at hd
    by_cases h0 : u.opNeed = 0
    · have hob : openBytes u = [] := by unfold openBytes; rw [if_pos h0]
      have hn : opNeedOf c ≠ 0 := by
        intro hn
        rw [hob, List.nil_append, decode, if_neg (by rw [hn]; simp)] at hd
        cases hd
      have hr : u.released c = (u.countPayload.takeLead c).openOp (opNeedOf c) := by
        show u.countPayload.taken c = _
        unfold State.taken
        rw [if_pos (show u.countPayload.opNeed = 0 from h0), if_neg hn]
      obtain ⟨o1, o2⟩ := openBytes_openOp u.countPayload hn
      refine ⟨hpl, ?_, ?_, ?_, ?_, ?_, ?_⟩
      · rw [hlen, hsplit, hr]
        exact h.opCount
      · rw [hlen, hsplit, hr, o1, ← h.cut, hob]
        rfl
      · rw [hr]
        exact fun _ => o2
      · rw [hr, o2]
        exact fun _ => Nat.pos_of_ne_zero hn
      · rw [hlen, hsplit, hr]
        intro _ hlt
        have hp : u.countPayload.payloadLen.toNat = p.length + 1 := by
          rw [countPayload_payloadLen, h.payloadLen, sat64_add, sat64_toNat]
          omega
        show (leadOffset u.countPayload).toNat = _
        unfold leadOffset
        rw [hp, if_pos (by omega), ← h.cut, hob, BitVec.toNat_ofNat]
        simp only [List.nil_append, List.length_singleton]
        omega
      · rw [hlen, hsplit, hr]
        exact reconstructs_of_same h.pixels ⟨rfl, rfl, rfl, rfl, rfl, rfl⟩ rfl rfl
    · have hne : u.opNeed.toNat ≠ 0 := fun e => h0 (BitVec.eq_of_toNat_eq e)
      have hl := h.opNeed hne
      have hg := h.opGot hne
      have h4 := opNeedOf_le u.opLead
      have hob : openBytes u = u.opLead :: u.opTb.toList.take u.opGot.toNat := by unfold openBytes; rw [if_neg h0]
      have hlt : u.opGot.toNat + 1 < u.opNeed.toNat := by
        by_contra hn
        rw [hob, List.cons_append, decode, if_neg] at hd
        · cases hd
        · simp
          omega
      have hgn : ¬ (u.countPayload.takeTrailing c).opGot = u.countPayload.opNeed := by
        intro e
        have e : u.opGot + 1 = u.opNeed := e
        have := congrArg BitVec.toNat e
        rw [BitVec.toNat_add] at this
        simp at this
        omega
      have hr : u.released c = u.countPayload.takeTrailing c := by
        show u.countPayload.taken c = _
        unfold State.taken
        rw [if_neg (show ¬ u.countPayload.opNeed = 0 from h0), if_neg hgn]
      have hob2 := openBytes_takeTrailing (s := u.countPayload) c h0 (by show u.opGot.toNat < 4; omega)
      refine ⟨hpl, ?_, ?_, ?_, ?_, ?_, ?_⟩
      · rw [hlen, hsplit, hr]
        exact h.opCount
      · rw [hlen, hsplit, hr, hob2, hvopen, h.cut]
      · rw [hr]
        exact fun _ => hl
      · rw [hr]
        intro _
        show (u.opGot + 1).toNat < u.opNeed.toNat
        rw [BitVec.toNat_add]
        simp
        omega
      · rw [hlen, hsplit, hr]
        intro _ hlt
        have := h.leadPos h0 (by omega)
        have hcl := splitOps_cut_le p.length p
        show u.opLeadPos.toNat = _
        rw [this, List.length_append, List.length_singleton]
        omega
      · rw [hlen, hsplit, hr]
        exact reconstructs_of_same h.pixels ⟨rfl, rfl, rfl, rfl, rfl, rfl⟩ rfl rfl

theorem releasedAll_concat : ∀ (bs : List Byte) {p : List Byte} {u : State}, Released p u → CanEmit u →
    u.expected.toNat < 2 ^ 64 - 1 → Released (p ++ bs) (u.releasedAll bs)
  | [], p, u, h, _, _ => by rw [List.append_nil]; exact h
  | c :: bs, p, u, h, hc, he => by
    have h1 := releasedAll_concat bs (released_concat c h hc he) (released_canEmit c hc) (by rw [released_expected]; exact he)
    rw [List.append_assoc, List.singleton_append] at h1
    exact h1

/-- Released says nothing about the fields a released byte does not touch. -/
theorem released_of_frame {p : List Byte} {u v : State} (h : Released p u) (hs : SamePixelState u v)
    (he : u.expected = v.expected) (hc : u.channels = v.channels) (h1 : v.payloadLen = u.payloadLen)
    (h2 : v.opCount = u.opCount) (h3 : v.opLead = u.opLead) (h4 : v.opNeed = u.opNeed) (h5 : v.opGot = u.opGot)
    (h6 : v.opTb = u.opTb) (h7 : v.opLeadPos = u.opLeadPos) : Released p v where
  payloadLen := h1.trans h.payloadLen
  opCount := h2.trans h.opCount
  cut := by
    have e : openBytes v = openBytes u := by unfold openBytes; rw [h3, h4, h5, h6]
    rw [e]
    exact h.cut
  opNeed := by rw [h4, h3]; exact h.opNeed
  opGot := by rw [h4, h5]; exact h.opGot
  leadPos := by rw [h4, h7]; exact h.leadPos
  pixels := reconstructs_of_same h.pixels hs he hc

end Sys2Proof.Machine
end

