-- ==== Sys2Proof/Laws/Run.lean ====
section
/-! SUPPORT. Running the machine on an input: one edge per token, and the payload in step with the staged reference decoder. -/

namespace Sys2Proof.Machine

/-! ## Clock edges on which only the source acts -/

/-- The source presents `bs` and then EOF. -/
def feed (bs : List Byte) : List InPins := bs.map InPins.ofByte ++ [InPins.ofEof]

/-- The source's next byte is the next decoder step. -/
theorem step_feed {u : State} {b : Byte} {bs : List Byte} (he : u.edges = []) (hs : u.source = feed (b :: bs)) (hb : u.phase.busy = true) :
    step u = decoderStep (.byte b) { u with source := feed bs, epoch := u.epoch + 1 } := by
  have hne : u.nextEdge = Edge.idle := by unfold State.nextEdge; rw [he]; rfl
  have hpop : u.popEdge = u := by unfold State.popEdge; rw [he]; show { u with edges := [] } = u; rw [← he]
  have hsrc : u.source = InPins.ofByte b :: feed bs := hs
  rw [step_token (by rw [hne]; rfl) hb (by rw [hne]; rfl) hsrc (show (InPins.ofByte b).token = some (.byte b) from rfl), atToken_busy _ hb, hne, hpop]
  have h1 : irqEnAfter Edge.idle u = u.irqEn := rfl
  have h2 : (hostReads Edge.idle u).regRdata = u.regRdata := rfl
  have h3 : (hostReads Edge.idle u).fbRdata = u.fbRdata := rfl
  have h4 : u.edges.tail = u.edges := by rw [he]; rfl
  rw [h1, h2, h3, h4]

/-- EOF is the next decoder step. -/
theorem step_eof {u : State} (he : u.edges = []) (hs : u.source = feed []) (hb : u.phase.busy = true) :
    step u = decoderStep .eof { u with source := [], epoch := u.epoch + 1 } := by
  have hne : u.nextEdge = Edge.idle := by unfold State.nextEdge; rw [he]; rfl
  have hpop : u.popEdge = u := by unfold State.popEdge; rw [he]; show { u with edges := [] } = u; rw [← he]
  have hsrc : u.source = InPins.ofEof :: [] := hs
  rw [step_token (by rw [hne]; rfl) hb (by rw [hne]; rfl) hsrc (show (InPins.ofEof).token = some .eof from rfl), atToken_busy _ hb, hne, hpop]
  have h1 : irqEnAfter Edge.idle u = u.irqEn := rfl
  have h2 : (hostReads Edge.idle u).regRdata = u.regRdata := rfl
  have h3 : (hostReads Edge.idle u).fbRdata = u.fbRdata := rfl
  have h4 : u.edges.tail = u.edges := by rw [he]; rfl
  rw [h1, h2, h3, h4]

theorem clockEdges_add (m n : Nat) (u : State) : clockEdges (m + n) u = andThen (clockEdges m u) (clockEdges n) := by
  induction m generalizing u with
  | zero => rw [Nat.zero_add]; rfl
  | succ m ih =>
    rw [Nat.succ_add, clockEdges, clockEdges, andThen_assoc]
    exact congrArg _ (funext fun v => ih v)

theorem clockEdges_one (u : State) : clockEdges 1 u = step u := by
  show andThen (step u) (fun s => .next s) = _
  cases step u <;> rfl

/-! ## Big-endian fields of a header read so far -/

/-- One more header byte in a field of four bytes at offset `a`. -/
theorem field_concat (x : List Byte) (k a : Nat) (b : Byte) (hk : x.take (k+1) = x.take k ++ [b]) (hl : (x.take k).length = k) :
   (((x.take (k+1)).drop a).take 4).foldl shiftInByte 0 =
     if a ≤ k ∧ k < a + 4 then shiftInByte ((((x.take k).drop a).take 4).foldl shiftInByte 0) b else (((x.take k).drop a).take 4).foldl shiftInByte 0 := by
  rw [hk]
  by_cases h1 : a ≤ k
  · rw [List.drop_append_of_le_length (by omega)]
    by_cases h2 : k < a + 4
    · rw [if_pos ⟨h1, h2⟩, List.take_append, List.foldl_append]
      have e : ((x.take k).drop a).length = k - a := by rw [List.length_drop, hl]
      rw [e]
      have : 4 - (k - a) = (3 - (k-a)) + 1 := by omega
      rw [this]; simp
    · rw [if_neg (by omega), List.take_append_of_le_length (by rw [List.length_drop, hl]; omega)]
  · rw [if_neg (by omega)]
    have e1 : (x.take k ++ [b]).drop a = [] := List.drop_eq_nil_of_le (by rw [List.length_append, hl]; simp; omega)
    have e2 : (x.take k).drop a = [] := List.drop_eq_nil_of_le (by rw [hl]; omega)
    rw [e1, e2]

theorem shiftIn_four (a b c d : Byte) : [a,b,c,d].foldl shiftInByte 0 = BitVec.ofNat 32 (a.toNat * 2 ^ 24 + b.toNat * 2 ^ 16 + c.toNat * 2 ^ 8 + d.toNat) := by
  apply BitVec.eq_of_toNat_eq
  simp only [List.foldl, shiftInByte, BitVec.toNat_ofNat]
  have ha := a.isLt; have hb := b.isLt; have hc := c.isLt; have hd := d.isLt
  omega

/-! ## The payload of a header that has been accepted -/

/-- The decode of `x` started from `s` is in its payload: it has consumed the payload stream's bytes `y`, `z` and EOF are to come,
and no end marker has ended. -/
structure InPayloadOf (s : State) (x y z : List Byte) (u : State) : Prop where
  edges : u.edges = []
  source : u.source = feed z
  phase : u.phase = .payload
  width : u.width = wordAt x 4
  height : u.height = wordAt x 8
  channels : u.channels = x.getD 12 0
  colorspace : u.colorspace = x.getD 13 0
  chan : u.channels = 3 ∨ u.channels = 4
  expected : u.expected.toNat = (wordAt x 4).toNat * (wordAt x 8).toNat
  fbBytes : u.fbBytes = s.fbBytes
  capacity : u.expected.toNat * u.channels.toNat ≤ u.fbBytes
  canonical : u.fb.wf = true
  errCode : u.errCode = .none
  inOffset : u.inOffset = sat64 (14 + y.length)
  zpend : u.zpend = BitVec.ofNat 3 (extractFold y).2
  rel : Released (extractFold y).1 u

theorem InPayloadOf.small {s x y z u} (h : InPayloadOf s x y z u) : u.expected.toNat < 2^64 - 1 := by
  rw [h.expected]
  have h1 := (wordAt x 4).isLt
  have h2 := (wordAt x 8).isLt
  have : (wordAt x 4).toNat * (wordAt x 8).toNat ≤ (2^32-1) * (2^32-1) := Nat.mul_le_mul (by omega) (by omega)
  omega

theorem InPayloadOf.can {s x y z u} (h : InPayloadOf s x y z u) : CanEmit u := ⟨h.chan, h.capacity, h.canonical⟩

/-- One more byte that does not complete an end marker. -/
theorem InPayloadOf.stepped {s x y z u} (b : Byte) (h : InPayloadOf s x y (b :: z) u) (hm : ¬ (endMarker <:+ y ++ [b])) :
    ∃ t, step u = .next t ∧ InPayloadOf s x (y ++ [b]) z t := by
  have hbusy : u.phase.busy = true := by rw [h.phase]; rfl
  rw [step_feed h.edges h.source hbusy]
  generalize hv : ({ u with source := feed z, epoch := u.epoch + 1 } : State) = v
  have hcan : CanEmit v := by rw [← hv]; exact ⟨h.chan, h.capacity, h.canonical⟩
  have hsm : v.expected.toNat < 2^64-1 := by rw [← hv]; exact h.small
  have hrel : Released (extractFold y).1 v := by
    rw [← hv]; exact released_of_frame h.rel ⟨rfl, rfl, rfl, rfl, rfl, rfl⟩ rfl rfl rfl rfl rfl rfl rfl rfl rfl
  have hio : sat64 (v.inOffset.toNat + 1) = sat64 (14 + (y ++ [b]).length) := by
    rw [← hv]; show sat64 (u.inOffset.toNat + 1) = _
    rw [h.inOffset, sat64_add, List.length_append]; rfl
  obtain ⟨h1, h2, h3⟩ := extractFold_spec y
  have hz : v.zpend = BitVec.ofNat 3 (extractFold y).2 := by rw [← hv]; exact h.zpend
  have hzn : v.zpend.toNat = (extractFold y).2 := by rw [hz, BitVec.toNat_ofNat]; omega
  have hvp : v.phase = .payload := by rw [← hv]; exact h.phase
  have fin : ∀ w : State, OnlyReleaseState v w → CanEmit w → ∀ zp, Released (extractFold (y ++ [b])).1 w → zp = BitVec.ofNat 3 (extractFold (y ++ [b])).2 →
      InPayloadOf s x (y ++ [b]) z { w with inOffset := sat64 (v.inOffset.toNat + 1), zpend := zp } := by
    intro w ho hc zp hr hzp
    unfold OnlyReleaseState at ho
    have e : w.edges = v.edges ∧ w.source = v.source ∧ w.phase = v.phase ∧ w.width = v.width ∧ w.height = v.height ∧ w.channels = v.channels ∧ w.colorspace = v.colorspace ∧ w.expected = v.expected ∧ w.fbBytes = v.fbBytes ∧ w.errCode = v.errCode := by
      rw [ho]; exact ⟨rfl, rfl, rfl, rfl, rfl, rfl, rfl, rfl, rfl, rfl⟩
    obtain ⟨e1, e2, e3, e4, e5, e6, e7, e8, e9, e10⟩ := e
    rw [← hv] at e1 e2 e3 e4 e5 e6 e7 e8 e9 e10
    exact ⟨e1.trans h.edges, e2, e3.trans h.phase, e4.trans h.width, e5.trans h.height, e6.trans h.channels, e7.trans h.colorspace, hc.channels,
      by show w.expected.toNat = _; rw [e8]; exact h.expected, e9.trans h.fbBytes, hc.capacity, hc.canonical, e10.trans h.errCode, hio, hzp,
      released_of_frame hr ⟨rfl, rfl, rfl, rfl, rfl, rfl⟩ rfl rfl rfl rfl rfl rfl rfl rfl rfl⟩
  have hfc := extractFold_concat y b
  by_cases hb : b = 0
  · rw [if_pos hb] at hfc
    by_cases hlt : (extractFold y).2 < 7
    · rw [if_pos hlt] at hfc
      subst hb
      rw [extractor_hold hvp (by rw [hzn]; exact hlt)]
      refine ⟨_, rfl, fin v rfl hcan _ (by rw [hfc]; exact hrel) ?_⟩
      rw [hfc, hz]; apply BitVec.eq_of_toNat_eq; simp [BitVec.toNat_add]
    · rw [if_neg hlt] at hfc
      subst hb
      have h7 : (extractFold y).2 = 7 := by omega
      rw [extractor_shift hvp (by rw [hz, h7]; rfl), releaseAll_next _ hcan.capacity, andThen_next]
      refine ⟨_, rfl, fin _ (releasedAll_only _ _) (releasedAll_canEmit _ hcan) _ ?_ ?_⟩
      · rw [hfc]; exact releasedAll_concat [0] hrel hcan hsm
      · rw [hfc, h7]; rfl
  · rw [if_neg hb] at hfc
    rw [extractor_flush hvp hb, releaseAll_next _ hcan.capacity, andThen_next]
    · refine ⟨_, rfl, fin _ (releasedAll_only _ _) (releasedAll_canEmit _ hcan) _ ?_ ?_⟩
      · rw [hfc, hzn, List.append_assoc]; exact releasedAll_concat _ hrel hcan hsm
      · rw [hfc]; rfl
    · rintro ⟨rfl, h7⟩
      apply hm
      have : (extractFold y).2 = 7 := by rw [← hzn, h7]; rfl
      rw [h1, this]
      exact ⟨(extractFold y).1, by simp [endMarker]⟩

/-- Any number of bytes before an end marker. -/
theorem InPayloadOf.run {s x} : ∀ (zs : List Byte) {y z u}, InPayloadOf s x y (zs ++ z) u → (∀ q, q <+: y ++ zs → ¬ endMarker <:+ q) →
    ∃ t, clockEdges zs.length u = .next t ∧ InPayloadOf s x (y ++ zs) z t := by
  intro zs
  induction zs with
  | nil => intro y z u h _; exact ⟨u, rfl, by rw [List.append_nil]; exact h⟩
  | cons b zs ih =>
    intro y z u h hq
    have e : y ++ b :: zs = (y ++ [b]) ++ zs := by simp
    obtain ⟨t, h1, h2⟩ := InPayloadOf.stepped b h (hq _ (e ▸ List.prefix_append _ _))
    rw [e] at hq
    obtain ⟨t', h3, h4⟩ := ih h2 hq
    refine ⟨t', ?_, by rw [e]; exact h4⟩
    rw [List.length_cons, clockEdges, h1]; exact h3

/-! ## The result bytes -/

theorem serialize_flatMap_length (c : Byte) (hc : c = 3 ∨ c = 4) : ∀ (out : List Pixel), (out.flatMap (serialize c)).length = out.length * c.toNat
  | [] => by simp
  | p :: out => by
    rw [List.flatMap_cons, List.length_append, serialize_flatMap_length c hc out, serialize_length p hc, List.length_cons]; ring

theorem serialize_flatMap_getD (c : Byte) (hc : c = 3 ∨ c = 4) : ∀ (out : List Pixel) (k j : Nat), k < out.length → j < c.toNat →
    (out.flatMap (serialize c)).getD (k * c.toNat + j) 0 = (serialize c (out.getD k sentinel)).getD j 0
  | [], k, j, h, _ => by simp at h
  | p :: out, 0, j, h, hj => by
    rw [List.flatMap_cons, List.getD_append _ _ _ _ (by rw [serialize_length p hc]; omega)]; simp
  | p :: out, k+1, j, h, hj => by
    rw [List.flatMap_cons, List.getD_append_right _ _ _ _ (by rw [serialize_length p hc]; nlinarith), serialize_length p hc]
    have e : (k+1) * c.toNat + j - c.toNat = k * c.toNat + j := by rw [Nat.add_mul]; omega
    rw [e, serialize_flatMap_getD c hc out k j (by simpa using h) hj]; simp

/-! ## The first end marker -/

theorem markerEnd_cases (x : List Byte) : (markerEnd x = none ∧ ∀ m, m < x.length → markerEndsAt x m = false) ∨
   ∃ m, markerEnd x = some m ∧ m < x.length ∧ markerEndsAt x m = true ∧ ∀ j, j < m → markerEndsAt x j = false := by
  unfold markerEnd
  cases h : (List.range x.length).find? (markerEndsAt x) with
  | none =>
    left
    refine ⟨rfl, fun m hm => ?_⟩
    have := List.find?_eq_none.1 h m (List.mem_range.2 hm)
    simpa using this
  | some m =>
    right
    rw [List.find?_range_eq_some] at h
    obtain ⟨h1, h2, h3⟩ := h
    exact ⟨m, rfl, List.mem_range.1 h2, h1, fun j hj => by simpa using h3 j hj⟩

/-- A marker as suffix of a prefix of the payload stream is a marker that ends there. -/
theorem marker_suffix {x q : List Byte} (hl : 14 ≤ x.length) (hq : q <+: x.drop 14) (hs : endMarker <:+ q) : 14 + q.length - 1 < x.length ∧ markerEndsAt x (14 + q.length - 1) = true := by
  obtain ⟨r, hr⟩ := hs
  obtain ⟨z, hz⟩ := hq
  have hlen : q.length = r.length + 8 := by rw [← hr, List.length_append]; rfl
  have hlx := congrArg List.length hz
  rw [List.length_append, List.length_drop] at hlx
  refine ⟨by omega, ?_⟩
  unfold markerEndsAt
  have e : 14 + q.length - 1 - 7 = 14 + r.length := by omega
  rw [e, ← List.drop_drop, ← hz, ← hr, List.append_assoc, List.drop_left]
  have : 21 ≤ 14 + (r ++ endMarker).length - 1 := by rw [hr]; omega
  simp only [Bool.and_eq_true, decide_eq_true_eq, beq_iff_eq]
  exact ⟨this, List.take_left' rfl⟩

end Sys2Proof.Machine
end

