-- ==== Sys2Proof/Tests/Slice0.lean ====
section
/-! SUPPORT. The model's own tests, and for every obligation with hypotheses a concrete state and operands that meet
them. Expected values are those of spec/95_test_vectors.md, or of the rule named. -/

namespace Sys2Proof.Tests

open Sys2Proof Sys2Proof.Machine

/-! ## Well-formedness refuses what the encoding cannot hold (30_encoding.md R95) -/

theorem test_wf_accepts_ends : Instr.wf (.diff (-2) 1 (-2)) = true ∧ Instr.wf (.luma (-32) 7 (-8)) = true
    ∧ Instr.wf (.luma 31 (-8) 7) = true ∧ Instr.wf (.run 1) = true ∧ Instr.wf (.run 62) = true
    ∧ Instr.wf (.rgb 0 0 255) = true ∧ Instr.wf (.rgba 0 0 0 255) = true ∧ Instr.wf (.index 63) = true := by decide
theorem test_wf_refuses_diff_dr : Instr.wf (.diff 2 0 0) = false ∧ Instr.wf (.diff (-3) 0 0) = false := by decide
theorem test_wf_refuses_diff_dg : Instr.wf (.diff 0 2 0) = false ∧ Instr.wf (.diff 0 (-3) 0) = false := by decide
theorem test_wf_refuses_diff_db : Instr.wf (.diff 0 0 2) = false ∧ Instr.wf (.diff 0 0 (-3)) = false := by decide
theorem test_wf_refuses_luma_dg : Instr.wf (.luma 32 0 0) = false ∧ Instr.wf (.luma (-33) 0 0) = false := by decide
theorem test_wf_refuses_luma_dr : Instr.wf (.luma 0 8 0) = false ∧ Instr.wf (.luma 0 (-9) 0) = false := by decide
theorem test_wf_refuses_luma_db : Instr.wf (.luma 0 0 8) = false ∧ Instr.wf (.luma 0 0 (-9)) = false := by decide
theorem test_wf_refuses_run : Instr.wf (.run 0) = false ∧ Instr.wf (.run 63) = false := by decide

/-! ## Decoding: words written out from the encodings of 30_encoding.md R93 -/

/-- 11111110 r g b. -/
theorem test_decode_rgb : decode [0b11111110, 0x10, 0x20, 0x30] = .ok (.rgb 0x10 0x20 0x30, []) := by decide
/-- 11111111 r g b a, and the byte after it is left. -/
theorem test_decode_rgba : decode [0b11111111, 1, 2, 3, 4, 5] = .ok (.rgba 1 2 3 4, [5]) := by decide
/-- 00 ssssss. -/
theorem test_decode_index : decode [0b00111111] = .ok (.index 63, []) := by decide
/-- 01 bb gg rr, each biased by -2: db = -2, dg = -1, dr = +1. -/
theorem test_decode_diff : decode [0b01000111] = .ok (.diff 1 (-1) (-2), []) := by decide
/-- 10 gggggg, then bbbb rrrr: dg = 10, dr_dg = -3, db_dg = 2 (vector D7). -/
theorem test_decode_luma : decode [0b10101010, 0b10100101] = .ok (.luma 10 (-3) 2, []) := by decide
/-- 11 nnnnnn, biased by +1; 0xFD is the longest run. -/
theorem test_decode_run : decode [0b11000100] = .ok (.run 5, []) ∧ decode [0xFD] = .ok (.run 62, []) := by decide
theorem test_decode_missing_bytes : decode [0xFF, 1, 2] = .error (.missingTrailingBytes 4 2)
    ∧ decode [] = .error .noLeadingByte := by decide
/-- The opcode table's numbering: byte 1 is bits 15..8; operand bytes the table gives no bits are 0. -/
theorem test_decode_table_word : decodeTableWord 32 0x302010FE = some (.rgb 0x10 0x20 0x30)
    ∧ decodeTableWord 8 0xFF = some (.rgba 0 0 0 0) ∧ decodeTableWord 16 0xA5AA = some (.luma 10 (-3) 2)
    ∧ decodeTableWord 8 0x25 = some (.index 37) := by decide
/-- `QOIF 2, 3, 4, 1` (vector E10). -/
theorem test_header_bytes : headerBytes 2 3 4 1 = [0x71, 0x6F, 0x69, 0x66, 0, 0, 0, 2, 0, 0, 0, 3, 4, 1] := by decide

/-! ## States to start from -/

/-- The outcome is a next state with the property. -/
def nextIs (o : Result) (p : State → Bool) : Bool :=
  match o with
  | .next t => p t
  | .fault _ => false
  | .refused _ => false

theorem next_of_nextIs {o : Result} {p : State → Bool} (h : nextIs o p = true) : ∃ t, o = .next t ∧ p t = true := by
  cases o with
  | next t => exact ⟨t, rfl, h⟩
  | fault r => cases h
  | refused r => cases h

/-- A 2 × 2 image in channel mode `ch` right after its header. -/
def image (ch : Byte) : State :=
  { State.reset with
    phase := .payload, hdrValid := true, width := 2, height := 2, channels := ch, expected := 4, fbBytes := 16,
    inOffset := 14 }

/-- The same, in channel mode RGBA, after one literal pixel. -/
def painted (p : Pixel) : State :=
  { image 4 with
    prevValid := true, prev := p, pixCount := 1, opCount := 1, payloadLen := 5, inOffset := 19,
    cache := (image 4).cache.set (hash p) p, fb := [(0, p.r), (1, p.g), (2, p.b), (3, p.a)] }

/-- RGBA{9,8,7,6} (vector E4). -/
def nine : Pixel := ⟨.rgba, 9, 8, 7, 6⟩

/-- A decode in its header, `n` bytes consumed, with the fields read so far. -/
def inHeader (n : U64) (w h : Word) (ch : Byte) : State :=
  { State.reset with phase := .header, inOffset := n, width := w, height := h, channels := ch, fbBytes := 15 }

/-- The source presents these bytes. -/
def fed (s : State) (bs : List Byte) : State := { s with source := bs.map InPins.ofByte }

/-- A host access on the next edge: write `data` to `addr`. -/
def writing (s : State) (addr : Byte) (data : Word) : State :=
  { s with edges := [{ Edge.idle with regWe := true, regAddr := addr, regWdata := data }] }

/-! ## One step of each operation -/

/-- hash(RGB{16,32,48}) = 21 (vector K6). -/
theorem test_rgb : nextIs (exec (.rgb 16 32 48) (image 3)) (fun t => t.cacheRead 21 == ⟨.rgb, 16, 32, 48, 255⟩
    && t.prevValid && t.pixCount == 1 && t.fb == [(0, 16), (1, 32), (2, 48)]) = true := by decide
/-- hash(RGBA{1,2,3,4}) = 14 (vector K3); in channel mode RGB alpha is dropped (vector K11). -/
theorem test_rgba : nextIs (exec (.rgba 1 2 3 4) (image 3)) (fun t => t.cacheRead 14 == ⟨.rgba, 1, 2, 3, 4⟩
    && t.fb == [(0, 1), (1, 2), (2, 3)]) = true := by decide
/-- An unwritten slot holds the sentinel, and the cache is not written (vector K10). -/
theorem test_index : nextIs (exec (.index 5) (painted nine)) (fun t => t.prev == ⟨.rgba, 0, 0, 0, 0⟩
    && t.cache == (painted nine).cache && t.pixCount == 2) = true := by decide
/-- Vector D1: wrap below 0, alpha kept. -/
theorem test_diff_wraps : nextIs (exec (.diff (-2) (-2) (-2)) (painted ⟨.rgba, 0, 0, 0, 128⟩))
    (fun t => t.prev == ⟨.rgba, 254, 254, 254, 128⟩) = true := by decide
/-- Program 1: P2 = RGBA{17,32,47,64} at slot 28. -/
theorem test_diff_program1 : nextIs (exec (.diff 1 0 (-1)) (painted ⟨.rgba, 16, 32, 48, 64⟩))
    (fun t => t.cacheRead 28 == ⟨.rgba, 17, 32, 47, 64⟩ && t.fb.read 6 == 47) = true := by decide
/-- Vector D5: the Luma minimum. -/
theorem test_luma_minimum : nextIs (exec (.luma (-32) (-8) (-8)) (painted ⟨.rgb, 10, 10, 10, 255⟩))
    (fun t => t.prev == ⟨.rgb, 226, 234, 226, 255⟩) = true := by decide
/-- Vector D7. -/
theorem test_luma : nextIs (exec (.luma 10 (-3) 2) (painted ⟨.rgb, 5, 250, 128, 255⟩))
    (fun t => t.prev == ⟨.rgb, 12, 4, 140, 255⟩) = true := by decide
/-- Two copies of PREV; PREV and the cache stay (43_pixel_ops.md R197). -/
theorem test_run : nextIs (exec (.run 2) (painted nine)) (fun t => t.pixCount == 3 && t.fb.read 11 == 6
    && t.prev == nine && t.cache == (painted nine).cache) = true := by decide
/-- Past the image pixels are counted and not written (45_framebuffer.md R241). -/
theorem test_run_past_image : nextIs (exec (.run 62) (painted nine)) (fun t => t.pixCount == 63
    && t.fb.length == 16) = true := by decide
/-- Vector U3: Run first latches MP. -/
theorem test_run_first : nextIs (exec (.run 1) (image 3)) (fun t => t.mp && !t.prevValid && t.pixCount == 0) = true := by
  decide

/-! ## Steps -/

/-- A placed word runs as the first operation after reset. -/
theorem test_place_after_reset : nextIs (step (State.reset.withFetchWord 32 0x302010FE))
    (fun t => t.prev == ⟨.rgb, 0x10, 0x20, 0x30, 255⟩ && t.opCount == 1 && t.opNeed == 0) = true := by decide
/-- A word whose last byte is 0x00 is released past seven pending zeros. -/
theorem test_place_zero_byte : nextIs (step (State.reset.withFetchWord 8 0x00))
    (fun t => t.prevValid && t.opCount == 1 && t.zpend == 7) = true := by decide
/-- Vector E6's last byte: DONE. -/
theorem test_marker_ends : nextIs (step (fed { painted nine with zpend := 7, pixCount := 4, inOffset := 26 } [1]))
    (fun t => t.phase == .done && t.errCode == .none && t.inOffset == 27) = true := by decide
/-- Vector C2: a write of 3 to CTRL starts the decode with the interrupt enabled. -/
theorem test_start : nextIs (step (writing State.reset 0x00 3)) (fun t => t.phase == .header && t.irqEn) = true := by
  decide
/-- Vector H7: ERROR (3, 5, 12, 0). -/
theorem test_channel_error : nextIs (step (fed (inHeader 12 1 1 0) [5])) (fun t => t.phase == .error
    && t.errCode == .unknownChannelMode && t.errValue == 5 && t.errOffset == 12 && t.channels == 0) = true := by decide
/-- EOF in the payload (vector H10). -/
theorem test_eof : nextIs (step { image 3 with source := [InPins.ofEof] })
    (fun t => t.phase == .error && t.errCode == .endOfInput && t.errOffset == 14) = true := by decide

/-! ## States that meet the invariant -/

/-- The invariant clause by clause, each of them decidable on a concrete state. -/
theorem inv_of_clauses {s : State}
    (op : (s.opNeed.toNat = 0 ∨ s.opNeed.toNat = 1 ∨ s.opNeed.toNat = 3 ∨ s.opNeed.toNat = 4)
      ∧ (s.opNeed.toNat ≠ 0 → s.opNeed.toNat = opNeedOf s.opLead ∧ s.opGot.toNat < s.opNeed.toNat))
    (header : s.phase = .header →
      s.inOffset.toNat ≤ 13 ∧ s.payloadLen = 0 ∧ s.opCount = 0 ∧ s.pixCount = 0 ∧ s.zpend = 0 ∧ s.opNeed = 0
        ∧ s.mp = false ∧ s.prevValid = false ∧ s.hdrValid = false ∧ s.expected = 0 ∧ s.colorspace = 0
        ∧ (s.inOffset.toNat ≤ 4 → s.width = 0) ∧ (s.inOffset.toNat ≤ 8 → s.height = 0)
        ∧ (s.inOffset.toNat ≤ 12 → s.channels = 0)
        ∧ (s.inOffset.toNat = 13 → s.channels = 3 ∨ s.channels = 4))
    (accepted : s.phase = .payload ∨ s.phase = .done → s.hdrValid = true ∧ (s.channels = 3 ∨ s.channels = 4)
      ∧ s.expected.toNat = s.width.toNat * s.height.toNat ∧ s.expected.toNat * s.channels.toNat ≤ s.fbBytes)
    (payload : s.phase = .payload →
      s.inOffset.toNat = min (14 + s.payloadLen.toNat + s.zpend.toNat) counterMax)
    (done : s.phase = .done → s.inOffset.toNat = min (22 + s.payloadLen.toNat) counterMax ∧ s.pixCount = s.expected
      ∧ s.opNeed = 0 ∧ s.mp = false)
    (latches : (s.prevValid = false → s.pixCount = 0) ∧ (s.mp = true → s.prevValid = false)
      ∧ (s.opCount ≠ 0 → s.prevValid = true ∨ s.mp = true))
    (errors : (s.phase ≠ .error → s.errCode = .none ∧ s.errValue = 0 ∧ s.errOffset = 0 ∧ s.errOpIndex = 0)
      ∧ (s.phase = .error → s.errCode ≠ .none ∧ s.errCode ≠ .internalConsistency))
    (format : (s.channels = 0 ∨ s.channels = 3 ∨ s.channels = 4) ∧ (s.colorspace = 0 ∨ s.colorspace = 1))
    (prev : s.prevValid = true → s.prev.kind = .rgb → s.prev.a = 0xFF)
    (cache : ∀ slot : Fin 64, ((s.cacheRead slot).kind = .rgb → (s.cacheRead slot).a = 0xFF)
      ∧ (s.cacheRead slot = sentinel ∨ hash (s.cacheRead slot) = slot))
    (fb : s.fb.wf = true ∧ ∀ c ∈ s.fb, c.1 < s.fbBytes) : Inv s where
  opNeed := op.1
  opNeedOfLead := fun h => (op.2 h).1
  opGot := fun h => (op.2 h).2
  header := header
  payload := fun h => ⟨⟨(accepted (.inl h)).1, (accepted (.inl h)).2.1, (accepted (.inl h)).2.2.1,
    (accepted (.inl h)).2.2.2⟩, payload h⟩
  done := fun h => ⟨⟨(accepted (.inr h)).1, (accepted (.inr h)).2.1, (accepted (.inr h)).2.2.1,
    (accepted (.inr h)).2.2.2⟩, done h⟩
  pixCount := latches.1
  mp := latches.2.1
  firstOp := latches.2.2
  noError := errors.1
  error := errors.2
  channels := format.1
  colorspace := format.2
  prevStored := prev
  cacheStored := fun slot => (cache slot).1
  cacheHome := fun slot => (cache slot).2
  fbCanonical := fb.1
  fbInside := fb.2

theorem inv_painted : Inv (painted nine) :=
  inv_of_clauses (by decide) (by decide) (by decide) (by decide) (by decide) (by decide) (by decide) (by decide)
    (by decide) (by decide) (by decide)

theorem canEmit_painted : CanEmit (painted nine) := ⟨by decide, by decide, by decide⟩

theorem inv_header (n : U64) (h : n.toNat ≤ 4) : Inv (inHeader n 0 0 0) where
  opNeed := .inl rfl
  opNeedOfLead := fun h => absurd rfl h
  opGot := fun h => absurd rfl h
  header := fun _ => ⟨by show n.toNat ≤ 13; omega, rfl, rfl, rfl, rfl, rfl, rfl, rfl, rfl, rfl, rfl, fun _ => rfl,
    fun _ => rfl, fun _ => rfl, fun h' => absurd h' (by show ¬ n.toNat = 13; omega)⟩
  payload := fun h => nomatch h
  done := fun h => nomatch h
  pixCount := fun _ => rfl
  mp := fun h => nomatch h
  firstOp := fun h => absurd rfl h
  noError := fun _ => ⟨rfl, rfl, rfl, rfl⟩
  error := fun h => nomatch h
  channels := .inl rfl
  colorspace := .inl rfl
  prevStored := fun h => nomatch h
  cacheStored := fun slot => by rw [cacheRead_replicate rfl]; exact fun h => nomatch h
  cacheHome := fun slot => .inl (cacheRead_replicate rfl slot)
  fbCanonical := rfl
  fbInside := fun c h => nomatch h

/-! ## Witnesses: encoding and steps -/

theorem witness_DecodingAnEncodedOperationGivesItBack : Instr.wf (.luma 31 (-8) 7) = true := by decide

theorem witness_DecodedBytesAreTheEncodedOperation : decode [0xA0, 0x88, 0x05] = .ok (.luma 0 0 0, [0x05]) := by decide

/-- The ends of each range of the leading-byte map. -/
theorem witness_LeadingByteMapCoversEveryByte :
    opKind 0x00 = .index ∧ opKind 0x3F = .index ∧ opKind 0x40 = .diff ∧ opKind 0x7F = .diff ∧ opKind 0x80 = .luma
      ∧ opKind 0xBF = .luma ∧ opKind 0xC0 = .run ∧ opKind 0xFD = .run ∧ opKind 0xFE = .rgb ∧ opKind 0xFF = .rgba := by
  decide

theorem witness_RunxEmitsThatManyCopies : 1 ≤ 63 ∧ CanEmit (painted nine) ∧ (painted nine).mp = false
    ∧ (painted nine).prevValid = true := ⟨by decide, canEmit_painted, rfl, rfl⟩

/-- A byte other than 0x00 with none pending, operation not open. -/
theorem witness_StepRunsTheDecodedOperation :
    let s := fed (painted nine) [0xC0]
    Inv s ∧ s.phase = .payload ∧ s.nextEdge.rst = false ∧ s.nextEdge.busy = false
      ∧ s.source = InPins.ofByte 0xC0 :: [] ∧ (InPins.ofByte 0xC0).token = some (.byte 0xC0)
      ∧ (s.zpend = 0 ∧ (0xC0 : Byte) ≠ 0) ∧ decode (openBytes s ++ [0xC0]) = .ok (.run 1, []) :=
  ⟨inv_other inv_painted _ _ _ _ _ _, rfl, rfl, rfl, rfl, rfl, by decide, by decide⟩

/-- A 0x00 with seven pending completes an open Luma. -/
theorem witness_StepRunsTheDecodedOperation_zero :
    let s := fed { painted nine with zpend := 7, inOffset := 27, payloadLen := 6, opLead := 0x80, opNeed := 1 } [0]
    Inv s ∧ s.phase = .payload ∧ s.nextEdge.rst = false ∧ s.nextEdge.busy = false
      ∧ s.source = InPins.ofByte 0 :: [] ∧ (InPins.ofByte 0).token = some (.byte 0)
      ∧ (s.zpend = 7 ∧ (0 : Byte) = 0) ∧ decode (openBytes s ++ [0]) = .ok (.luma (-32) (-8) (-8), []) :=
  ⟨inv_of_clauses (by decide) (by decide) (by decide) (by decide) (by decide) (by decide) (by decide) (by decide)
    (by decide) (by decide) (by decide), rfl, rfl, rfl, rfl, rfl, by decide, by decide⟩

theorem witness_ReleasedOperationExecutesOnce : Instr.wf (.rgba 1 2 3 4) = true ∧ (painted nine).opNeed = 0
    ∧ 14 + (painted nine).payloadLen.toNat < 2 ^ 64 - 1 := by decide

theorem witness_OperationsExecuteInPayloadOrder :
    (∀ i ∈ [Instr.rgb 1 2 3, .index 9, .diff 1 1 (-2), .luma 1 2 3, .run 62], i.wf = true) ∧ CanEmit (painted nine)
      ∧ (painted nine).opNeed = 0 := ⟨by decide, canEmit_painted, rfl⟩

/-! ## Witnesses: the six operations -/

/-- For Rgb, Rgba and Index; a first literal needs no previous pixel. -/
theorem witness_literals_and_index : CanEmit (image 3) ∧ (image 3).mp = false ∧ CanEmit (image 4)
    ∧ (image 4).mp = false := ⟨⟨by decide, by decide, by decide⟩, rfl, ⟨by decide, by decide, by decide⟩, rfl⟩

/-- For Diff, Luma and Run. -/
theorem witness_readers_of_prev : CanEmit (painted nine) ∧ (painted nine).mp = false
    ∧ (painted nine).prevValid = true := ⟨canEmit_painted, rfl, rfl⟩

theorem witness_MissingPredecessorIsLatched :
    ({ image 3 with mp := true } : State).mp = true
      ∧ ((image 3).mp = false ∧ readsPrev (.run 1) = true ∧ (image 3).prevValid = false)
      ∧ (CanEmit (painted nine) ∧ (painted nine).mp = false ∧ (painted nine).prevValid = true) :=
  ⟨rfl, ⟨rfl, rfl, rfl⟩, canEmit_painted, rfl, rfl⟩

/-- The least width of R225, at hash(RGB{255,255,255}) = 6630 mod 64 = 38 (vector K2). -/
theorem witness_HashIsWidthIndependent : 6 ≤ 6 ∧ Machine.hash ⟨.rgb, 255, 255, 255, 255⟩ = 38 := by decide

theorem witness_EmitWritesThePixelInsideTheImage :
    (CanEmit (image 3) ∧ (image 3).pixCount.toNat < (image 3).expected.toNat ∧ (image 3).channels = 3)
      ∧ (CanEmit (painted nine) ∧ (painted nine).pixCount.toNat < (painted nine).expected.toNat
        ∧ (painted nine).channels = 4)
      ∧ (CanEmit { painted nine with pixCount := 4 } ∧ (4 : U64).toNat ≤ (4 : U64).toNat) :=
  ⟨⟨⟨by decide, by decide, by decide⟩, by decide, rfl⟩, ⟨canEmit_painted, by decide, rfl⟩,
    ⟨by decide, by decide, by decide⟩, by decide⟩

/-! ## Witnesses: the header -/

/-- Vectors H11 and H12: a 2 × 2 image in channel mode RGBA with FB_BYTES = 16 and 15. -/
theorem witness_LegalHeaderIsParsed : State.reset.phase.busy = false ∧ ((4 : Byte) = 3 ∨ (4 : Byte) = 4)
    ∧ ((1 : Byte) = 0 ∨ (1 : Byte) = 1)
    ∧ (2 : Word).toNat * (2 : Word).toNat * (4 : Byte).toNat ≤ (image 4).fbBytes
    ∧ (inHeader 0 0 0 0).fbBytes < (2 : Word).toNat * (2 : Word).toNat * (4 : Byte).toNat := by decide

theorem witness_MagicIsComparedByteByByte :
    ((inHeader 0 0 0 0).phase = .header ∧ (inHeader 0 0 0 0).inOffset.toNat ≤ 3 ∧ (0x51 : Byte) ≠ magic.getD 0 0)
      ∧ ((inHeader 3 0 0 0).phase = .header ∧ (inHeader 3 0 0 0).inOffset.toNat ≤ 3
        ∧ (0x66 : Byte) = magic.getD (inHeader 3 0 0 0).inOffset.toNat 0) := by decide

/-- The ends of both ranges. -/
theorem witness_DimensionBytesShiftIn : (inHeader 4 0 0 0).phase = .header
    ∧ (4 ≤ (inHeader 4 0 0 0).inOffset.toNat ∧ (inHeader 4 0 0 0).inOffset.toNat ≤ 7)
    ∧ (4 ≤ (inHeader 7 0 0 0).inOffset.toNat ∧ (inHeader 7 0 0 0).inOffset.toNat ≤ 7)
    ∧ (8 ≤ (inHeader 8 2 0 0).inOffset.toNat ∧ (inHeader 8 2 0 0).inOffset.toNat ≤ 11)
    ∧ (8 ≤ (inHeader 11 2 0 0).inOffset.toNat ∧ (inHeader 11 2 0 0).inOffset.toNat ≤ 11) := by decide

theorem witness_ChannelByteIsChecked : (inHeader 12 2 2 0).phase = .header ∧ (inHeader 12 2 2 0).inOffset = 12
    ∧ ((3 : Byte) = 3 ∨ (3 : Byte) = 4) ∧ ((4 : Byte) = 3 ∨ (4 : Byte) = 4) ∧ ((2 : Byte) ≠ 3 ∧ (2 : Byte) ≠ 4)
    ∧ ((5 : Byte) ≠ 3 ∧ (5 : Byte) ≠ 4) := by decide

/-- A refused byte; an image of 12 bytes in a framebuffer of 15; one of 16 bytes. -/
theorem witness_ColorSpaceByteEndsTheHeader : (inHeader 13 2 2 3).phase = .header ∧ (inHeader 13 2 2 3).inOffset = 13
    ∧ ((2 : Byte) ≠ 0 ∧ (2 : Byte) ≠ 1) ∧ ((1 : Byte) = 0 ∨ (1 : Byte) = 1)
    ∧ (4 : U64).toNat = (inHeader 13 2 2 3).width.toNat * (inHeader 13 2 2 3).height.toNat
    ∧ (4 : U64).toNat * (inHeader 13 2 2 3).channels.toNat ≤ (inHeader 13 2 2 3).fbBytes
    ∧ (inHeader 13 2 2 4).fbBytes < (4 : U64).toNat * (inHeader 13 2 2 4).channels.toNat := by decide

theorem witness_EofRaisesEndOfInput : (inHeader 0 0 0 0).phase = .header ∧ (painted nine).phase = .payload := by decide

/-- A payload byte, and an edge of IDLE. -/
theorem witness_HeaderFieldsAreImmutable :
    let s := fed (painted nine) [0xC0]
    ((∃ t, step s = .next t) ∧ s.nextEdge.rst = false ∧ takesStart s = false ∧ s.phase ≠ .header)
      ∧ (∃ t, step State.reset = .next t) ∧ takesStart State.reset = false ∧ State.reset.phase = .idle :=
  ⟨⟨⟨_, rfl⟩, rfl, rfl, by decide⟩, ⟨_, rfl⟩, rfl, rfl⟩

/-! ## Witnesses: the extractor -/

/-- Vector E3's payload. -/
theorem witness_ExtractorReleasesExactlyThePayload : (image 3).phase = .payload ∧ (image 3).zpend = 0
    ∧ firstMarkerIsLast ([1, 2, 3] ++ endMarker) := by
  refine ⟨rfl, rfl, fun q hq hs => ?_⟩
  have key : ∀ q ∈ ([1, 2, 3] ++ endMarker : List Byte).inits, q.drop (q.length - 8) = endMarker →
      q = [1, 2, 3] ++ endMarker := by decide
  refine key q (List.mem_inits _ _ |>.2 hq) ?_
  obtain ⟨r, rfl⟩ := hs
  have hl : (r ++ endMarker).length - 8 = r.length := by rw [List.length_append]; exact Nat.add_sub_cancel _ _
  rw [hl, List.drop_left]

/-- Six zeros and 0x01; seven zeros and 0x02; seven and eight zeros and 0x01. -/
theorem witness_ZeroRunCases : (image 3).phase = .payload ∧ (image 3).zpend = 0
    ∧ ((1 : Byte) ≠ 0 ∧ (6 < 7 ∨ (1 : Byte) ≠ 1)) ∧ ((2 : Byte) ≠ 0 ∧ (7 < 7 ∨ (2 : Byte) ≠ 1))
    ∧ (7 ≤ 7 ∧ (1 : Byte) = 1) ∧ (7 ≤ 8 ∧ (1 : Byte) = 1) := by decide

/-- The four ends: an operation open, MP, a wrong count, and all well. -/
theorem witness_FinishReportsInPriority :
    let s : State := { painted nine with zpend := 7 }
    s.phase = .payload ∧ s.zpend = 7 ∧ ({ s with opNeed := 3 } : State).opNeed ≠ 0
      ∧ (s.opNeed = 0 ∧ ({ s with mp := true } : State).mp = true)
      ∧ (s.opNeed = 0 ∧ s.mp = false ∧ s.pixCount ≠ s.expected)
      ∧ (s.opNeed = 0 ∧ s.mp = false ∧ ({ s with pixCount := 4 } : State).pixCount = s.expected) := by decide

/-- The offset clause: a state of the invariant with seven zeros pending. -/
theorem witness_FinishReportsInPriority_offset :
    let s : State := { image 3 with zpend := 7, inOffset := 22, payloadLen := 1 }
    s.phase = .payload ∧ s.zpend = 7 ∧ Inv s ∧ s.inOffset.toNat < 2 ^ 64 - 1 :=
  ⟨rfl, rfl, inv_of_clauses (by decide) (by decide) (by decide) (by decide) (by decide) (by decide) (by decide)
    (by decide) (by decide) (by decide) (by decide), by decide⟩

/-! ## Witnesses: errors and phases -/

/-- A header byte and an EOF. -/
theorem witness_ErrorContext_header : Inv (inHeader 0 0 0 0) ∧ (inHeader 0 0 0 0).inOffset.toNat < 2 ^ 64 - 1
    ∧ (inHeader 0 0 0 0).phase ≠ .error
    ∧ (∃ t, decoderStep (.byte 0x51) (inHeader 0 0 0 0) = .next t ∧ t.phase = .error ∧ t.errCode = .invalidMagic)
    ∧ ∃ t, decoderStep .eof (inHeader 0 0 0 0) = .next t ∧ t.phase = .error ∧ t.errCode = .endOfInput :=
  ⟨inv_header 0 (by decide), by decide, by decide, ⟨_, rfl, by decide, by decide⟩, ⟨_, rfl, rfl, rfl⟩⟩

/-- The header bytes 12 and 13: a channel mode, a color space, and an image that does not fit. -/
theorem witness_ErrorContext_format : Inv (inHeader 12 2 2 0) ∧ Inv (inHeader 13 2 2 4)
    ∧ (∃ t, decoderStep (.byte 5) (inHeader 12 2 2 0) = .next t ∧ t.phase = .error
      ∧ t.errCode = .unknownChannelMode)
    ∧ (∃ t, decoderStep (.byte 2) (inHeader 13 2 2 4) = .next t ∧ t.phase = .error ∧ t.errCode = .unknownColorSpace)
    ∧ ∃ t, decoderStep (.byte 0) (inHeader 13 2 2 4) = .next t ∧ t.phase = .error
      ∧ t.errCode = .capacityExceeded :=
  ⟨inv_of_clauses (by decide) (by decide) (by decide) (by decide) (by decide) (by decide) (by decide) (by decide)
      (by decide) (by decide) (by decide),
    inv_of_clauses (by decide) (by decide) (by decide) (by decide) (by decide) (by decide) (by decide) (by decide)
      (by decide) (by decide) (by decide),
    ⟨_, rfl, by decide, by decide⟩, ⟨_, rfl, by decide, by decide⟩, ⟨_, rfl, by decide, by decide⟩⟩

/-- The marker's last byte: an operation cut, MP, a wrong count. -/
theorem witness_ErrorContext_finish :
    let s : State := { image 3 with zpend := 7, inOffset := 22, payloadLen := 1 }
    Inv { s with opLead := 0xFE, opNeed := 3 } ∧ Inv { s with opCount := 1, mp := true } ∧ Inv s
      ∧ (∃ t, decoderStep (.byte 1) { s with opLead := 0xFE, opNeed := 3 } = .next t ∧ t.phase = .error
        ∧ t.errCode = .unexpectedEndOfInput)
      ∧ (∃ t, decoderStep (.byte 1) { s with opCount := 1, mp := true } = .next t ∧ t.phase = .error
        ∧ t.errCode = .missingPredecessor)
      ∧ ∃ t, decoderStep (.byte 1) s = .next t ∧ t.phase = .error ∧ t.errCode = .pixelCountMismatch :=
  ⟨inv_of_clauses (by decide) (by decide) (by decide) (by decide) (by decide) (by decide) (by decide) (by decide)
      (by decide) (by decide) (by decide),
    inv_of_clauses (by decide) (by decide) (by decide) (by decide) (by decide) (by decide) (by decide) (by decide)
      (by decide) (by decide) (by decide),
    inv_of_clauses (by decide) (by decide) (by decide) (by decide) (by decide) (by decide) (by decide) (by decide)
      (by decide) (by decide) (by decide),
    ⟨_, rfl, by decide, by decide⟩, ⟨_, rfl, by decide, by decide⟩, ⟨_, rfl, by decide, by decide⟩⟩

/-- The wrong count where IN_OFFSET has saturated: the marker's first byte is at 14 + (2^64 - 21) (R282). -/
theorem witness_ErrorContext_saturated :
    let s : State := { image 3 with zpend := 7, payloadLen := 0xFFFFFFFFFFFFFFEB, inOffset := 0xFFFFFFFFFFFFFFFF }
    Inv s ∧ ∃ t, decoderStep (.byte 1) s = .next t ∧ t.phase = .error ∧ t.errCode = .pixelCountMismatch
      ∧ t.errOffset = 0xFFFFFFFFFFFFFFF9 :=
  ⟨inv_of_clauses (by decide) (by decide) (by decide) (by decide) (by decide) (by decide) (by decide) (by decide)
      (by decide) (by decide) (by decide),
    ⟨_, rfl, by decide, by decide, by decide⟩⟩

/-- A reset, a taken START, a quiet edge, and an EOF. -/
theorem witness_PhaseTransitions_events :
    Inv (painted nine)
      ∧ ({ painted nine with edges := [{ Edge.idle with rst := true }] } : State).nextEdge.rst = true
      ∧ takesStart (writing State.reset 0x00 1) = true
      ∧ ((painted nine).nextEdge.rst = false ∧ takesStart (painted nine) = false
        ∧ consumedToken (painted nine) = none)
      ∧ consumedToken { painted nine with source := [InPins.ofEof] } = some .eof :=
  ⟨inv_painted, rfl, by decide, by decide, by decide⟩

/-- Header bytes at the ends of each range of offsets, and both kinds of payload byte. -/
theorem witness_PhaseTransitions_bytes :
    (Inv (inHeader 3 0 0 0) ∧ consumedToken (fed (inHeader 3 0 0 0) [0x66]) = some (.byte 0x66)
      ∧ (inHeader 3 0 0 0).inOffset.toNat ≤ 3)
    ∧ (Inv (inHeader 4 0 0 0) ∧ 3 < (inHeader 4 0 0 0).inOffset.toNat)
    ∧ (Inv (inHeader 11 2 1 0) ∧ (inHeader 11 2 1 0).inOffset.toNat ≤ 11)
    ∧ (Inv (inHeader 12 2 2 0) ∧ Inv (inHeader 13 2 2 4))
    ∧ (consumedToken (fed (painted nine) [1]) = some (.byte 1) ∧ (painted nine).phase = .payload
      ∧ (painted nine).zpend ≠ 7)
    ∧ (Inv { painted nine with zpend := 7, inOffset := 26 }
      ∧ ({ painted nine with zpend := 7, inOffset := 26 } : State).zpend = 7) :=
  ⟨⟨inv_header 3 (by decide), by decide, by decide⟩, ⟨inv_header 4 (by decide), by decide⟩,
    ⟨inv_of_clauses (by decide) (by decide) (by decide) (by decide) (by decide) (by decide) (by decide) (by decide)
      (by decide) (by decide) (by decide), by decide⟩,
    ⟨inv_of_clauses (by decide) (by decide) (by decide) (by decide) (by decide) (by decide) (by decide) (by decide)
      (by decide) (by decide) (by decide),
      inv_of_clauses (by decide) (by decide) (by decide) (by decide) (by decide) (by decide) (by decide) (by decide)
        (by decide) (by decide) (by decide)⟩,
    ⟨by decide, rfl, by decide⟩,
    ⟨inv_of_clauses (by decide) (by decide) (by decide) (by decide) (by decide) (by decide) (by decide) (by decide)
      (by decide) (by decide) (by decide), rfl⟩⟩

/-- For the counts and latches of a step without reset or START: a byte, an EOF and no token. -/
theorem witness_plain_steps :
    let s := fed { painted nine with mp := false } [0xC0]
    (∃ t, step s = .next t) ∧ s.nextEdge.rst = false ∧ takesStart s = false ∧ s.prevValid = true
      ∧ consumedToken s = some (.byte 0xC0) ∧ (∃ t, step (painted nine) = .next t)
      ∧ (∃ t, step { image 3 with mp := true } = .next t) ∧ ({ image 3 with mp := true } : State).mp = true :=
  ⟨⟨_, rfl⟩, rfl, rfl, rfl, rfl, ⟨_, rfl⟩, ⟨_, rfl⟩, rfl⟩

/-- EOF with a byte beside it, a byte, an entry that presents nothing; and an edge of IDLE, a stall, no source. -/
theorem witness_TokensAreTakenFromThePins :
    let s := fed (painted nine) [0xC0]
    let both : State := { painted nine with source := [{ valid := true, data := 0xC0, eof := true }] }
    let stalled : State := { painted nine with source := [{ valid := false, data := 0xC0, eof := false }] }
    s.nextEdge.rst = false ∧ s.phase = .payload ∧ s.nextEdge.busy = false ∧ s.source = [InPins.ofByte 0xC0]
      ∧ both.phase = .payload ∧ stalled.phase = .payload ∧ (inHeader 0 0 0 0).phase = .header
      ∧ consumedToken both = some .eof ∧ consumedToken stalled = none
      ∧ ¬(State.reset.phase = .header ∨ State.reset.phase = .payload)
      ∧ ({ s with edges := [{ Edge.idle with busy := true }] } : State).nextEdge.busy = true
      ∧ (painted nine).source = [] := by decide

/-- A finished decode on which the host clears IRQ_EN (vector C4). -/
theorem witness_QuiescentPhasesHoldTheirState :
    let s := writing { painted nine with phase := .done, irqEn := true } 0x00 0
    (∃ t, step s = .next t) ∧ s.phase.busy = false ∧ s.nextEdge.rst = false ∧ takesStart s = false :=
  ⟨⟨_, rfl⟩, rfl, rfl, rfl⟩

/-! ## Witnesses: the host -/

/-- Vectors C2 and C5: START from IDLE, and from ERROR. -/
theorem witness_StartInitialisesTheDecode : takesStart (writing State.reset 0x00 3) = true
    ∧ takesStart (writing ((painted nine).raise .endOfInput 0 19 0) 0x00 1) = true := by decide

theorem witness_StartWhileBusyIsIgnored : (inHeader 4 0 0 0).phase = .header ∧ (painted nine).phase = .payload := by
  decide

/-- Bits above bit 1 differ; an offset that is not CTRL (vector C6). -/
theorem witness_OnlyControlIsWritable : (0xFFFFFFFD : Word).getLsbD 0 = (1 : Word).getLsbD 0
    ∧ (0xFFFFFFFD : Word).getLsbD 1 = (1 : Word).getLsbD 1 ∧ (0x10 : Byte) ≠ 0x00 := by decide

/-- Vector C7, and the ends of the unmapped ranges. -/
theorem witness_UnmappedOffsetsReadZero : (0x02 : Byte).toNat % 4 ≠ 0 ∧ (0x1C : Byte) = 0x1C
    ∧ 0x58 ≤ (0x58 : Byte).toNat ∧ 0x58 ≤ (0xFC : Byte).toNat := by decide

theorem witness_CountsAreReadableWhereSpecified : (painted nine).phase ≠ .error
    ∧ ((painted nine).raise .pixelCountMismatch 0 19 1).errCode = .pixelCountMismatch := by decide

/-- The host reads STATUS and a framebuffer byte while the decoder looks at no token. -/
theorem witness_ReadsHaveNoSideEffect :
    let s : State := { painted nine with edges := [{ Edge.idle with regRe := true, regAddr := 0x04, fbRaddr := some 15 }] }
    (∃ t, step s = .next t) ∧ s.nextEdge.rst = false ∧ s.nextEdge.regRe = true ∧ s.nextEdge.fbRaddr = some 15
      ∧ 15 < s.fbBytes ∧ s.nextEdge.regWe = false ∧ s.source = [] :=
  ⟨⟨_, rfl⟩, rfl, rfl, rfl, by decide, rfl, rfl⟩

theorem witness_FramebufferPortShowsTheResult :
    let s : State := { painted nine with phase := .done, inOffset := 27, pixCount := 4 }
    Inv s ∧ s.phase = .done ∧ 15 < s.expected.toNat * s.channels.toNat ∧ s.fbBytes ≤ 16 :=
  ⟨inv_of_clauses (by decide) (by decide) (by decide) (by decide) (by decide) (by decide) (by decide) (by decide)
    (by decide) (by decide) (by decide), rfl, by decide, by decide⟩

/-! ## Witnesses: reset, invariants, whole decodes -/

/-- For both statements about a reset edge. -/
theorem witness_reset_edge :
    let s : State := { painted nine with edges := [{ Edge.idle with rst := true }] }
    s.nextEdge.rst = true ∧ ∃ t, step s = .next t := ⟨rfl, _, rfl⟩

theorem witness_EveryStepKeepsTheInvariant : Inv (fed (painted nine) [0xC0])
    ∧ ∃ t, step (fed (painted nine) [0xC0]) = .next t :=
  ⟨inv_other inv_painted _ _ _ _ _ _, _, rfl⟩

theorem witness_NoReachableStepFaults : Inv (painted nine) := inv_painted

/-- For the four statements about whole decodes: IDLE and DONE, and vector E6's input, which decodes. -/
theorem witness_whole_decodes : State.reset.phase.busy = false ∧ State.reset.fb.wf = true
    ∧ ({ painted nine with phase := .done } : State).phase.busy = false ∧ (painted nine).fb.wf = true
    ∧ (staged 6 (headerBytes 2 1 3 0 ++ [0xFE, 1, 2, 3, 0xC0] ++ endMarker)).toOption.map (fun i => i.bytes)
      = some [1, 2, 3, 1, 2, 3] := by decide

/-- Vector P2's input fails in the staged decoder: ERROR (5, 0, 15, 1). -/
theorem witness_ErrorReportIsThatOfTheStagedDecoder : State.reset.phase.busy = false ∧ State.reset.fb.wf = true
    ∧ (headerBytes 1 1 3 0 ++ [0x6A, 0xFE, 0x01] ++ endMarker).length < 2 ^ 63
    ∧ staged 6 (headerBytes 1 1 3 0 ++ [0x6A, 0xFE, 0x01] ++ endMarker)
      = .error ⟨.unexpectedEndOfInput, 0, 15, 1⟩ := by decide

/-- Vector E7's two pixels, one of each kind, as PREV. -/
theorem witness_KindBitIsNotObservable :
    let s : State := fed { painted nine with prev := ⟨.rgb, 1, 2, 3, 255⟩ } [0xC0]
    let s' : State := { s with prev := ⟨.rgba, 1, 2, 3, 255⟩ }
    s ≠ s' ∧ eraseKinds s = eraseKinds s' ∧ ∃ t, step s = .next t :=
  ⟨by decide, rfl, _, rfl⟩

theorem witness_ColorSpaceHasNoEffect : (painted nine).phase = .payload
    ∧ ∃ t, decoderStep (.byte 0xC0) (painted nine) = .next t := ⟨rfl, _, rfl⟩

end Sys2Proof.Tests
end

section
/-! PROOFS. The family 10_state: the register map, the invariant, and what a step keeps. -/

namespace Sys2Proof.Machine

open Sys2Proof

/-! ## Registers as the host reads them -/

/-- The two halves of a 64-bit register are the register (20_memory.md R70). -/
theorem hiHalf_append_loHalf (x : U64) : hiHalf x ++ loHalf x = x :=
  BitVec.extractLsb'_append_extractLsb'

theorem errCodeBits_toNat (c : ErrCode) :
    (errCodeBits c).toNat =
      match c with
      | .none => 0
      | .endOfInput => 1
      | .invalidMagic => 2
      | .unknownChannelMode => 3
      | .unknownColorSpace => 4
      | .unexpectedEndOfInput => 5
      | .missingPredecessor => 6
      | .pixelCountMismatch => 7
      | .capacityExceeded => 8
      | .internalConsistency => 15 := by
  cases c <;> rfl

theorem formatWord_toNat (s : State) : (formatWord s).toNat = s.colorspace.toNat * 256 + s.channels.toNat := by
  have hc := s.channels.isLt
  rw [formatWord, BitVec.toNat_append, BitVec.toNat_append, ← Nat.shiftLeft_add_eq_or_of_lt hc, Nat.shiftLeft_eq]
  simp

theorem countHalf_of_specified {s : State} (h : s.phase ≠ .error ∨ s.errCode = .pixelCountMismatch) (offset : Nat)
    (half : Word) : countHalf s offset half = half := by
  have hs : countsSpecified s = true := by simpa [countsSpecified] using h
  rw [countHalf, if_pos hs]

theorem countHalf_append {s : State} (h : s.phase ≠ .error ∨ s.errCode = .pixelCountMismatch) (i j : Nat)
    (x : U64) : countHalf s i (hiHalf x) ++ countHalf s j (loHalf x) = x := by
  rw [countHalf_of_specified h, countHalf_of_specified h, hiHalf_append_loHalf]

/-- Settles O40: the map evaluates at each offset, a narrow register is zero-extended, and the two halves of a 64-bit
one append to it. -/
theorem registerMapShowsTheState : Obligations.RegisterMapShowsTheState := fun s =>
  ⟨(BitVec.toNat_setWidth_of_le (by decide)).trans (errCodeBits_toNat s.errCode),
    BitVec.toNat_setWidth_of_le (by decide), rfl, rfl, formatWord_toNat s,
    hiHalf_append_loHalf s.expected, hiHalf_append_loHalf s.inOffset, hiHalf_append_loHalf s.errOffset,
    hiHalf_append_loHalf s.errOpIndex, hiHalf_append_loHalf s.payloadLen⟩

/-- Settles O41: where the counts are specified each half is the counter's own. -/
theorem countsAreReadableWhereSpecified : Obligations.CountsAreReadableWhereSpecified := fun s h =>
  ⟨countHalf_append h 0x2C 0x28 s.pixCount, countHalf_append h 0x4C 0x48 s.opCount⟩

/-! ## The invariant -/

/-- A reset edge leaves a state in which nothing has been decoded. -/
theorem inv_resetEdge (s : State) : Inv s.resetEdge :=
  inv_fresh rfl rfl (fun _ hc => absurd hc List.not_mem_nil) (.inl rfl)
    ⟨rfl, rfl, rfl, rfl, rfl, rfl, rfl, rfl, rfl, rfl, rfl, rfl, rfl, rfl⟩ ⟨rfl, rfl, rfl, rfl⟩

theorem inv_popEdge {s : State} (h : Inv s) : Inv s.popEdge :=
  inv_other h s.irqEn s.regRdata s.fbRdata s.edges.tail s.source s.epoch

theorem inv_withSource {s : State} (h : Inv s) (source : List InPins) (epoch : Nat) :
    Inv { s with source := source, epoch := epoch } :=
  inv_other h s.irqEn s.regRdata s.fbRdata s.edges source epoch

/-- Settles O46: at reset nothing has been decoded. -/
theorem resetStateMeetsTheInvariant : Obligations.ResetStateMeetsTheInvariant :=
  inv_fresh rfl reset_fb_wf (fun _ hc => absurd hc List.not_mem_nil) (.inl rfl)
    ⟨rfl, rfl, rfl, rfl, rfl, rfl, rfl, rfl, rfl, rfl, rfl, rfl, rfl, rfl⟩ ⟨rfl, rfl, rfl, rfl⟩

/-- Settles O47: a reset establishes the invariant; the host's access and then the decoder step each keep it. -/
theorem everyStepKeepsTheInvariant : Obligations.EveryStepKeepsTheInvariant := by
  intro s t hs h
  have hv : Inv (hostAccess s.nextEdge s.popEdge) := inv_hostAccess s.nextEdge (inv_popEdge hs)
  rcases step_cases h with ⟨-, rfl⟩ | ⟨-, -, -, p, rest, tok, -, -, -, hd⟩
    | ⟨-, -, -, -, p, rest, -, rfl⟩ | ⟨-, -, rfl⟩
  · exact inv_resetEdge s.popEdge
  · rw [decoderStep_eq_next hd]
    exact inv_stepped tok (inv_withSource hv rest _)
  · exact inv_withSource hv rest _
  · exact hv

/-! ## Steps without reset and without a taken START -/

/-- `s` with IRQ_EN and the model's own fields taken from `f`: what the host's access and the byte source can change. -/
def State.withAgents (s f : State) : State :=
  { s with irqEn := f.irqEn, epoch := f.epoch, source := f.source, edges := f.edges, regRdata := f.regRdata,
           fbRdata := f.fbRdata }

/-- Without reset and without a taken START a step changes what the host and the source can change, and then takes at
most one decoder step. -/
theorem step_plain_cases {s t : State} (h : step s = .next t) (hr : s.nextEdge.rst = false)
    (hs : takesStart s = false) :
    (∃ tok f, consumedToken s = some tok ∧ t = (s.withAgents f).stepped tok)
      ∨ (∃ f, consumedToken s = none ∧ t = s.withAgents f) := by
  have hv := hostAccess_noStart hr hs
  rcases step_cases h with ⟨hr', -⟩ | ⟨-, -, -, p, rest, tok, -, -, hc, hd⟩
    | ⟨-, -, -, hc, p, rest, -, rfl⟩ | ⟨-, hc, rfl⟩
  · exact absurd (hr.symm.trans hr') (by decide)
  · refine .inl ⟨tok, s.atToken rest, hc, ?_⟩
    rw [decoderStep_eq_next hd, State.atToken, hv]
    rfl
  · refine .inr ⟨{ hostAccess s.nextEdge s.popEdge with source := rest }, hc, ?_⟩
    rw [hv]
    rfl
  · refine .inr ⟨hostAccess s.nextEdge s.popEdge, hc, ?_⟩
    rw [hv]
    rfl

theorem busy_iff (p : Phase) : p.busy = true ↔ p = .header ∨ p = .payload := by
  cases p <;> decide

theorem not_busy_iff (p : Phase) : p.busy = false ↔ ¬(p = .header ∨ p = .payload) := by
  cases p <;> decide

/-- The header fields, EXPECTED and HDR_VALID of two states agree. -/
def SameHeader (s t : State) : Prop :=
  t.width = s.width ∧ t.height = s.height ∧ t.channels = s.channels ∧ t.colorspace = s.colorspace
    ∧ t.expected = s.expected ∧ t.hdrValid = s.hdrValid

theorem SameHeader.trans {s t u : State} (h : SameHeader s t) (h' : SameHeader t u) : SameHeader s u := by
  obtain ⟨h1, h2, h3, h4, h5, h6⟩ := h
  obtain ⟨k1, k2, k3, k4, k5, k6⟩ := h'
  exact ⟨k1.trans h1, k2.trans h2, k3.trans h3, k4.trans h4, k5.trans h5, k6.trans h6⟩

theorem sameHeader_of_onlyRelease {s t : State} (h : OnlyReleaseState s t) : SameHeader s t := by
  unfold OnlyReleaseState at h
  rw [h]
  exact ⟨rfl, rfl, rfl, rfl, rfl, rfl⟩

theorem sameHeader_finish (m : U64) (s : State) : SameHeader s (finish m s) := by
  rw [finish_only]
  exact ⟨rfl, rfl, rfl, rfl, rfl, rfl⟩

theorem sameHeader_extracted (s : State) (b : Byte) : SameHeader s (s.extracted b) := by
  unfold State.extracted
  split
  · split
    · exact ⟨rfl, rfl, rfl, rfl, rfl, rfl⟩
    · exact sameHeader_of_onlyRelease (released_only s 0)
  · split
    · exact sameHeader_finish (markerOffset s) (s.setZpend 0)
    · have hz := sameHeader_of_onlyRelease (releasedAll_only (List.replicate s.zpend.toNat 0) s)
      have hb := sameHeader_of_onlyRelease
        (released_only ((s.releasedAll (List.replicate s.zpend.toNat 0)).setZpend 0) b)
      exact hz.trans hb

/-- Outside HEADER a decoder step leaves the header fields, EXPECTED and HDR_VALID (40_header.md R130). -/
theorem sameHeader_stepped {s : State} (tok : Token) (h : s.phase ≠ .header) : SameHeader s (s.stepped tok) := by
  by_cases hp : s.phase = .payload
  · cases tok with
    | eof =>
      rw [stepped_eof (by rw [hp]; rfl)]
      exact ⟨rfl, rfl, rfl, rfl, rfl, rfl⟩
    | byte b =>
      rw [stepped_payloadByte b hp]
      exact sameHeader_extracted s.countInput b
  · have hq : s.phase.busy = false := (not_busy_iff s.phase).2 (not_or.2 ⟨h, hp⟩)
    rw [stepped_quiescent tok hq]
    exact ⟨rfl, rfl, rfl, rfl, rfl, rfl⟩

/-- Settles O25: outside HEADER neither the host nor a decoder step writes a header field. -/
theorem headerFieldsAreImmutable : Obligations.HeaderFieldsAreImmutable := by
  intro s t h hr hs hp
  rcases step_plain_cases h hr hs with ⟨tok, f, -, rfl⟩ | ⟨f, -, rfl⟩
  · exact sameHeader_stepped (s := s.withAgents f) tok hp
  · exact ⟨rfl, rfl, rfl, rfl, rfl, rfl⟩

/-- Settles O34: neither the host nor a decoder step clears a latch. -/
theorem latchesHoldWithinADecode : Obligations.LatchesHoldWithinADecode := by
  intro s t h hr hs
  rcases step_plain_cases h hr hs with ⟨tok, f, -, rfl⟩ | ⟨f, -, rfl⟩
  · exact stepped_latches (s.withAgents f) tok
  · exact ⟨id, id⟩

/-! ## IN_OFFSET -/

/-- IN_OFFSET after a step, by the token the step consumes: a byte counts, EOF and no token do not. -/
def offsetAfter (n : Nat) : Option Token → Nat
  | some (.byte _) => min (n + 1) (2 ^ 64 - 1)
  | some .eof => n
  | none => n

theorem consumedToken_busy {s : State} {tok : Token} (h : consumedToken s = some tok) : s.phase.busy = true := by
  cases hb : s.phase.busy with
  | true => rfl
  | false => simp [consumedToken, inReady, hb] at h

theorem step_inOffset {s t : State} (h : step s = .next t) (hr : s.nextEdge.rst = false)
    (hs : takesStart s = false) : t.inOffset.toNat = offsetAfter s.inOffset.toNat (consumedToken s) := by
  rcases step_plain_cases h hr hs with ⟨tok, f, hc, rfl⟩ | ⟨f, hc, rfl⟩
  · have hb : (s.withAgents f).phase.busy = true := consumedToken_busy (s := s) hc
    rw [stepped_inOffset, if_pos hb, hc]
    cases tok with
    | eof => rfl
    | byte b => exact sat64_toNat (s.inOffset.toNat + 1)
  · rw [hc]
    rfl

/-- What the pins present counts exactly when it is a byte and not EOF (20_memory.md R62). -/
theorem offsetAfter_token (n : Nat) (p : InPins) :
    offsetAfter n p.token = if p.eof = false ∧ p.valid = true then min (n + 1) (2 ^ 64 - 1) else n := by
  unfold InPins.token
  cases p.eof <;> cases p.valid <;> rfl

/-- Settles O32: the consumed token is what the pins present, where the decoder can take one. -/
theorem inputOffsetCountsConsumedBytes : Obligations.InputOffsetCountsConsumedBytes := by
  intro s t h hr hs
  rw [step_inOffset h hr hs]
  by_cases hc : (s.phase = .header ∨ s.phase = .payload) ∧ s.nextEdge.busy = false
  · rw [if_pos hc]
    obtain ⟨hp, he⟩ := hc
    have hb := (busy_iff s.phase).2 hp
    cases hq : s.source with
    | nil => rw [(step_notReady hr (.inr (.inr hq))).1]; rfl
    | cons p rest => rw [consumedToken_ready hr hb he hq, offsetAfter_token]
  · have hn : s.phase.busy = false ∨ s.nextEdge.busy = true := by
      rcases not_and_or.1 hc with hp | he
      · exact .inl ((not_busy_iff s.phase).2 hp)
      · exact .inr (by simpa using he)
    rw [if_neg hc, (step_notReady hr (hn.imp_right .inl)).1]
    rfl

/-! ## Kind bits -/

/-- The host's access reads neither PREV nor the cache, and a taken START writes both (46_host_commands.md R261). -/
theorem sameButKinds_hostAccess (e : Edge) {s s' : State} (h : SameButKinds s s') :
    SameButKinds (hostAccess e s) (hostAccess e s') := by
  obtain ⟨p, c, rfl, hp, hc⟩ := h
  rw [hostAccess_eq, hostAccess_eq]
  by_cases hs : (e.writesStart && !s.phase.busy) = true
  · rw [if_pos hs, if_pos hs]
    exact ⟨_, _, rfl, rfl, rfl⟩
  · rw [if_neg hs, if_neg hs]
    exact ⟨p, c, rfl, hp, hc⟩

theorem sameButKinds_capacityCheck {s s' : State} (h : SameButKinds s s') :
    SameButKinds (capacityCheck s) (capacityCheck s') := by
  obtain ⟨p, c, rfl, hp, hc⟩ := h
  unfold capacityCheck
  dsimp only
  split
  · exact ⟨p, c, rfl, hp, hc⟩
  · exact ⟨p, c, rfl, hp, hc⟩

theorem sameButKinds_colorSpaceByte (b : Byte) {s s' : State} (h : SameButKinds s s') :
    SameButKinds (colorSpaceByte b s) (colorSpaceByte b s') := by
  unfold colorSpaceByte
  split
  · exact sameButKinds_capacityCheck (sameButKinds_map
      (f := fun s => ({ s with colorspace := b } : State).setExpected)
      (fun _ _ _ => rfl) (fun _ => rfl) (fun _ => rfl) h)
  · exact sameButKinds_raise _ _ _ _ h

/-- A header byte reads neither PREV nor the cache. -/
theorem sameButKinds_headerField (pos : Nat) (b : Byte) {s s' : State} (h : SameButKinds s s') :
    SameButKinds (headerField pos b s) (headerField pos b s') := by
  unfold headerField
  split
  · unfold magicByte
    split
    · exact sameButKinds_raise _ _ _ _ h
    · exact h
  split
  · exact sameButKinds_map (f := widthByte b) (fun _ _ _ => rfl) (fun _ => rfl) (fun _ => rfl) h
  split
  · exact sameButKinds_map (f := heightByte b) (fun _ _ _ => rfl) (fun _ => rfl) (fun _ => rfl) h
  split
  · unfold channelByte
    split
    · exact sameButKinds_map (f := fun s => { s with channels := b }) (fun _ _ _ => rfl) (fun _ => rfl)
        (fun _ => rfl) h
    · exact sameButKinds_raise _ _ _ _ h
  split
  · exact sameButKinds_colorSpaceByte b h
  · exact h

theorem sameButKinds_countInput {s s' : State} (h : SameButKinds s s') :
    SameButKinds s.countInput s'.countInput :=
  sameButKinds_map (f := State.countInput) (fun _ _ _ => rfl) (fun _ => rfl) (fun _ => rfl) h

theorem sameButKinds_inOffset {s s' : State} (h : SameButKinds s s') : s'.inOffset = s.inOffset := by
  obtain ⟨p, c, rfl, -⟩ := h
  rfl

theorem sameButKinds_headerStep (tok : Token) {s s' : State} (h : SameButKinds s s') :
    SameButKinds (headerStep tok s) (headerStep tok s') := by
  unfold headerStep
  rw [sameButKinds_inOffset h]
  cases tok with
  | eof => exact sameButKinds_raise .endOfInput 0 s.inOffset 0 h
  | byte b => exact sameButKinds_headerField s.inOffset.toNat b (sameButKinds_countInput h)

theorem sameButKinds_payloadStep (tok : Token) {s s' : State} (h : SameButKinds s s') :
    BothAnswer (payloadStep tok s) (payloadStep tok s') := by
  unfold payloadStep
  rw [sameButKinds_inOffset h]
  cases tok with
  | eof => exact BothAnswer.next (sameButKinds_raise .endOfInput 0 s.inOffset 0 h)
  | byte b => exact sameButKinds_extract b (sameButKinds_countInput h)

theorem sameButKinds_decoderStep (tok : Token) {s s' : State} (h : SameButKinds s s') :
    BothAnswer (decoderStep tok s) (decoderStep tok s') := by
  have hph : s'.phase = s.phase := by obtain ⟨p, c, rfl, -⟩ := h; rfl
  unfold decoderStep
  rw [hph]
  cases s.phase with
  | header => exact BothAnswer.next (sameButKinds_headerStep tok h)
  | payload => exact sameButKinds_payloadStep tok h
  | idle => exact BothAnswer.next h
  | done => exact BothAnswer.next h
  | error => exact BothAnswer.next h

theorem sameButKinds_takeToken {s s' : State} (h : SameButKinds s s') :
    BothAnswer (takeToken s) (takeToken s') := by
  have hq : s'.source = s.source := by obtain ⟨p, c, rfl, -⟩ := h; rfl
  unfold takeToken
  rw [hq]
  cases s.source with
  | nil => exact BothAnswer.next h
  | cons pins rest =>
    dsimp only
    cases pins.token with
    | none =>
      exact BothAnswer.next (sameButKinds_map (f := fun s => { s with source := rest })
        (fun _ _ _ => rfl) (fun _ => rfl) (fun _ => rfl) h)
    | some tok =>
      exact sameButKinds_decoderStep tok (sameButKinds_map
        (f := fun s => { s with source := rest, epoch := s.epoch + 1 })
        (fun _ _ _ => rfl) (fun _ => rfl) (fun _ => rfl) h)

/-- The two sides of a clock edge branch alike. After a reset edge PREV and the cache are those of `State.reset` on both
sides (log entry 5). -/
theorem sameButKinds_clockEdge (e : Edge) {s s' : State} (h : SameButKinds s s') :
    BothAnswer (clockEdge e s) (clockEdge e s') := by
  have hready : inReady s' = inReady s := by obtain ⟨p, c, rfl, -⟩ := h; rfl
  have hreset : s'.resetEdge = s.resetEdge := by obtain ⟨p, c, rfl, -⟩ := h; rfl
  have hhost := sameButKinds_hostAccess e h
  unfold clockEdge
  rw [hready, hreset]
  split
  · exact BothAnswer.next ⟨_, _, rfl, rfl, rfl⟩
  · split
    · exact sameButKinds_takeToken hhost
    · exact BothAnswer.next hhost

/-- Settles O53: every part of a step maps states that differ in kind bits only to such states. -/
theorem kindBitIsNotObservable : Obligations.KindBitIsNotObservable := by
  intro s s' t h ht
  have hk : SameButKinds s s' := (sameButKinds_iff s s').2 h
  have hedge : s'.nextEdge = s.nextEdge := by obtain ⟨p, c, rfl, -⟩ := hk; rfl
  have hpop : SameButKinds s.popEdge s'.popEdge :=
    sameButKinds_map (f := State.popEdge) (fun _ _ _ => rfl) (fun _ => rfl) (fun _ => rfl) hk
  obtain ⟨t', ht', hkt⟩ := sameButKinds_clockEdge s.nextEdge hpop t ht
  exact ⟨t', by rw [step, hedge]; exact ht', (sameButKinds_iff t t').1 hkt⟩

end Sys2Proof.Machine
end

section
/-! PROOFS. The family 20_memory: no step faults, the header's bytes, the host's reads, and the tokens a step takes. -/

namespace Sys2Proof.Machine

open Sys2Proof

/-! ## No step faults -/

theorem step_reset {s : State} (h : s.nextEdge.rst = true) : step s = .next s.popEdge.resetEdge := by
  rw [step, clockEdge, if_pos h]

/-- The state a token acts on meets the invariant. -/
theorem inv_atToken {s : State} (h : Inv s) (rest : List InPins) : Inv (s.atToken rest) :=
  inv_withSource (inv_hostAccess s.nextEdge (inv_popEdge h)) rest _

/-- Settles O48: only a consumed token writes the framebuffer, and in PAYLOAD the invariant holds an image that fits. -/
theorem noReachableStepFaults : Obligations.NoReachableStepFaults := by
  intro s hs
  cases hr : s.nextEdge.rst with
  | true => exact ⟨_, step_reset hr⟩
  | false =>
    cases hb : s.phase.busy with
    | false => exact ⟨_, (step_notReady hr (.inl hb)).2⟩
    | true =>
      cases he : s.nextEdge.busy with
      | true => exact ⟨_, (step_notReady hr (.inr (.inl he))).2⟩
      | false =>
        cases hq : s.source with
        | nil => exact ⟨_, (step_notReady hr (.inr (.inr hq))).2⟩
        | cons p rest =>
          cases ht : p.token with
          | none => exact ⟨_, step_stalledSource hr hb he hq ht⟩
          | some tok =>
            have hfits := fun hp => (canEmit_of_inv (inv_atToken hs rest) hp).capacity
            exact ⟨_, (step_token hr hb he hq ht).trans (decoderStep_next tok hfits)⟩

/-! ## The bytes of a legal header -/

/-- `s` with the first `n` header bytes consumed, WIDTH and HEIGHT holding `w` and `h`. -/
def State.headerRead (s : State) (n : Nat) (w h : Word) : State :=
  { s with inOffset := BitVec.ofNat 64 n, width := w, height := h }

theorem headerRead_inOffset (s : State) {n : Nat} (w h : Word) (hn : n < 14) :
    (s.headerRead n w h).inOffset.toNat = n :=
  (BitVec.toNat_ofNat n 64).trans (Nat.mod_eq_of_lt (by omega))

/-- A header byte advances IN_OFFSET and then goes to the field of its offset (40_header.md R120). -/
theorem headerRead_step {s : State} (hp : s.phase = .header) {n : Nat} (w h : Word) (b : Byte) (hn : n < 14) :
    decoderStep (.byte b) (s.headerRead n w h) = .next (headerField n b (s.headerRead (n + 1) w h)) := by
  have hc : (s.headerRead n w h).countInput = s.headerRead (n + 1) w h := by
    have ho : sat64 ((s.headerRead n w h).inOffset.toNat + 1) = BitVec.ofNat 64 (n + 1) := by
      rw [headerRead_inOffset s w h hn, sat64, Nat.min_eq_left (by omega)]
    rw [State.countInput, ho]
    rfl
  rw [decoderStep_header (show (s.headerRead n w h).phase = .header from hp), headerStep,
    headerRead_inOffset s w h hn, hc]

theorem magic_steps {s : State} (hp : s.phase = .header) (w h : Word) :
    decoderSteps (magic.map .byte) (s.headerRead 0 w h) = .next (s.headerRead 4 w h) := by
  have hbyte : ∀ n < 4,
      decoderStep (.byte (magic.getD n 0)) (s.headerRead n w h) = .next (s.headerRead (n + 1) w h) := fun n hn => by
    rw [headerRead_step hp w h _ (by omega), headerField_magic _ _ (by omega), magicByte, if_neg (not_not.2 rfl)]
  have hm : magic = [magic.getD 0 0, magic.getD 1 0, magic.getD 2 0, magic.getD 3 0] := rfl
  rw [hm]
  simp only [List.map, decoderSteps, hbyte 0 (by decide), hbyte 1 (by decide), hbyte 2 (by decide), hbyte 3 (by decide),
    andThen_next]

/-- Four steps that each shift a byte into a field shift in a big-endian word; `f k x` is the state after `k` of its
bytes, the field holding `x` (20_memory.md R68). -/
theorem bigEndian_steps {f : Nat → Word → State} (x : Word)
    (h : ∀ k < 4, ∀ x b, decoderStep (.byte b) (f k x) = .next (f (k + 1) (shiftInByte x b))) :
    decoderSteps ((bigEndian x).map .byte) (f 0 0) = .next (f 4 x) := by
  simp only [bigEndian, List.map, decoderSteps, h 0 (by decide), h 1 (by decide), h 2 (by decide), h 3 (by decide),
    andThen_next, shiftIn_bigEndian]

theorem width_steps {s : State} (hp : s.phase = .header) (w h : Word) :
    decoderSteps ((bigEndian w).map .byte) (s.headerRead 4 0 h) = .next (s.headerRead 8 w h) :=
  bigEndian_steps (f := fun k x => s.headerRead (4 + k) x h) w fun k hk x b => by
    rw [headerRead_step hp x h b (by omega), headerField_width _ _ (by omega) (by omega)]
    rfl

theorem height_steps {s : State} (hp : s.phase = .header) (w h : Word) :
    decoderSteps ((bigEndian h).map .byte) (s.headerRead 8 w 0) = .next (s.headerRead 12 w h) :=
  bigEndian_steps (f := fun k x => s.headerRead (8 + k) w x) h fun k hk x b => by
    rw [headerRead_step hp w x b (by omega), headerField_height _ _ (by omega) (by omega)]
    rfl

/-- The 14 bytes of a legal header, from offset 0 with WIDTH = HEIGHT = 0. -/
theorem header_steps {s : State} (hp : s.phase = .header) (w h : Word) {ch cs : Byte} (hch : ch = 3 ∨ ch = 4)
    (hcs : cs = 0 ∨ cs = 1) :
    decoderSteps ((headerBytes w h ch cs).map .byte) (s.headerRead 0 0 0) =
      .next (headerDone { s.headerRead 14 w h with channels := ch, colorspace := cs }) := by
  have hchannel : decoderStep (.byte ch) (s.headerRead 12 w h) = .next { s.headerRead 13 w h with channels := ch } := by
    rw [headerRead_step hp w h ch (by decide), headerField_channel, channelByte, if_pos hch]
  have hcolor := headerRead_step (s := { s with channels := ch }) hp w h cs (n := 13) (by decide)
  rw [headerField_colorSpace, colorSpaceByte, if_pos hcs] at hcolor
  rw [headerBytes, List.map_append, List.map_append, List.map_append, decoderSteps_append, decoderSteps_append,
    decoderSteps_append, magic_steps hp, andThen_next, width_steps hp, andThen_next, height_steps hp, andThen_next]
  show andThen (decoderStep _ _) (decoderSteps [.byte cs]) = _
  rw [hchannel, andThen_next, decoderSteps_one]
  exact hcolor

theorem start_notBusy {s : State} (h : s.phase.busy = false) : s.start = s.started := by
  rw [State.start, h]
  rfl

/-- Settles O19: the four fields are read in turn, and the capacity check divides the two outcomes. -/
theorem legalHeaderIsParsed : Obligations.LegalHeaderIsParsed := by
  intro s w h ch cs hs hch hcs
  have hsteps := header_steps (started_phase s) w h hch hcs
  rw [start_notBusy hs]
  refine ⟨_, hsteps, ?_⟩
  rcases Nat.lt_or_ge s.fbBytes (w.toNat * h.toNat * ch.toNat) with hexceeds | hfits
  · rw [headerDone_exceeds hexceeds]
    exact ⟨rfl, rfl, rfl, rfl, rfl, rfl, expected_exact w h, fun hle => absurd hexceeds (Nat.not_lt.2 hle),
      fun _ => ⟨rfl, rfl, rfl, rfl, rfl, rfl⟩⟩
  · rw [headerDone_fits hfits]
    exact ⟨rfl, rfl, rfl, rfl, rfl, rfl, expected_exact w h, fun _ => ⟨rfl, rfl, rfl⟩,
      fun hlt => absurd hfits (Nat.not_le.2 hlt)⟩

/-! ## What the host reads -/

theorem hostReads_fbRdata {e : Edge} {a : Nat} (s : State) (h : e.fbRaddr = some a) :
    (hostReads e s).fbRdata = fbPortRead s (a % 2 ^ fbAddrWidth s.fbBytes) := by
  unfold hostReads
  rw [h]

theorem hostAccess_readPorts (e : Edge) (s : State) :
    (hostAccess e s).regRdata = (hostReads e s).regRdata ∧ (hostAccess e s).fbRdata = (hostReads e s).fbRdata := by
  rw [hostAccess_eq]
  split
  · exact ⟨rfl, rfl⟩
  · exact ⟨rfl, rfl⟩

/-- After an edge without reset the two ports hold what the host read before anything of the edge happened. -/
theorem step_readPorts {s t : State} (h : step s = .next t) (hr : s.nextEdge.rst = false) :
    t.regRdata = (hostReads s.nextEdge s.popEdge).regRdata
      ∧ t.fbRdata = (hostReads s.nextEdge s.popEdge).fbRdata := by
  have hports := hostAccess_readPorts s.nextEdge s.popEdge
  rcases step_cases h with ⟨hr', -⟩ | ⟨-, -, -, p, rest, tok, -, -, -, hd⟩
    | ⟨-, -, -, -, p, rest, -, rfl⟩ | ⟨-, -, rfl⟩
  · exact absurd (hr.symm.trans hr') (by decide)
  · rw [decoderStep_eq_next hd, stepped_keeps]
    exact hports
  · exact hports
  · exact hports

theorem hostAccess_read {e : Edge} (s : State) (h : e.regWe = false) : hostAccess e s = hostReads e s := by
  rw [hostAccess, if_neg (by simp [h])]

/-- Settles O42: the ports hold what was read before the edge, and an edge without a write and without a token is those
reads alone. -/
theorem readsHaveNoSideEffect : Obligations.ReadsHaveNoSideEffect := by
  intro s t h hr
  obtain ⟨hreg, hfb⟩ := step_readPorts h hr
  refine ⟨fun hre => hreg.trans (if_pos hre), fun a ha hlt => ?_, fun hwe hq => ?_⟩
  · rw [hfb, hostReads_fbRdata s.popEdge ha]
    exact congrArg (fbPortRead s) (Nat.mod_eq_of_lt (fbAddr_fits hlt))
  · have ht := h.symm.trans (step_notReady hr hq).2
    rw [hostAccess_read s.popEdge hwe] at ht
    rw [Host.Outcome.next.inj ht]
    rfl

/-- Settles O43: the port compares the address with FB_BYTES, and the result of a DONE decode lies below it. -/
theorem framebufferPortShowsTheResult : Obligations.FramebufferPortShowsTheResult := by
  intro s a
  refine ⟨fun ha => if_neg (Nat.not_lt.2 ha), fun hs hp ha => ?_⟩
  obtain ⟨haccepted, -⟩ := hs.done hp
  have hin : inResult s a = true := by simp [inResult, hp, ha]
  rw [fbPortRead, if_pos (lt_of_lt_of_le ha haccepted.capacity), if_pos hin]

/-! ## The tokens a step takes -/

theorem token_eof {p : InPins} (h : p.eof = true) : p.token = some .eof := by
  rw [InPins.token, if_pos h]

theorem token_byte {p : InPins} (h : p.eof = false) (hv : p.valid = true) : p.token = some (.byte p.data) := by
  rw [InPins.token, if_neg (by simp [h]), if_pos hv]

theorem token_none {p : InPins} (h : p.eof = false) (hv : p.valid = false) : p.token = none := by
  rw [InPins.token, if_neg (by simp [h]), if_neg (by simp [hv])]

/-- EOF in HEADER or PAYLOAD always answers, in ERROR. -/
theorem decoderStep_eof {s : State} (h : s.phase.busy = true) :
    decoderStep .eof s = .next (s.raise .endOfInput 0 s.inOffset 0) := by
  rcases (busy_iff s.phase).1 h with hp | hp
  · exact decoderStep_header hp
  · exact decoderStep_payload hp

/-- Settles O55: the pins give the token, and where the decoder can take it the step is the decoder step on it. -/
theorem tokensAreTakenFromThePins : Obligations.TokensAreTakenFromThePins := by
  intro s hr v
  refine ⟨fun p rest hp he hq => ?_, fun h => ?_⟩
  · have hb := (busy_iff s.phase).2 hp
    have hc := consumedToken_ready hr hb he hq
    refine ⟨fun heof => ?_, fun heof hv => ?_, fun heof hv => ?_⟩
    · have ht := token_eof heof
      have hstep := step_token hr hb he hq ht
      have hbusy : (s.atToken rest).phase.busy = true := by rw [atToken_busy rest hb]; exact hb
      exact ⟨hc.trans ht, hstep, _, hstep.trans (decoderStep_eof hbusy), rfl, rfl⟩
    · have ht := token_byte heof hv
      exact ⟨hc.trans ht, step_token hr hb he hq ht⟩
    · have ht := token_none heof hv
      exact ⟨hc.trans ht, step_stalledSource hr hb he hq ht⟩
  · obtain ⟨hc, hstep⟩ := step_notReady hr (h.imp_left (not_busy_iff s.phase).2)
    exact ⟨hc, hstep, hostAccess_source s.nextEdge s.popEdge⟩

/-! ## A step runs the decoded operation -/

/-- Where a byte completes the operation `i`, releasing it is taking the byte, `exec i`, and the count. -/
theorem release_completes {s : State} {b : Byte} {i : Instr}
    (hneed : s.opNeed.toNat ≠ 0 → s.opNeed.toNat = opNeedOf s.opLead)
    (hgot : s.opNeed.toNat ≠ 0 → s.opGot.toNat < s.opNeed.toNat) (hd : decode (openBytes s ++ [b]) = .ok (i, [])) :
    release b s = andThen (exec i (if s.opNeed = 0 then s.countPayload.takeLead b else s.countPayload.takeTrailing b))
      fun t => .next t.countOp := by
  obtain ⟨hbyte, hop⟩ := open_complete (s := s.countPayload) hneed hgot hd
  rw [countPayload_opNeed] at hbyte hop
  rw [release, hbyte, complete, hop]

/-- Settles O6: the extractor releases the byte, which completes the open operation. -/
theorem stepRunsTheDecodedOperation : Obligations.StepRunsTheDecodedOperation := by
  intro s p rest b i hs hp hr he hq ht hz hd v u
  have hb : s.phase.busy = true := by rw [hp]; rfl
  have hw := atToken_busy rest hb
  have hv : v = (s.atToken rest).countInput.countPayload := by
    rw [hw]
    simp only [v, hostAccess_busy (s := s.popEdge) s.nextEdge hb]
    rfl
  have hn : (s.atToken rest).countInput.opNeed = s.opNeed := by rw [hw]; rfl
  have hopen : openBytes (s.atToken rest).countInput = openBytes s := by rw [hw]; rfl
  have hi := inv_atToken hs rest
  have hrel := release_completes (s := (s.atToken rest).countInput) (b := b) (i := i) hi.opNeedOfLead hi.opGot
    (by rw [hopen]; exact hd)
  rw [hn, ← hv] at hrel
  exact (step_releases hp hr he hq ht hz).trans hrel

end Sys2Proof.Machine
end

section
/-! PROOFS. The family 30_encoding: encoding and decoding undo each other, the leading-byte map, and RUNX. -/

namespace Sys2Proof

/-! ## Each kind's decode rule -/

section DecodeRule
variable {lead : Byte} (tb : Vector Byte 4)

theorem decodeOp_rgb (h : opKind lead = .rgb) : decodeOp lead tb = .rgb tb[0] tb[1] tb[2] := by
  rw [decodeOp, h]

theorem decodeOp_rgba (h : opKind lead = .rgba) : decodeOp lead tb = .rgba tb[0] tb[1] tb[2] tb[3] := by
  rw [decodeOp, h]

theorem decodeOp_index (h : opKind lead = .index) : decodeOp lead tb = .index (tagPayload lead).toFin := by
  rw [decodeOp, h]

theorem decodeOp_diff (h : opKind lead = .diff) :
    decodeOp lead tb = .diff (biased (lead.extractLsb' 0 2) (-2)) (biased (lead.extractLsb' 2 2) (-2))
      (biased (lead.extractLsb' 4 2) (-2)) := by
  rw [decodeOp, h]

theorem decodeOp_luma (h : opKind lead = .luma) :
    decodeOp lead tb = .luma (biased (tagPayload lead) (-32)) (biased (tb[0].extractLsb' 0 4) (-8))
      (biased (tb[0].extractLsb' 4 4) (-8)) := by
  rw [decodeOp, h]

theorem decodeOp_run (h : opKind lead = .run) : decodeOp lead tb = .run ((tagPayload lead).toNat + 1) := by
  rw [decodeOp, h]

end DecodeRule

/-! ## Decoding what was encoded -/

theorem inRange_iff {lo hi x : Int} : inRange lo hi x = true ↔ lo ≤ x ∧ x ≤ hi := by
  simp [inRange]

/-- A leading byte and the trailing bytes it announces decode to `DecodeOp` of them, and what follows is left. -/
theorem decode_of_need {lead : Byte} {tl : List Byte} (h : tl.length = opNeedOf lead) (rest : List Byte) :
    decode (lead :: tl ++ rest) = .ok (decodeOp lead (trailingBytes tl), rest) := by
  have hop : decodeOp lead (trailingBytes (tl ++ rest)) = decodeOp lead (trailingBytes tl) := by
    apply decodeOp_congr
    intro k hk
    rw [Machine.trailingBytes_get, Machine.trailingBytes_get, List.getD_append _ _ _ _ (by omega)]
  rw [List.cons_append, decode, if_neg (by rw [List.length_append]; omega), hop, ← h, List.drop_left]

/-- Every well-formed operation is a leading byte with the trailing bytes it announces. -/
theorem encodedLength : ∀ i : Instr, Laws.EncodedLength.Statement i
  | .rgb r g b => Laws.EncodedLength.rgb r g b
  | .rgba r g b a => Laws.EncodedLength.rgba r g b a
  | .index slot => Laws.EncodedLength.index slot
  | .diff dr dg db => Laws.EncodedLength.diff dr dg db
  | .luma dg drDg dbDg => Laws.EncodedLength.luma dg drDg dbDg
  | .run length => Laws.EncodedLength.run length

theorem trailingBytes_first (b : Byte) (bs : List Byte) : (trailingBytes (b :: bs))[0] = b := rfl

/-- The fields of a well-formed operation's bytes read back as its operands. -/
theorem decodeOp_of_encode {i : Instr} {lead : Byte} {tl : List Byte} (h : i.wf = true) (he : encode i = lead :: tl) :
    decodeOp lead (trailingBytes tl) = i := by
  cases i <;> obtain ⟨rfl, rfl⟩ := List.cons.inj he
  case rgb r g b => exact decodeOp_rgb _ rfl
  case rgba r g b a => exact decodeOp_rgba _ rfl
  case index slot =>
    obtain ⟨hk, hp⟩ := indexLead_fields (BitVec.ofFin (w := 6) slot)
    rw [decodeOp_index _ hk, hp]
  case diff dr dg db =>
    simp only [Instr.wf, Bool.and_eq_true, inRange_iff] at h
    obtain ⟨hk, h0, h2, h4⟩ := diffLead_fields (rawField 2 db (-2)) (rawField 2 dg (-2)) (rawField 2 dr (-2))
    rw [decodeOp_diff _ hk, h0, h2, h4, biased_rawField (by omega) (by omega), biased_rawField (by omega) (by omega),
      biased_rawField (by omega) (by omega)]
  case luma dg drDg dbDg =>
    simp only [Instr.wf, Bool.and_eq_true, inRange_iff] at h
    obtain ⟨hk, hp⟩ := lumaLead_fields (rawField 6 dg (-32))
    obtain ⟨hlo, hhi⟩ := lumaByte_fields (rawField 4 dbDg (-8)) (rawField 4 drDg (-8))
    rw [decodeOp_luma _ hk, hp, trailingBytes_first, hlo, hhi, biased_rawField (by omega) (by omega),
      biased_rawField (by omega) (by omega), biased_rawField (by omega) (by omega)]
  case run length =>
    simp only [Instr.wf, Bool.and_eq_true, decide_eq_true_eq] at h
    have hn : (BitVec.ofNat 6 (length - 1)).toNat = length - 1 := Nat.mod_eq_of_lt (by omega)
    obtain ⟨hk, hp⟩ := runLead_fields (BitVec.ofNat 6 (length - 1)) (by omega)
    rw [decodeOp_run _ hk, hp, hn, Nat.sub_add_cancel h.1]

/-- Settles O1: the bytes are a leading byte with the trailing bytes it announces, and their fields read back. -/
theorem decodingAnEncodedOperationGivesItBack : Obligations.DecodingAnEncodedOperationGivesItBack := by
  intro i rest h
  obtain ⟨lead, tl, he, hl⟩ := encodedLength i h
  rw [he, decode_of_need hl, decodeOp_of_encode h he]

/-! ## Encoding what was decoded -/

theorem biased_inRange {n : Nat} (raw : BitVec n) {bias hi : Int} (h : 2 ^ n + bias ≤ hi + 1) :
    inRange bias hi (biased raw bias) = true := by
  have : (raw.toNat : Int) < 2 ^ n := by exact_mod_cast raw.isLt
  rw [inRange_iff, biased]
  omega

/-- Whatever the bytes, `DecodeOp` answers operands the encoding can hold. -/
theorem decodeOp_wf (lead : Byte) (tb : Vector Byte 4) : (decodeOp lead tb).wf = true := by
  cases hk : opKind lead with
  | rgb => rw [decodeOp_rgb tb hk]; rfl
  | rgba => rw [decodeOp_rgba tb hk]; rfl
  | index => rw [decodeOp_index tb hk]; rfl
  | diff =>
    rw [decodeOp_diff tb hk]
    simp only [Instr.wf, biased_inRange (n := 2) (bias := -2) (hi := 1) _ (by decide), Bool.and_true]
  | luma =>
    rw [decodeOp_luma tb hk]
    simp only [Instr.wf, biased_inRange (n := 6) (bias := -32) (hi := 31) _ (by decide),
      biased_inRange (n := 4) (bias := -8) (hi := 7) _ (by decide), Bool.and_true]
  | run =>
    obtain ⟨-, -, -, -, -, hrun⟩ := lead_of_fields lead
    have hp := (hrun hk).2
    rw [decodeOp_run tb hk]
    simp only [Instr.wf, Bool.and_eq_true, decide_eq_true_eq]
    omega

theorem toList_four : ∀ tb : Vector Byte 4, tb.toList = [tb[0], tb[1], tb[2], tb[3]]
  | ⟨⟨[_, _, _, _]⟩, _⟩ => rfl

/-- The encoding of what `DecodeOp` answers is the leading byte and the trailing bytes that byte announces. -/
theorem encode_decodeOp (lead : Byte) (tb : Vector Byte 4) :
    encode (decodeOp lead tb) = lead :: tb.toList.take (opNeedOf lead) := by
  obtain ⟨hrgb, hrgba, hindex, hdiff, hluma, hrun⟩ := lead_of_fields lead
  rw [toList_four tb]
  cases hk : opKind lead with
  | rgb => rw [decodeOp_rgb _ hk, opNeedOf, hk, hrgb hk]; rfl
  | rgba => rw [decodeOp_rgba _ hk, opNeedOf, hk, hrgba hk]; rfl
  | index =>
    rw [decodeOp_index _ hk, opNeedOf, hk]
    exact congrArg (· :: []) (hindex hk).symm
  | diff =>
    rw [decodeOp_diff _ hk, opNeedOf, hk, encode, rawField_biased, rawField_biased, rawField_biased, ← hdiff hk]
    rfl
  | luma =>
    rw [decodeOp_luma _ hk, opNeedOf, hk, encode, rawField_biased, rawField_biased, rawField_biased, ← hluma hk,
      lumaByte_of_fields]
    rfl
  | run =>
    rw [decodeOp_run _ hk, opNeedOf, hk, encode, Nat.add_sub_cancel, BitVec.ofNat_toNat, BitVec.setWidth_eq,
      ← (hrun hk).1]
    rfl

theorem trailingBytes_take {n : Nat} {bs : List Byte} (h : n ≤ bs.length) (hn : n ≤ 4) :
    (trailingBytes bs).toList.take n = bs.take n := by
  apply List.ext_getElem
  · rw [List.length_take, List.length_take, Vector.length_toList]
    omega
  · intro k _ hk
    rw [List.length_take] at hk
    have hget := Machine.trailingBytes_get bs ⟨k, by omega⟩
    rw [List.getElem_take, List.getElem_take, Vector.getElem_toList]
    exact hget.trans (List.getD_eq_getElem _ _ _)

/-- Settles O2: the bytes read are the leading byte and its trailing bytes, which `encode` gives back. -/
theorem decodedBytesAreTheEncodedOperation : Obligations.DecodedBytesAreTheEncodedOperation := by
  intro bs rest i h
  cases bs with
  | nil => cases h
  | cons lead tl =>
    rw [decode] at h
    split at h
    · cases h
    · next hlen =>
      obtain ⟨rfl, rfl⟩ := Prod.mk.inj (Except.ok.inj h)
      refine ⟨decodeOp_wf lead _, ?_⟩
      rw [encode_decodeOp, trailingBytes_take (Nat.not_lt.1 hlen) (opNeedOf_le lead), List.cons_append,
        List.take_append_drop]

/-! ## The leading-byte map -/

theorem shortTag_toNat (c : Byte) : (shortTag c).toNat = c.toNat / 64 := by
  have := c.isLt
  rw [shortTag, BitVec.extractLsb'_toNat, Nat.shiftRight_eq_div_pow]
  omega

theorem tagPayload_toNat (c : Byte) : (tagPayload c).toNat = c.toNat % 64 := by
  rw [tagPayload, BitVec.extractLsb'_toNat, Nat.shiftRight_zero]

theorem and_payloadMask_toNat (c : Byte) : (c &&& 0x3F).toNat = c.toNat % 64 := by
  rw [BitVec.toNat_and]
  exact Nat.and_two_pow_sub_one_eq_mod c.toNat 6

/-- Below the two full-byte tags the short tag decides (30_encoding.md R94). -/
theorem opKind_of_short {c : Byte} (h : c.toNat ≤ 0xFD) :
    opKind c = if c.toNat / 64 = 0 then .index else if c.toNat / 64 = 1 then .diff
      else if c.toNat / 64 = 2 then .luma else .run := by
  have hFE : c ≠ 0xFE := by rintro rfl; revert h; decide
  have hFF : c ≠ 0xFF := by rintro rfl; revert h; decide
  rw [opKind, if_neg hFE, if_neg hFF]
  simp only [← BitVec.toNat_inj, shortTag_toNat]
  rfl

/-- Settles O3: the short tag is the byte divided by 64, and each operand field is a quotient's remainder. -/
theorem leadingByteMapCoversEveryByte : Obligations.LeadingByteMapCoversEveryByte := by
  intro lead tb
  refine ⟨fun h => ?_, fun h => ?_, fun h => ?_, fun h => ?_, ?_, ?_⟩
  · have hk : opKind lead = .index := by rw [opKind_of_short (by omega), if_pos (by omega)]
    exact ⟨by rw [opNeedOf, hk]; rfl, _, decodeOp_index tb hk,
      (tagPayload_toNat lead).trans (and_payloadMask_toNat lead).symm⟩
  · have hk : opKind lead = .diff := by rw [opKind_of_short (by omega), if_neg (by omega), if_pos (by omega)]
    refine ⟨by rw [opNeedOf, hk]; rfl, (decodeOp_diff tb hk).trans ?_⟩
    simp [biased, Nat.shiftRight_eq_div_pow, Int.sub_eq_add_neg]
  · have hk : opKind lead = .luma := by
      rw [opKind_of_short (by omega), if_neg (by omega), if_neg (by omega), if_pos (by omega)]
    have hb : tb[0].toNat / 16 % 16 = tb[0].toNat / 16 := Nat.mod_eq_of_lt (by have := tb[0].isLt; omega)
    refine ⟨by rw [opNeedOf, hk]; rfl, (decodeOp_luma tb hk).trans ?_⟩
    rw [← hb]
    simp [biased, tagPayload_toNat, Nat.shiftRight_eq_div_pow, Int.sub_eq_add_neg]
  · have hk : opKind lead = .run := by
      rw [opKind_of_short (by omega), if_neg (by omega), if_neg (by omega), if_neg (by omega)]
    refine ⟨by rw [opNeedOf, hk]; rfl, ?_⟩
    rw [decodeOp_run tb hk, tagPayload_toNat, and_payloadMask_toNat]
  · rintro rfl
    exact ⟨rfl, decodeOp_rgb tb rfl⟩
  · rintro rfl
    exact ⟨rfl, decodeOp_rgba tb rfl⟩

end Sys2Proof

namespace Sys2Proof.Machine

/-! ## RUNX -/

theorem emittedAll_keeps (out : List Pixel) (s : State) :
    (s.emittedAll out).cache = s.cache ∧ (s.emittedAll out).prev = s.prev
      ∧ (s.emittedAll out).prevValid = s.prevValid ∧ (s.emittedAll out).mp = s.mp := by
  rw [emittedAll_only out s]
  exact ⟨rfl, rfl, rfl, rfl⟩

/-- Runs one after another emit PREV as often as their lengths sum to. -/
theorem execAll_runs : ∀ (lengths : List Nat) {s : State}, CanEmit s → s.mp = false → s.prevValid = true →
    execAll (lengths.map .run) s = .next (s.emittedAll (List.replicate lengths.sum s.prev))
  | [], _, _, _, _ => rfl
  | n :: lengths, s, h, hm, hp => by
    obtain ⟨-, hprev, hvalid, hmp⟩ := emittedAll_keeps (List.replicate n s.prev) s
    have hrun : exec (.run n) s = .next (s.emittedAll (List.replicate n s.prev)) := by
      rw [exec_next _ h.capacity, executed_ruled hm fun _ => hp, ruled_run]
    rw [List.map_cons, execAll, hrun, andThen_next,
      execAll_runs lengths (emittedAll_canEmit _ h) (hmp.trans hm) (hvalid.trans hp), hprev, List.sum_cons,
      List.replicate_add, emittedAll_append]

/-- The lengths of the Run operations RUNX expands to. -/
def runxLengths (n : Nat) : List Nat :=
  List.replicate (n / 62) 62 ++ if n % 62 = 0 then [] else [n % 62]

theorem runx_eq_map (n : Nat) : runx n = (runxLengths n).map .run := by
  rw [runx, runxLengths, List.map_append, List.map_replicate, apply_ite (List.map Instr.run)]
  rfl

theorem runxLengths_sum (n : Nat) : (runxLengths n).sum = n := by
  have hdiv := Nat.div_add_mod' n 62
  rw [runxLengths, List.sum_append, List.sum_replicate, smul_eq_mul]
  split <;> simp <;> omega

theorem runx_wf (n : Nat) : ∀ i ∈ runx n, i.wf = true := by
  intro i hi
  rcases List.mem_append.1 hi with hi | hi
  · rw [List.eq_of_mem_replicate hi]
    rfl
  · split at hi
    · cases hi
    · rw [List.mem_singleton.1 hi]
      simp only [Instr.wf, Bool.and_eq_true, decide_eq_true_eq]
      omega

/-- Settles O5: the expansion is Run operations whose lengths sum to n. -/
theorem runxEmitsThatManyCopies : Obligations.RunxEmitsThatManyCopies := by
  intro n s _ h hm hp
  obtain ⟨hcache, hprev, hvalid, hmp⟩ := emittedAll_keeps (List.replicate n s.prev) s
  refine ⟨runx_wf n, s.emittedAll (List.replicate n s.prev), ?_, emits_emittedAll h _, ruled_only s (.run n), hcache,
    hprev, hvalid.trans hp, hmp.trans hm⟩
  rw [runx_eq_map, execAll_runs _ h hm hp, runxLengths_sum]

end Sys2Proof.Machine
end

section
/-! PROOFS. The family 40_header: what each header byte does, EOF, and that a payload step only passes COLORSPACE on. -/

namespace Sys2Proof.Machine

open Sys2Proof

/-! ## COLORSPACE in PAYLOAD -/

/-- Releasing does not look at COLORSPACE. -/
theorem releaseAll_colorspace (bs : List Byte) (s : State) (cs : Byte) :
    releaseAll bs { s with colorspace := cs } =
      andThen (releaseAll bs s) fun t => .next { t with colorspace := cs } := by
  refine (releaseAll_streamOver { s with colorspace := cs } bs s).trans ?_
  cases h : releaseAll bs s with
  | next t =>
    have honly : OnlyReleaseState s t := releaseAll_eq_next h ▸ releasedAll_only bs s
    rw [andThen_next, andThen_next, honly]
    rfl
  | fault r => rfl
  | refused r => rfl

/-- The checks of Finish do not look at COLORSPACE. -/
theorem finish_colorspace (m : U64) (s : State) (cs : Byte) :
    finish m { s with colorspace := cs } = { finish m s with colorspace := cs } := by
  unfold finish
  dsimp only
  split
  · rfl
  split
  · rfl
  split <;> rfl

theorem zpend_full {zeros : BitVec 3} (h : 7 ≤ zeros.toNat) : zeros = 7 :=
  BitVec.eq_of_toNat_eq (Nat.le_antisymm (Nat.le_of_lt_succ zeros.isLt) h)

/-- In PAYLOAD a decoder step passes COLORSPACE on and reads it nowhere (40_header.md R129): in each of the extractor's
cases only releasing and Finish could. -/
theorem decoderStep_colorspace {s : State} (tok : Token) (cs : Byte) (hp : s.phase = .payload) :
    decoderStep tok { s with colorspace := cs } =
      andThen (decoderStep tok s) fun t => .next { t with colorspace := cs } := by
  have hp' : ({ s with colorspace := cs } : State).phase = .payload := hp
  cases tok with
  | eof => rw [decoderStep_payload hp, decoderStep_payload hp']; rfl
  | byte b =>
    by_cases hb : b = 0
    · subst hb
      by_cases hz : s.zpend.toNat < 7
      · rw [extractor_hold hp hz, extractor_hold hp' hz]
        rfl
      · have hz7 := zpend_full (Nat.not_lt.1 hz)
        rw [extractor_shift hp hz7, extractor_shift hp' hz7, releaseAll_colorspace, andThen_assoc, andThen_assoc]
        rfl
    · by_cases hm : b = 1 ∧ s.zpend = 7
      · obtain ⟨rfl, hz7⟩ := hm
        rw [extractor_marker hp hz7, extractor_marker hp' hz7, andThen_next, ← finish_colorspace]
        rfl
      · rw [extractor_flush hp hb hm, extractor_flush hp' hb hm, releaseAll_colorspace, andThen_assoc, andThen_assoc]
        rfl

/-- Settles O54: a payload step with another COLORSPACE is the same step, that COLORSPACE put back at its end. -/
theorem colorSpaceHasNoEffect : Obligations.ColorSpaceHasNoEffect := by
  intro s t tok cs hp h
  rw [decoderStep_colorspace tok cs hp, h, andThen_next]

/-! ## Header bytes -/

/-- A header byte advances IN_OFFSET, which is far from saturating, and goes to the field of its offset (40_header.md
R120). -/
theorem headerByte_step {s : State} (b : Byte) (hp : s.phase = .header) {pos : Nat} (ho : s.inOffset.toNat = pos)
    (h : pos ≤ 13) :
    decoderStep (.byte b) s = .next (headerField pos b { s with inOffset := s.inOffset + 1 }) := by
  rw [decoderStep_header hp, headerStep, State.countInput, sat64_succ (by omega), ho]

/-- Settles O20: at offsets 0 to 3 the byte is a magic byte. -/
theorem magicIsComparedByteByByte : Obligations.MagicIsComparedByteByByte := by
  intro s b hp ho
  have hstep := headerByte_step b hp rfl (by omega)
  rw [headerField_magic _ _ ho, magicByte] at hstep
  refine ⟨rfl, fun hne => ?_, fun heq => ?_⟩
  · rw [hstep, if_pos hne, BitVec.ofNat_toNat, BitVec.setWidth_eq]
    rfl
  · rw [hstep, if_neg (not_not.2 heq)]

/-- Settles O21: the byte is shifted into WIDTH at offsets 4 to 7, into HEIGHT at 8 to 11. -/
theorem dimensionBytesShiftIn : Obligations.DimensionBytesShiftIn := fun s b hp =>
  ⟨fun ⟨hlo, hhi⟩ => ⟨_, widthByte_step b hp hlo hhi, shiftInByte_toNat s.width b⟩,
    fun ⟨hlo, hhi⟩ => ⟨_, heightByte_step b hp hlo hhi, shiftInByte_toNat s.height b⟩⟩

/-- Settles O22: at offset 12 the byte is the channel byte, and 3 and 4 are legal. -/
theorem channelByteIsChecked : Obligations.ChannelByteIsChecked := by
  intro s b hp ho
  have hpos : s.inOffset.toNat = 12 := congrArg BitVec.toNat ho
  have hstep := headerByte_step b hp hpos (by decide)
  rw [headerField_channel, channelByte, ho] at hstep
  refine ⟨fun hlegal => ?_, fun hillegal => ?_⟩
  · rw [hstep, if_pos hlegal]
    rfl
  · rw [hstep, if_neg (not_or.2 hillegal)]
    rfl

/-- Settles O23: at offset 13 the byte is the color space byte; a legal one ends the header with the capacity check on
the exact product. -/
theorem colorSpaceByteEndsTheHeader : Obligations.ColorSpaceByteEndsTheHeader := by
  intro s b hp ho
  have hpos : s.inOffset.toNat = 13 := congrArg BitVec.toNat ho
  have hstep := headerByte_step b hp hpos (by decide)
  rw [headerField_colorSpace, colorSpaceByte, ho] at hstep
  refine ⟨fun hillegal => ?_, fun hlegal => ?_⟩
  · rw [hstep, if_neg (not_or.2 hillegal)]
    rfl
  · have hexact := expected_exact s.width s.height
    rw [if_pos hlegal] at hstep
    refine ⟨_, hexact, fun hfits => ?_, fun hexceeds => ?_⟩
    · rw [hexact] at hfits
      exact hstep.trans
        (congrArg _ (headerDone_fits (s := { s with inOffset := 14, colorspace := b }) hfits))
    · rw [hexact] at hexceeds
      exact hstep.trans
        (congrArg _ (headerDone_exceeds (s := { s with inOffset := 14, colorspace := b }) hexceeds))

/-- Settles O24: in both phases EOF raises before anything else is looked at. -/
theorem eofRaisesEndOfInput : Obligations.EofRaisesEndOfInput := fun s hp =>
  decoderStep_eof ((busy_iff s.phase).2 hp)

end Sys2Proof.Machine
end

section
/-! PROOFS. The family 41_stream_extractor: what the extractor releases of a payload and of a run of zeros, and where it
runs Finish. -/

namespace Sys2Proof.Machine

/-! ## Where an end marker can end -/

/-- Bytes without 0x01 hold no end marker. -/
theorem not_endMarker_suffix_of_zeros {k : Nat} {q : List Byte} (hq : q <+: List.replicate k 0) : ¬ endMarker <:+ q :=
  fun hs =>
    have hone : (1 : Byte) ∈ List.replicate k 0 := hq.subset (hs.subset (by decide))
    absurd (List.eq_of_mem_replicate hone) (by decide)

/-- An end marker at the end of zeros and one byte takes seven of the zeros and 0x01. -/
theorem endMarker_suffix_zeros_concat {k : Nat} {x : Byte} (h : endMarker <:+ List.replicate k 0 ++ [x]) :
    7 ≤ k ∧ x = 1 := by
  obtain ⟨r, hr⟩ := h
  have hsplit : (r ++ List.replicate 7 0) ++ [1] = List.replicate k 0 ++ [x] := by
    rw [List.append_assoc]
    exact hr
  obtain ⟨hzeros, hlast⟩ := List.append_inj' hsplit rfl
  have hlen := congrArg List.length hzeros
  rw [List.length_append, List.length_replicate, List.length_replicate] at hlen
  exact ⟨by omega, (List.cons.inj hlast).1.symm⟩

/-- Zeros and one byte hold no end marker, unless seven zeros precede 0x01. -/
theorem not_endMarker_suffix_of_zeros_concat {k : Nat} {x : Byte} (h : k < 7 ∨ x ≠ 1) {q : List Byte}
    (hq : q <+: List.replicate k 0 ++ [x]) : ¬ endMarker <:+ q := by
  rcases List.prefix_concat_iff.1 hq with rfl | hzeros
  · intro hs
    obtain ⟨hk, hx⟩ := endMarker_suffix_zeros_concat hs
    exact h.elim (Nat.not_lt.2 hk) fun hne => hne hx
  · exact not_endMarker_suffix_of_zeros hzeros

/-- Before its last byte, a sequence whose first end marker is its last eight bytes holds none. -/
theorem not_endMarker_suffix_of_firstMarkerIsLast {payload : List Byte} (h : firstMarkerIsLast (payload ++ endMarker))
    {q : List Byte} (hq : q <+: payload ++ List.replicate 7 0) : ¬ endMarker <:+ q := by
  intro hs
  have hshort : payload ++ List.replicate 7 0 <+: payload ++ endMarker := ⟨[1], List.append_assoc _ _ _⟩
  have hlen := hq.length_le
  rw [h q (hq.trans hshort) hs, List.length_append, List.length_append] at hlen
  exact absurd hlen (by simp [endMarker])

/-! ## What the extractor does on a whole sequence -/

/-- What follows a sequence's first part matters only on the states that part answers. -/
theorem andThen_congr {o : Result} {f g : State → Result} (h : ∀ t, o = .next t → f t = g t) :
    andThen o f = andThen o g := by
  cases o with
  | next t => exact h t rfl
  | fault r => rfl
  | refused r => rfl

/-- Writing 0 to a ZPEND that is 0 changes nothing. -/
theorem update_zpend_zero {s : State} (hz : s.zpend = 0) (offset : U64) :
    { s with inOffset := offset, zpend := 0 } = { s with inOffset := offset } := by
  rw [← hz]

/-- After a non-zero byte nothing is held back. -/
theorem extractFold_concat_of_ne_zero (y : List Byte) {x : Byte} (hx : x ≠ 0) :
    extractFold (y ++ [x]) = (y ++ [x], 0) := by
  rw [extractFold_concat, if_neg hx, ← (extractFold_spec y).1]

/-- Bytes that hold no end marker and end in a non-zero one are released, all of them. -/
theorem decoderSteps_released {s : State} (hp : s.phase = .payload) (hz : s.zpend = 0) (y : List Byte) {x : Byte}
    (hx : x ≠ 0) (hfree : ∀ q, q <+: y ++ [x] → ¬ endMarker <:+ q) :
    decoderSteps ((y ++ [x]).map .byte) s = andThen (releaseAll (y ++ [x]) s) fun t =>
      .next { t with inOffset := sat64 (s.inOffset.toNat + y.length + 1) } := by
  rw [extract_run hp hz (y ++ [x]) hfree, extractFold_concat_of_ne_zero y hx]
  refine andThen_congr fun t ht => ?_
  have hzt : t.zpend = 0 := by rw [releaseAll_eq_next ht, releasedAll_zpend, hz]
  rw [List.length_append, ← Nat.add_assoc]
  exact congrArg _ (update_zpend_zero hzt _)

/-- The 0x01 after seven held zeros runs Finish on the state before the zeros, IN_OFFSET aside. -/
theorem decoderStep_marker_of_held {s : State} (hp : s.phase = .payload) (hz : s.zpend = 0) (offset : U64) :
    decoderStep (.byte 1) { s with inOffset := offset, zpend := 7 } =
      .next (finish (markerOffset s) { s with inOffset := sat64 (offset.toNat + 1) }) := by
  rw [extractor_marker (s := { s with inOffset := offset, zpend := 7 }) hp rfl]
  exact congrArg (fun t => Host.Outcome.next (finish (markerOffset s) t)) (update_zpend_zero hz _)

/-- A payload and the first end marker: the payload is released, and Finish runs with the offset of the marker's first
byte (41_stream_extractor.md R141; 45_framebuffer.md R246). -/
theorem decoderSteps_finished {s : State} (hp : s.phase = .payload) (hz : s.zpend = 0) (payload : List Byte)
    (hfree : ∀ q, q <+: payload ++ List.replicate 7 0 → ¬ endMarker <:+ q) :
    decoderSteps ((payload ++ endMarker).map .byte) s = andThen (releaseAll payload s) fun t =>
      .next (finish (sat64 (14 + s.payloadLen.toNat + payload.length))
        { t with inOffset := sat64 (s.inOffset.toNat + payload.length + 8) }) := by
  have hsplit : payload ++ endMarker = (payload ++ List.replicate 7 0) ++ [1] :=
    (List.append_assoc payload (List.replicate 7 0) [1]).symm
  rw [hsplit, List.map_append, decoderSteps_append, extract_run hp hz _ hfree, extractFold_full rfl, andThen_assoc]
  refine andThen_congr fun t ht => ?_
  have hpt : t.phase = .payload := by rw [releaseAll_eq_next ht, releasedAll_phase, hp]
  have hzt : t.zpend = 0 := by rw [releaseAll_eq_next ht, releasedAll_zpend, hz]
  have hmarker : markerOffset t = sat64 (14 + s.payloadLen.toNat + payload.length) := by
    rw [releaseAll_eq_next ht, markerOffset_releasedAll]
  rw [andThen_next, List.map_singleton, decoderSteps_one]
  refine (decoderStep_marker_of_held hpt hzt _).trans ?_
  rw [hmarker, sat64_add, List.length_append, List.length_replicate]
  rfl

/-! ## The obligations -/

/-- Settles O26: of the payload and the marker's zeros all but the last seven zeros is released; 0x01 then completes the
marker. -/
theorem extractorReleasesExactlyThePayload : Obligations.ExtractorReleasesExactlyThePayload :=
  fun _ payload hp hz hfirst =>
    decoderSteps_finished hp hz payload fun _ hq => not_endMarker_suffix_of_firstMarkerIsLast hfirst hq

/-- Settles O27: zeros before any other byte are data; of at least seven before 0x01 the last seven begin the marker. -/
theorem zeroRunCases : Obligations.ZeroRunCases := by
  intro s k x hp hz hx
  refine ⟨fun hdata => ?_, fun hk hone => ?_⟩
  · have h := decoderSteps_released hp hz (List.replicate k 0) hx
      fun _ hq => not_endMarker_suffix_of_zeros_concat hdata hq
    rwa [List.length_replicate] at h
  · obtain ⟨n, rfl⟩ : ∃ n, k = n + 7 := ⟨k - 7, by omega⟩
    have hzeros : List.replicate (n + 7) (0 : Byte) = List.replicate n 0 ++ List.replicate 7 0 :=
      List.replicate_add n 7 0
    have h := decoderSteps_finished hp hz (List.replicate n 0)
      fun _ hq => not_endMarker_suffix_of_zeros (hzeros ▸ hq)
    rw [List.length_replicate] at h
    rw [hone, hzeros, List.append_assoc, Nat.add_sub_cancel]
    exact h

end Sys2Proof.Machine
end

section
/-! PROOFS. The family 42_op_decoder: the bytes of an operation execute it once, operations execute in payload order, and
a placed word is the operation the next step executes. -/

namespace Sys2Proof.Machine

/-- Settles O4: seven closed decodings. -/
theorem wordsOfTheSpecDecode : Obligations.WordsOfTheSpecDecode := by
  unfold Obligations.WordsOfTheSpecDecode
  decide

/-! ## One operation -/

/-- Below saturation a leading byte's position is 14 plus the bytes before it (42_op_decoder.md R163). -/
theorem leadOffset_countPayload {s : State} (h : 14 + s.payloadLen.toNat < 2 ^ 64 - 1) :
    (leadOffset s.countPayload).toNat = 14 + s.payloadLen.toNat := by
  have hlen : s.countPayload.payloadLen.toNat = s.payloadLen.toNat + 1 := by
    rw [countPayload_payloadLen, sat64_toNat]
    omega
  rw [leadOffset, hlen, if_pos (by omega), BitVec.toNat_ofNat]
  omega

/-- The bytes of a well-formed operation, released while none is open, are one `exec` of it and its count; before that
only PAYLOAD_LEN and the open operation's registers have changed. -/
theorem releaseAll_encode {i : Instr} {s : State} (hi : i.wf = true) (h : s.opNeed = 0) : ∃ u : State,
    releaseAll (encode i) s = andThen (exec i u) (fun t => .next t.countOp)
      ∧ u = { s with payloadLen := sat64 (s.payloadLen.toNat + (encode i).length), opLead := u.opLead,
                     opLeadPos := leadOffset s.countPayload, opNeed := u.opNeed, opGot := u.opGot, opTb := u.opTb } := by
  obtain ⟨lead, tl, he, hl⟩ := encodedLength i hi
  obtain ⟨u, hrun, hop, hu⟩ := releaseAll_operation h hl
  refine ⟨u, ?_, he ▸ hu⟩
  rw [he, hrun, complete, hop, decodeOp_of_encode hi he]

/-- Settles O8: the operation's last byte completes it, and OP_LEAD_POS is its leading byte's position. -/
theorem releasedOperationExecutesOnce : Obligations.ReleasedOperationExecutesOnce := by
  intro i s hi h
  obtain ⟨u, hrun, hu⟩ := releaseAll_encode hi h
  have hpos : u.opLeadPos = leadOffset s.countPayload := by rw [hu]
  refine ⟨u, hrun, ?_, fun hlt => ?_⟩
  · rw [hpos]
    exact hu
  · rw [hpos, leadOffset_countPayload hlt]

/-! ## Operations in sequence -/

/-- One operation's bytes, in an image that fits: the next state has executed the operation on the pixel state, whatever
the other fields are when the operation is executed on its own, and counted it. -/
theorem releaseAll_encode_next {i : Instr} {s : State} (hi : i.wf = true) (hs : CanEmit s) (h : s.opNeed = 0)
    (f : State) : ∃ t : State,
      releaseAll (encode i) s = .next t ∧ exec i (s.pixelsOver f) = .next (t.pixelsOver f) ∧ CanEmit t
        ∧ t.opCount = sat64 (s.opCount.toNat + 1)
        ∧ t.payloadLen = sat64 (s.payloadLen.toNat + (encode i).length) ∧ t.opNeed = 0 := by
  obtain ⟨u, hrun, hu⟩ := releaseAll_encode hi h
  have hpix : s.pixelsOver f = u.pixelsOver f := by rw [hu]; rfl
  have hus : CanEmit u := by rw [hu]; exact ⟨hs.channels, hs.capacity, hs.canonical⟩
  have hexec : exec i u = .next (u.executed i) := exec_next i hus.capacity
  obtain ⟨hchannels, hcapacity, hcanonical⟩ := executed_canEmit i hus
  refine ⟨(u.executed i).countOp, ?_, ?_, ⟨hchannels, hcapacity, hcanonical⟩, ?_, ?_, rfl⟩
  · rw [hrun, hexec, andThen_next]
  · rw [hpix, exec_pixelsOver, hexec, andThen_next]
    rfl
  · rw [countOp_opCount, executed_opCount, hu]
  · rw [countOp_payloadLen, executed_payloadLen, hu]

/-- The bytes of operations one after another: the pixel state is that of executing them in that order, and the counts
have grown by their number and their bytes. -/
theorem releaseAll_encodeAll (f : State) : ∀ (ops : List Instr) {s : State}, (∀ i ∈ ops, i.wf = true) → CanEmit s →
    s.opNeed = 0 → ∃ t : State,
      releaseAll (encodeAll ops) s = .next t ∧ execAll ops (s.pixelsOver f) = .next (t.pixelsOver f)
        ∧ t.opCount = sat64 (s.opCount.toNat + ops.length)
        ∧ t.payloadLen = sat64 (s.payloadLen.toNat + (encodeAll ops).length) ∧ t.opNeed = 0
  | [], s, _, _, h => ⟨s, rfl, rfl, (sat64_toNat_self _).symm, (sat64_toNat_self _).symm, h⟩
  | i :: ops, s, hwf, hs, h => by
    obtain ⟨hi, hops⟩ := List.forall_mem_cons.1 hwf
    obtain ⟨t, hrel, hexec, ht, hcount, hlen, hopen⟩ := releaseAll_encode_next hi hs h f
    obtain ⟨t', hrel', hexec', hcount', hlen', hopen'⟩ := releaseAll_encodeAll f ops hops ht hopen
    have hbytes : encodeAll (i :: ops) = encode i ++ encodeAll ops := List.flatMap_cons
    refine ⟨t', ?_, ?_, ?_, ?_, hopen'⟩
    · rw [hbytes, releaseAll_append, hrel, andThen_next, hrel']
    · rw [execAll, hexec, andThen_next, hexec']
    · rw [hcount', hcount, sat64_add, List.length_cons, Nat.add_assoc, Nat.add_comm 1]
    · rw [hlen', hlen, sat64_add, hbytes, List.length_append, Nat.add_assoc]

/-- Settles O9, by induction on the operations, executed on the pixel state of the machine that releases their bytes. -/
theorem operationsExecuteInPayloadOrder : Obligations.OperationsExecuteInPayloadOrder := by
  intro ops s hwf hs h
  obtain ⟨t, hrel, hexec, hcount, hlen, hopen⟩ := releaseAll_encodeAll s ops hwf hs h
  exact ⟨t, t.pixelsOver s, hrel, hexec, ⟨rfl, rfl, rfl, rfl, rfl, rfl⟩, hcount, hlen, hopen⟩

/-! ## A placed word -/

/-- The bytes of the operation that `placeOp` places; the source presents the last of them. -/
def placedBytes (lead : Byte) (trailing : List Byte) : List Byte := lead :: trailing.take (opNeedOf lead)

/-- The operation that `placeOp` places (42_op_decoder.md R165 to R170). -/
def placedOp (lead : Byte) (trailing : List Byte) : Instr :=
  decodeOp lead (trailingBytes (trailing.take (opNeedOf lead)))

theorem placedBytes_concat (lead : Byte) (trailing : List Byte) :
    (placedBytes lead trailing).dropLast ++ [(placedBytes lead trailing).getLastD 0] = placedBytes lead trailing := by
  have hne : placedBytes lead trailing ≠ [] := List.cons_ne_nil _ _
  rw [List.getLastD_eq_getLast?, List.getLast?_eq_some_getLast hne]
  exact List.dropLast_append_getLast hne

theorem inPayload_phase (s : State) : s.inPayload.phase = .payload := by
  unfold State.inPayload
  split
  · assumption
  · rfl

theorem inPayload_fbBytes (s : State) : s.inPayload.fbBytes = s.fbBytes := by
  unfold State.inPayload
  split <;> rfl

theorem placeOp_phase (s : State) (lead : Byte) (trailing : List Byte) : (s.placeOp lead trailing).phase = .payload :=
  inPayload_phase s

theorem placeOp_source (s : State) (lead : Byte) (trailing : List Byte) :
    (s.placeOp lead trailing).source = InPins.ofByte ((placedBytes lead trailing).getLastD 0) :: s.inPayload.source := rfl

/-- The extractor releases the byte that the source presents at once (41_stream_extractor.md R141). -/
theorem placeOp_zpend (s : State) (lead : Byte) (trailing : List Byte) :
    (s.placeOp lead trailing).zpend = 0 ∧ (placedBytes lead trailing).getLastD 0 ≠ 0
      ∨ (s.placeOp lead trailing).zpend = 7 ∧ (placedBytes lead trailing).getLastD 0 = 0 := by
  by_cases hl : (placedBytes lead trailing).getLastD 0 = 0
  · exact .inr ⟨if_pos hl, hl⟩
  · exact .inl ⟨if_neg hl, hl⟩

/-- A step on a byte that the extractor releases at once and that completes the operation `i` is `exec i` and its count,
on the pixel state before the step. -/
theorem step_completes {s : State} {p : InPins} {rest : List InPins} {b : Byte} {i : Instr} (hp : s.phase = .payload)
    (hr : s.nextEdge.rst = false) (hnb : s.nextEdge.busy = false) (hsrc : s.source = p :: rest)
    (htok : p.token = some (.byte b)) (hz : s.zpend = 0 ∧ b ≠ 0 ∨ s.zpend = 7 ∧ b = 0)
    (hneed : s.opNeed.toNat ≠ 0 → s.opNeed.toNat = opNeedOf s.opLead)
    (hgot : s.opNeed.toNat ≠ 0 → s.opGot.toNat < s.opNeed.toNat) (hd : decode (openBytes s ++ [b]) = .ok (i, [])) :
    ∃ u : State, step s = andThen (exec i u) (fun t => .next t.countOp) ∧ SamePixelState s u ∧ u.phase = s.phase
      ∧ u.expected = s.expected ∧ u.channels = s.channels ∧ u.fbBytes = s.fbBytes := by
  have hw := atToken_busy rest (s := s) (by rw [hp]; rfl)
  have hrel := release_completes (s := (s.atToken rest).countInput) (b := b) (i := i) (by rw [hw]; exact hneed)
    (by rw [hw]; exact hgot) (by rw [hw]; exact hd)
  refine ⟨_, (step_releases hp hr hnb hsrc htok hz).trans hrel, ?_⟩
  rw [hw]
  split <;> exact ⟨⟨rfl, rfl, rfl, rfl, rfl, rfl⟩, rfl, rfl, rfl, rfl⟩

section Placed
variable {lead : Byte} {trailing : List Byte} (s : State) (h : opNeedOf lead ≤ trailing.length)
include h

theorem placedBytes_length : (placedBytes lead trailing).length - 1 = opNeedOf lead := by
  rw [placedBytes, List.length_cons, List.length_take, Nat.add_sub_cancel, Nat.min_eq_left h]

theorem placeOp_opNeed : (s.placeOp lead trailing).opNeed.toNat = opNeedOf lead := by
  show (BitVec.ofNat 3 ((placedBytes lead trailing).length - 1)).toNat = _
  have h4 := opNeedOf_le lead
  rw [placedBytes_length h, BitVec.toNat_ofNat]
  omega

theorem placeOp_opGot : (s.placeOp lead trailing).opGot.toNat = opNeedOf lead - 1 := by
  show (BitVec.ofNat 3 ((placedBytes lead trailing).length - 1 - 1)).toNat = _
  have h4 := opNeedOf_le lead
  rw [placedBytes_length h, BitVec.toNat_ofNat]
  omega

theorem placeOp_opLead (hn : opNeedOf lead ≠ 0) : (s.placeOp lead trailing).opLead = lead :=
  if_neg ((placedBytes_length h).trans_ne hn)

theorem placeOp_opTb (hn : opNeedOf lead ≠ 0) :
    (s.placeOp lead trailing).opTb = trailingBytes (trailing.take (opNeedOf lead - 1)) := by
  have hlen := placedBytes_length h
  exact (if_neg (hlen.trans_ne hn)).trans (congrArg (fun n => trailingBytes (trailing.take (n - 1))) hlen)

/-- The open operation of the placed state has received all its bytes but the last. -/
theorem openBytes_placeOp : openBytes (s.placeOp lead trailing) = (placedBytes lead trailing).dropLast := by
  have hneed := placeOp_opNeed s h
  unfold openBytes
  by_cases hn : opNeedOf lead = 0
  · have h0 : (s.placeOp lead trailing).opNeed = 0 := BitVec.eq_of_toNat_eq (hneed.trans hn)
    rw [if_pos h0, placedBytes, hn]
    rfl
  · have h0 : (s.placeOp lead trailing).opNeed ≠ 0 := fun e => hn (hneed.symm.trans (congrArg BitVec.toNat e))
    have h4 := opNeedOf_le lead
    have htake : (trailing.take (opNeedOf lead - 1)).length = opNeedOf lead - 1 :=
      List.length_take_of_le (by omega)
    rw [if_neg h0, placeOp_opLead s h hn, placeOp_opGot s h, placeOp_opTb s h hn,
      trailingBytes_take htake.ge (by omega), List.dropLast_eq_take, placedBytes_length h, placedBytes,
      List.take_cons (by omega), List.take_take, List.take_take, Nat.min_self, Nat.min_eq_left (Nat.sub_le _ _)]

theorem decode_placedBytes (rest : List Byte) :
    decode (placedBytes lead trailing ++ rest) = .ok (placedOp lead trailing, rest) :=
  decode_of_need (List.length_take_of_le h) rest

/-- The last byte, which the source presents, completes the operation. -/
theorem decode_placeOp :
    decode (openBytes (s.placeOp lead trailing) ++ [(placedBytes lead trailing).getLastD 0])
      = .ok (placedOp lead trailing, []) := by
  have hd := decode_placedBytes h []
  rw [List.append_nil] at hd
  rw [openBytes_placeOp s h, placedBytes_concat, hd]

/-- The step after an operation has been placed is `exec` of it and its count, on the pixel state it was placed in. -/
theorem step_placeOp : ∃ u : State,
    step (s.placeOp lead trailing) = andThen (exec (placedOp lead trailing) u) (fun t => .next t.countOp)
      ∧ SamePixelState s.inPayload u ∧ u.phase = .payload ∧ u.expected = s.inPayload.expected
      ∧ u.channels = s.inPayload.channels ∧ u.fbBytes = s.fbBytes := by
  have hneed := placeOp_opNeed s h
  have hgot := placeOp_opGot s h
  obtain ⟨u, hstep, hpix, hphase, hexp, hch, hfb⟩ :=
    step_completes (placeOp_phase s lead trailing) rfl rfl (placeOp_source s lead trailing) rfl
      (placeOp_zpend s lead trailing) (fun hn => by rw [hneed, placeOp_opLead s h (hneed.symm.trans_ne hn)])
      (fun hn => by omega) (decode_placeOp s h)
  exact ⟨u, hstep, hpix, hphase.trans (placeOp_phase s lead trailing), hexp, hch, hfb.trans (inPayload_fbBytes s)⟩

end Placed

/-- A word of the table's numbering is the bytes of its operation, and bytes after them. -/
theorem decodeTableWord_eq (nbits w : Nat) {lead : Byte} {trailing : List Byte}
    (hbytes : tableBytes nbits w = lead :: trailing) (h : opNeedOf lead ≤ trailing.length) :
    decodeTableWord nbits w = some (placedOp lead trailing) := by
  have hd := decode_placedBytes h (trailing.drop (opNeedOf lead))
  rw [placedBytes, List.cons_append, List.take_append_drop] at hd
  rw [decodeTableWord, hbytes, hd]

/-- Settles O7: the five bytes of a table word hold an operation, which the next step completes. -/
theorem placedWordRunsAtTheNextStep : Obligations.PlacedWordRunsAtTheNextStep := by
  intro s nbits w
  have hbytes : tableBytes nbits w = (tableBytes nbits w).headD 0 :: (tableBytes nbits w).tail := rfl
  have hlen : opNeedOf ((tableBytes nbits w).headD 0) ≤ (tableBytes nbits w).tail.length := opNeedOf_le _
  obtain ⟨u, hu⟩ := step_placeOp s hlen
  exact ⟨_, u, decodeTableWord_eq nbits w hbytes hlen, hu⟩

end Sys2Proof.Machine
end

section
/-! PROOFS. The family 43_pixel_ops: what each of the six operations emits and writes, and the frame of Execute. -/

namespace Sys2Proof.Machine

open Sys2Proof

/-! ## Operations that commit a pixel -/

/-- Commit emits the pixel, caches it at its hash and makes it PREV (43_pixel_ops.md R191). -/
theorem commit_answers (p : Pixel) {s : State} (h : CanEmit s) (hm : s.mp = false) :
    ∃ t, commit p s = .next t ∧ OnlyPixelState s t ∧ Emits s t [p] ∧ CachesPixel s t p ∧ t.prev = p
      ∧ t.prevValid = true ∧ t.mp = false :=
  ⟨_, commit_next h.capacity, rfl, emits_emitted h p, cachesPixel_cacheWrite p rfl, rfl, rfl, hm⟩

theorem exec_rgb {s : State} (r g b : Byte) (hm : s.mp = false) :
    exec (.rgb r g b) s = commit (rgbPixel r g b) s :=
  executeFrame_rule hm nofun

theorem exec_rgba {s : State} (r g b a : Byte) (hm : s.mp = false) :
    exec (.rgba r g b a) s = commit (rgbaPixel r g b a) s :=
  executeFrame_rule hm nofun

theorem exec_diff {s : State} (dr dg db : Int) (hm : s.mp = false) (hp : s.prevValid = true) :
    exec (.diff dr dg db) s = commit (addDeltas s.prev dr dg db) s :=
  executeFrame_rule hm fun _ => hp

theorem exec_luma {s : State} (dg drDg dbDg : Int) (hm : s.mp = false) (hp : s.prevValid = true) :
    exec (.luma dg drDg dbDg) s = commit (addDeltas s.prev (drDg + dg) dg (dbDg + dg)) s :=
  executeFrame_rule hm fun _ => hp

/-- Settles O10: the operation commits its literal, which needs no previous pixel. -/
theorem rgbCommitsTheLiteralPixel : Obligations.RgbCommitsTheLiteralPixel := by
  intro s r g b h hm
  rw [exec_rgb r g b hm]
  exact ⟨rfl, commit_answers (rgbPixel r g b) h hm⟩

/-- Settles O11: the operation commits its literal, which needs no previous pixel. -/
theorem rgbaCommitsTheLiteralPixel : Obligations.RgbaCommitsTheLiteralPixel := by
  intro s r g b a h hm
  rw [exec_rgba r g b a hm]
  exact ⟨rfl, commit_answers (rgbaPixel r g b a) h hm⟩

/-- Settles O13: the operation commits PREV plus the deltas, and `wrap8` is the remainder modulo 256. -/
theorem diffCommitsTheWrappedSum : Obligations.DiffCommitsTheWrappedSum := by
  intro s dr dg db h hm hp
  obtain ⟨t, ht, hwrites⟩ := commit_answers (addDeltas s.prev dr dg db) h hm
  exact ⟨t, addDeltas s.prev dr dg db, (exec_diff dr dg db hm hp).trans ht, rfl, wrap8_toNat _, wrap8_toNat _,
    wrap8_toNat _, rfl, hwrites⟩

/-- Settles O14: the operation commits PREV plus the deltas made absolute, and `wrap8` is the remainder modulo 256. -/
theorem lumaCommitsTheGreenRelativeSum : Obligations.LumaCommitsTheGreenRelativeSum := by
  intro s dg drDg dbDg h hm hp
  obtain ⟨t, ht, hwrites⟩ := commit_answers (addDeltas s.prev (drDg + dg) dg (dbDg + dg)) h hm
  exact ⟨t, addDeltas s.prev (drDg + dg) dg (dbDg + dg), (exec_luma dg drDg dbDg hm hp).trans ht, rfl, wrap8_toNat _,
    wrap8_toNat _, wrap8_toNat _, rfl, hwrites⟩

/-! ## Operations that leave the cache -/

/-- An operation that is not held back by MP or a missing previous pixel answers its rule's state. -/
theorem exec_performed {i : Instr} {s : State} (h : CanEmit s) (hm : s.mp = false)
    (hp : readsPrev i = true → s.prevValid = true) : exec i s = .next (s.ruled i) := by
  rw [exec_next i h.capacity, executed_ruled hm hp]

/-- Settles O12: the rule emits the cached pixel and sets PREV, and neither writes the cache. -/
theorem indexEmitsTheCachedPixel : Obligations.IndexEmitsTheCachedPixel := fun s slot h hm =>
  ⟨s.ruled (.index slot), exec_performed h hm nofun, ruled_only s (.index slot), emits_emitted h (s.cacheRead slot),
    rfl, rfl, rfl, hm⟩

/-- Settles O15: the rule emits that many copies of PREV, and Emit keeps PREV and the cache. -/
theorem runRepeatsThePreviousPixel : Obligations.RunRepeatsThePreviousPixel := by
  intro s n h hm hp
  obtain ⟨hcache, hprev, hvalid, hmp⟩ := emittedAll_keeps (List.replicate n s.prev) s
  exact ⟨s.ruled (.run n), exec_performed h hm fun _ => hp, ruled_only s (.run n), emits_emittedAll h _, hcache, hprev,
    hvalid.trans hp, hmp.trans hm⟩

/-! ## The frame of Execute -/

/-- Every operation is a rule of its own inside the frame of Execute, which asks whether it reads PREV. -/
theorem exec_framed : ∀ i : Instr, ∃ rule : State → Result, ∀ s, exec i s = executeFrame (readsPrev i) rule s
  | .rgb .. => ⟨_, fun _ => rfl⟩
  | .rgba .. => ⟨_, fun _ => rfl⟩
  | .index _ => ⟨_, fun _ => rfl⟩
  | .diff .. => ⟨_, fun _ => rfl⟩
  | .luma .. => ⟨_, fun _ => rfl⟩
  | .run _ => ⟨_, fun _ => rfl⟩

/-- A performed operation keeps MP and leaves a previous pixel: it sets PREV, or it is Run, which had one. -/
theorem ruled_latches (s : State) (i : Instr) (hp : readsPrev i = true → s.prevValid = true) :
    (s.ruled i).mp = s.mp ∧ (s.ruled i).prevValid = true := by
  cases i with
  | run n =>
    obtain ⟨-, -, hvalid, hmp⟩ := emittedAll_keeps (List.replicate n s.prev) s
    exact ⟨hmp, hvalid.trans (hp rfl)⟩
  | _ => exact ⟨rfl, rfl⟩

/-- Settles O16: the frame answers for MP = 1 and for a missing previous pixel before the rule is reached, and what
Execute answers keeps PHASE and ERR_CODE. -/
theorem missingPredecessorIsLatched : Obligations.MissingPredecessorIsLatched := by
  intro i s
  obtain ⟨rule, hframe⟩ := exec_framed i
  refine ⟨fun hm => ?held, fun hm hr hp => ?latched, fun h => ?answered⟩
  case held => rw [hframe, executeFrame_mp hm]
  case latched =>
    rw [hframe, hr, executeFrame_latch hm hp]
    rfl
  case answered =>
    refine ⟨s.executed i, exec_next i h.capacity, executed_phase s i, executed_errCode s i, fun hm hp => ?_⟩
    obtain ⟨hmp, hvalid⟩ := ruled_latches s i hp
    rw [executed_ruled hm hp]
    exact ⟨hmp.trans hm, hvalid⟩

end Sys2Proof.Machine
end

section
/-! PROOFS. The family 44_pixel_cache: the hash in every unsigned width of at least six bits. -/

namespace Sys2Proof.Machine

open Sys2Proof

/-- The weighted sum of the channels (44_pixel_cache.md R222), before its low six bits are taken. -/
def hashSum (p : Pixel) : Nat := 3 * p.r.toNat + 5 * p.g.toNat + 7 * p.b.toNat + 11 * p.a.toNat

theorem hash_val (p : Pixel) : (hash p).val = hashSum p % 64 := rfl

/-- Arithmetic in words of width `w` computes the sum's word: truncation commutes with addition and multiplication. -/
theorem hashSum_ofNat (p : Pixel) (w : Nat) :
    3#w * p.r.setWidth w + 5#w * p.g.setWidth w + 7#w * p.b.setWidth w + 11#w * p.a.setWidth w
      = BitVec.ofNat w (hashSum p) := by
  simp only [hashSum, BitVec.ofNat_add, BitVec.ofNat_mul, BitVec.ofNat_toNat]

/-- Wrap-around in at least six bits keeps the residue modulo 64, as 64 divides the word's modulus. -/
theorem ofNat_toNat_mod_64 {w : Nat} (hw : 6 ≤ w) (n : Nat) : (BitVec.ofNat w n).toNat % 64 = n % 64 := by
  have hdvd : 64 ∣ 2 ^ w := pow_dvd_pow 2 hw
  rw [BitVec.toNat_ofNat, Nat.mod_mod_of_dvd n hdvd]

/-- Settles O17: the word's sum is the sum truncated, and truncation to six bits or more keeps its low six bits. -/
theorem hashIsWidthIndependent : Obligations.HashIsWidthIndependent := by
  intro p
  refine ⟨hash_val p, fun w hw => ?_⟩
  rw [hashSum_ofNat, ofNat_toNat_mod_64 hw, hash_val]

end Sys2Proof.Machine
end

section
/-! PROOFS. The family 45_framebuffer: the bytes one Emit writes, and the outcomes of Finish in their priority. -/

namespace Sys2Proof.Machine

open Sys2Proof

/-! ## Emit -/

theorem Memory.writeBytes_nil (m : Memory) (a : Nat) : m.writeBytes a [] = m := rfl

/-- Writing several bytes leaves the first one at their address; every other read is that after writing the rest. -/
theorem Memory.read_writeBytes_cons {m : Memory} (h : m.wf = true) (a : Nat) (v : Byte) (vs : List Byte) (c : Nat) :
    (m.writeBytes a (v :: vs)).read c = if c = a then v else (m.writeBytes (a + 1) vs).read c := by
  rw [Memory.writeBytes, Memory.read_writeBytes c (Memory.wf_write a v h), Memory.read_write a c v h,
    Memory.read_writeBytes c h]
  by_cases hc : c = a
  · rw [if_neg (by omega), if_pos hc, if_pos hc]
  · rw [if_neg hc, if_neg hc]

/-- A pixel below EXPECTED is written whole at its place in the image (45_framebuffer.md R241, R243). -/
theorem emitted_fb_inside {s : State} {c : Byte} (p : Pixel) (h : CanEmit s)
    (hi : s.pixCount.toNat < s.expected.toNat) (hc : s.channels = c) :
    (s.emitted p).fb = s.fb.writeBytes (c.toNat * s.pixCount.toNat) (serialize c p) := by
  rw [← hc, Nat.mul_comm, ← serialize_take p h.channels]
  exact if_pos hi

/-- A pixel at or past EXPECTED is not written (45_framebuffer.md R241). -/
theorem emitted_fb_past {s : State} (p : Pixel) (h : s.expected.toNat ≤ s.pixCount.toNat) :
    (s.emitted p).fb = s.fb :=
  if_neg (Nat.not_lt.2 h)

/-- Settles O18: inside the image Emit writes the pixel's bytes, and a read tells them apart one address at a time. -/
theorem emitWritesThePixelInsideTheImage : Obligations.EmitWritesThePixelInsideTheImage := by
  intro p s h
  refine ⟨s.emitted p, emit_next h.capacity, rfl, sat64_toNat _, emitted_fb_past p, fun hi hc a => ?rgb,
    fun hi hc a => ?rgba⟩
  case rgb =>
    have hfb : (s.emitted p).fb = s.fb.writeBytes (3 * s.pixCount.toNat) [p.r, p.g, p.b] :=
      emitted_fb_inside p h hi hc
    rw [hfb]
    simp only [Memory.read_writeBytes_cons h.canonical, Memory.writeBytes_nil, Nat.add_assoc, Nat.reduceAdd]
  case rgba =>
    have hfb : (s.emitted p).fb = s.fb.writeBytes (4 * s.pixCount.toNat) [p.r, p.g, p.b, p.a] :=
      emitted_fb_inside p h hi hc
    rw [hfb]
    simp only [Memory.read_writeBytes_cons h.canonical, Memory.writeBytes_nil, Nat.add_assoc, Nat.reduceAdd]

/-! ## Finish -/

/-- With the marker's seven zeros pending and IN_OFFSET below saturation, IN_OFFSET - 7 is 14 + PAYLOAD_LEN exactly: the
two readings of the marker's offset agree (41_stream_extractor.md R141; 45_framebuffer.md R246). -/
theorem inOffset_sub_seven {s : State} (h : Inv s) (hp : s.phase = .payload) (hz : s.zpend = 7)
    (hs : s.inOffset.toNat < 2 ^ 64 - 1) : (s.inOffset - 7).toNat = 14 + s.payloadLen.toNat := by
  obtain ⟨-, hoffset⟩ := h.payload hp
  have hbelow : 14 + s.payloadLen.toNat ≤ 2 ^ 64 - 1 := by
    rw [counterMax] at hoffset
    omega
  rw [← markerOffset_eq_sub h hp hz hs, markerOffset_toNat, Nat.min_eq_left hbelow]

/-- Settles O28: the marker's last byte runs Finish, whose checks are those of the four cases in turn. -/
theorem finishReportsInPriority : Obligations.FinishReportsInPriority := by
  intro s hp hz
  refine ⟨finish (markerOffset s) (s.countInput.setZpend 0), extractor_marker hp hz, finish_only _ _,
    fun hopen => ?cut, fun hclosed hm => ?missing, fun hclosed hm hcount => ?count, fun hclosed hm hcount => ?done,
    fun h => inOffset_sub_seven h hp hz⟩
  case cut =>
    rw [finish_cut]
    exacts [⟨rfl, rfl, rfl, rfl, rfl⟩, hopen]
  case missing =>
    rw [finish_missing]
    exacts [⟨rfl, rfl, rfl, rfl, rfl⟩, hclosed, hm]
  case count =>
    rw [finish_count]
    exacts [⟨rfl, rfl, rfl, markerOffset_toNat s, rfl⟩, hclosed, hm, hcount]
  case done =>
    rw [finish_done]
    exacts [⟨rfl, rfl, rfl, rfl, rfl⟩, hclosed, hm, hcount]

end Sys2Proof.Machine
end

section
/-! PROOFS. The family 46_host_commands: START, the writes to CTRL, and the offsets that map no register. -/

namespace Sys2Proof.Machine

open Sys2Proof

/-! ## A taken START -/

/-- An edge with a write of 1 to CTRL.START sets IRQ_EN to bit 1 of the written word (46_host_commands.md R263). -/
theorem irqEnAfter_writesStart {e : Edge} (s : State) (h : e.writesStart = true) :
    irqEnAfter e s = e.regWdata.getLsbD 1 := by
  obtain ⟨hctrl, -⟩ := Bool.and_eq_true_iff.1 h
  exact if_pos hctrl

/-- The host's access with a START that is taken: the reads, IRQ_EN, and then the initialisation (46_host_commands.md
R261). -/
theorem hostAccess_start {e : Edge} {s : State} (h : e.writesStart = true) (hb : s.phase.busy = false) :
    hostAccess e s =
      (s.seenByHost (e.regWdata.getLsbD 1) (hostReads e s).regRdata (hostReads e s).fbRdata).started := by
  rw [hostAccess_eq, if_pos (by rw [h, hb]; rfl), irqEnAfter_writesStart s h]
  rfl

/-- A step with a taken START is the host's access alone: `in_ready` was 0, so no token is consumed (20_memory.md
R64). -/
theorem step_start {s : State} (h : takesStart s = true) :
    step s = .next (s.popEdge.seenByHost (s.nextEdge.regWdata.getLsbD 1)
      (hostReads s.nextEdge s.popEdge).regRdata (hostReads s.nextEdge s.popEdge).fbRdata).started := by
  simp only [takesStart_eq, Bool.and_eq_true, Bool.not_eq_true'] at h
  obtain ⟨⟨hrst, hstart⟩, hidle⟩ := h
  obtain ⟨-, hstep⟩ := step_notReady hrst (.inl hidle)
  rw [hstep, hostAccess_start (s := s.popEdge) hstart hidle]

theorem opTb_replicate {s : State} (h : s.opTb = Vector.replicate 4 0) (k : Fin 4) : s.opTb[k] = 0 := by
  simp [h]

/-- Settles O35: the step is the initialisation, which fills the cache with the sentinel and leaves PHASE at HEADER. -/
theorem startInitialisesTheDecode : Obligations.StartInitialisesTheDecode := fun _ h =>
  ⟨_, step_start h, rfl, cacheRead_replicate (started_cache _), opTb_replicate (started_opTb _), Bool.and_false _⟩

/-! ## Writes to CTRL -/

theorem start_busy {s : State} (h : s.phase.busy = true) : s.start = s :=
  if_pos h

theorem start_irqEn (s : State) : s.start.irqEn = s.irqEn := by
  rw [State.start]
  split
  · rfl
  · exact started_irqEn s

/-- Settles O36: a START in these phases is ignored, so with and without it only IRQ_EN is written. -/
theorem startWhileBusyIsIgnored : Obligations.StartWhileBusyIsIgnored := by
  intro s data hp
  have hb : ({ s with irqEn := data.getLsbD 1 } : State).phase.busy = true := (busy_iff s.phase).2 hp
  rw [registerWrite_ctrl, writeCtrl, start_busy hb, ite_self]

theorem writeCtrl_irqEn (data : Word) (s : State) : (writeCtrl data s).irqEn = data.getLsbD 1 := by
  rw [writeCtrl]
  split
  · exact start_irqEn _
  · rfl

/-- Only bits 1:0 of a word written to CTRL have an effect (46_host_commands.md R264). -/
theorem writeCtrl_congr {data other : Word} (h0 : other.getLsbD 0 = data.getLsbD 0)
    (h1 : other.getLsbD 1 = data.getLsbD 1) (s : State) : writeCtrl other s = writeCtrl data s := by
  rw [writeCtrl, writeCtrl, h0, h1]

/-- CTRL as a number: IRQ_EN at bit 1 (46_host_commands.md R264). -/
theorem ctrlWord_eq (s : State) : ctrlWord s = if s.irqEn then 2 else 0 := by
  rw [ctrlWord]
  cases s.irqEn
  · rfl
  · rfl

/-- Settles O37: CTRL's write sets IRQ_EN, started or not, and the register map gives CTRL no other offset. -/
theorem onlyControlIsWritable : Obligations.OnlyControlIsWritable := fun s _ data =>
  ⟨writeCtrl_irqEn data s, fun _ h0 h1 => writeCtrl_congr h0 h1 s, fun ha => registerWrite_other ha data s,
    ctrlWord_eq s⟩

/-! ## Unmapped offsets -/

/-- The register map's gaps: the unaligned offsets, 0x1C, and everything from 0x58 on (10_state.md R30;
46_host_commands.md R266). -/
theorem registerAt_eq_none_iff {addr : Byte} :
    registerAt addr = none ↔ addr.toNat % 4 ≠ 0 ∨ addr = 0x1C ∨ 0x58 ≤ addr.toNat := by
  revert addr
  decide

/-- Settles O38: such an offset maps no register, which is what a read and a write look at. -/
theorem unmappedOffsetsReadZero : Obligations.UnmappedOffsetsReadZero := by
  intro s addr data h
  have hnone : registerAt addr = none := registerAt_eq_none_iff.2 h
  rw [registerRead, registerWrite, hnone]
  exact ⟨rfl, rfl⟩

end Sys2Proof.Machine
end

section
/-! PROOFS. The family 60_exceptions: what `raise` records, STATUS and irq, the phases that hold their state, the context of
every error, and whole decodes beside the staged reference decoder. -/

namespace Sys2Proof.Machine

open Sys2Proof

/-! ## raise, STATUS and irq -/

/-- IRQ, HDR_VALID and PHASE under the reserved bits of STATUS, as numbers (10_state.md R32). -/
theorem statusFields_toNat : ∀ (i h : Bool) (p : BitVec 3),
    (0#27 ++ BitVec.ofBool i ++ BitVec.ofBool h ++ p : Word).toNat = p.toNat + 8 * h.toNat + 16 * i.toNat := by
  decide

theorem statusWord_toNat (s : State) :
    (statusWord s).toNat = (phaseCode s.phase).toNat + 8 * s.hdrValid.toNat + 16 * (irq s).toNat :=
  statusFields_toNat (irq s) s.hdrValid (phaseCode s.phase)

/-- STATUS.PHASE is the code of PHASE (10_state.md R21, R32). -/
theorem statusWord_phase (s : State) : (statusWord s).extractLsb' 0 3 = phaseCode s.phase := by
  have hp := (phaseCode s.phase).isLt
  apply BitVec.eq_of_toNat_eq
  rw [BitVec.extractLsb'_toNat, statusWord_toNat, Nat.shiftRight_zero]
  omega

/-- Settles O29: the update is `raise` itself, after which PHASE is an ended one whose code is 4. -/
theorem raiseRecordsTheCause : Obligations.RaiseRecordsTheCause := fun s code value offset opIndex =>
  ⟨rfl, Bool.and_true s.irqEn, statusWord_phase (s.raise code value offset opIndex)⟩

/-- Settles O39: STATUS is the sum of its fields, and the phases that have ended are DONE and ERROR. -/
theorem statusShowsPhaseAndInterrupt : Obligations.StatusShowsPhaseAndInterrupt := by
  intro s
  refine ⟨?_, ?_⟩
  · refine (statusWord_toNat s).trans ?_
    cases s.phase <;> rfl
  · rw [irq]
    cases s.phase <;> rfl

/-! ## IDLE, DONE and ERROR -/

/-- Settles O33: the step is the host's access alone, which without a START writes IRQ_EN and what was read. -/
theorem quiescentPhasesHoldTheirState : Obligations.QuiescentPhasesHoldTheirState := by
  intro s t h hb hr
  obtain ⟨-, hstep⟩ := step_notReady hr (.inl hb)
  obtain rfl := Host.Outcome.next.inj (h.symm.trans hstep)
  refine ⟨hostAccess_source s.nextEdge s.popEdge, fun hs => ?_⟩
  rw [hostAccess_noStart hr hs]
  rfl

/-! ## The errors of a decoder step -/

/-- The errors of a header byte (40_header.md R123, R127, R128, R132). -/
theorem headerField_error {pos : Nat} {b : Byte} {s : State} (hp : s.phase ≠ .error) (hpos : pos ≤ 13)
    (h : (headerField pos b s).phase = .error) :
    (pos ≤ 3 ∧ headerField pos b s = s.raise .invalidMagic 0 (BitVec.ofNat 64 pos) 0)
      ∨ headerField pos b s = s.raise .unknownChannelMode b 12 0
      ∨ headerField pos b s = s.raise .unknownColorSpace b 13 0
      ∨ ∃ u : State, headerField pos b s = u.raise .capacityExceeded 0 14 0 := by
  by_cases hmagic : pos ≤ 3
  · rw [headerField_magic b s hmagic, magicByte] at h ⊢
    split at h
    case isTrue hb => exact .inl ⟨hmagic, if_pos hb⟩
    case isFalse => exact absurd h hp
  by_cases hwidth : pos ≤ 7
  · rw [headerField_width b s (by omega) hwidth] at h
    exact absurd h hp
  by_cases hheight : pos ≤ 11
  · rw [headerField_height b s (by omega) hheight] at h
    exact absurd h hp
  obtain rfl | rfl : pos = 12 ∨ pos = 13 := by omega
  · rw [headerField_channel, channelByte] at h ⊢
    split at h
    case isTrue => exact absurd h hp
    case isFalse hb => exact .inr (.inl (if_neg hb))
  · rw [headerField_colorSpace, colorSpaceByte] at h ⊢
    split at h
    case isFalse hb => exact .inr (.inr (.inl (if_neg hb)))
    case isTrue hb =>
      rw [headerDone, capacityCheck] at h
      split at h
      case isFalse => exact Phase.noConfusion h
      case isTrue hcap => exact .inr (.inr (.inr ⟨_, (if_pos hb).trans (if_pos hcap)⟩))

/-- The errors of Finish (45_framebuffer.md R246). -/
theorem finish_error {m : U64} {s : State} (h : (finish m s).phase = .error) :
    finish m s = s.raise .unexpectedEndOfInput 0 s.opLeadPos s.opCount
      ∨ finish m s = s.raise .missingPredecessor 0 14 0
      ∨ finish m s = s.raise .pixelCountMismatch 0 m s.opCount := by
  by_cases hopen : s.opNeed = 0
  · cases hm : s.mp with
    | true => exact .inr (.inl (finish_missing hopen hm))
    | false =>
      by_cases hcount : s.pixCount = s.expected
      · rw [finish_done hopen hm hcount] at h
        exact Phase.noConfusion h
      · exact .inr (.inr (finish_count hopen hm hcount))
  · exact .inl (finish_cut hopen)

/-- In PAYLOAD only EOF and the last byte of an end marker raise (41_stream_extractor.md R141, R145). -/
theorem payload_error {s t : State} {b : Byte} (hp : s.phase = .payload) (h : decoderStep (.byte b) s = .next t)
    (he : t.phase = .error) : ∃ u : State, t = finish (markerOffset s) u ∧ u.payloadLen = s.payloadLen := by
  have hne : s.countInput.phase ≠ .error := by rw [countInput_phase, hp]; decide
  obtain rfl := decoderStep_eq_next h
  rw [stepped_payloadByte b hp, extracted_phase] at he
  split at he
  case isFalse => exact absurd he hne
  case isTrue hm =>
    obtain ⟨rfl, hz⟩ := hm
    exact ⟨_, Host.Outcome.next.inj (h.symm.trans (extractor_marker hp hz)), rfl⟩

/-- Settles O30: EOF, a header byte and Finish are what raises, each with its own context. -/
theorem errorContextIsThatOfTheTable : Obligations.ErrorContextIsThatOfTheTable := by
  intro s t tok hs hne h he
  cases hb : s.phase.busy with
  | false =>
    rw [decoderStep_eq_next h, stepped_quiescent tok hb] at he
    exact absurd he hne
  | true =>
    cases tok with
    | eof =>
      obtain rfl := Host.Outcome.next.inj (h.symm.trans (decoderStep_eof hb))
      exact ⟨rfl, rfl, rfl, rfl⟩
    | byte b =>
      rcases (busy_iff s.phase).1 hb with hp | hp
      · have hpos := (hs.header hp).1
        obtain rfl := Host.Outcome.next.inj (h.symm.trans (headerByte_step b hp rfl hpos))
        rcases headerField_error (s := { s with inOffset := s.inOffset + 1 }) hne hpos he with
          ⟨hmagic, ht⟩ | ht | ht | ⟨u, ht⟩ <;> rw [ht]
        · exact ⟨rfl, by simpa using hmagic, by simp, rfl⟩
        · exact ⟨rfl, rfl, rfl⟩
        · exact ⟨rfl, rfl, rfl⟩
        · exact ⟨rfl, rfl, rfl⟩
      · obtain ⟨u, rfl, hlen⟩ := payload_error hp h he
        rcases finish_error he with ht | ht | ht <;> rw [ht]
        · exact ⟨rfl, rfl, rfl⟩
        · exact ⟨rfl, rfl, rfl⟩
        · exact ⟨rfl, by rw [raise_errOffset, raise_payloadLen, markerOffset_toNat, hlen], rfl⟩

/-! ## Runs that end -/

/-- Within `n` clock edges `u` reaches a state with the property `P`. -/
def ReachesWithin (n : Nat) (u : State) (P : State → Prop) : Prop :=
  ∃ k t, k ≤ n ∧ clockEdges k u = .next t ∧ P t

theorem clockEdges_trans {m n : Nat} {u v w : State} (h : clockEdges m u = .next v) (h' : clockEdges n v = .next w) :
    clockEdges (m + n) u = .next w := by
  rw [clockEdges_add, h, andThen_next, h']

theorem clockEdges_succ {m : Nat} {u v t : State} (h : clockEdges m u = .next v) (ht : step v = .next t) :
    clockEdges (m + 1) u = .next t :=
  clockEdges_trans h ((clockEdges_one v).trans ht)

/-- What is reached within `n` edges of a state that is itself reached after `m`. -/
theorem ReachesWithin.after {m n k : Nat} {u v : State} {P : State → Prop} (hv : ReachesWithin n v P)
    (h : clockEdges m u = .next v) (hk : m + n ≤ k) : ReachesWithin k u P := by
  obtain ⟨j, t, hj, hrun, ht⟩ := hv
  exact ⟨m + j, t, by omega, clockEdges_trans h hrun, ht⟩

/-- `t` is in ERROR with the code of the staged decoder's failure, and with its context where the counters can count the
`n` bytes of the input. -/
structure Reports (n : Nat) (f : Failure) (t : State) : Prop where
  phase : t.phase = .error
  errCode : t.errCode = f.code
  context : n < 2 ^ 63 →
    t.errValue = f.value ∧ t.errOffset.toNat = f.offset ∧ t.errOpIndex.toNat = f.opIndex

/-- EOF is reported at the offset of the bytes consumed (40_header.md R122; 41_stream_extractor.md R145). -/
theorem step_eof_reports {u : State} {n : Nat} (he : u.edges = []) (hs : u.source = feed []) (hb : u.phase.busy = true)
    (ho : u.inOffset = sat64 n) : ∃ t, step u = .next t ∧ Reports n ⟨.endOfInput, 0, n, 0⟩ t := by
  refine ⟨_, (step_eof he hs hb).trans (decoderStep_eof hb), rfl, rfl, fun hn => ⟨rfl, ?_, rfl⟩⟩
  show u.inOffset.toNat = n
  rw [ho, sat64_toNat]
  omega

/-! ## The header of an input -/

/-- The big-endian field at offset `a`, as far as the first `n` bytes of the input reach. -/
def fieldRead (x : List Byte) (a n : Nat) : Word := (((x.take n).drop a).take 4).foldl shiftInByte 0

theorem take_succ_getD {x : List Byte} {n : Nat} (h : n < x.length) : x.take (n + 1) = x.take n ++ [x.getD n 0] := by
  rw [List.take_add_one, List.getD_eq_getElem?_getD, List.getElem?_eq_getElem h]
  rfl

theorem drop_eq_getD_cons {x : List Byte} {n : Nat} (h : n < x.length) : x.drop n = x.getD n 0 :: x.drop (n + 1) := by
  rw [List.drop_eq_getElem_cons h, List.getD_eq_getElem _ _ h]

/-- A byte of the field's four is shifted in. -/
theorem fieldRead_succ_inside {x : List Byte} {a n : Nat} (h : n < x.length) (ha : a ≤ n) (hn : n < a + 4) :
    fieldRead x a (n + 1) = shiftInByte (fieldRead x a n) (x.getD n 0) :=
  (field_concat x n a (x.getD n 0) (take_succ_getD h) (List.length_take_of_le h.le)).trans (if_pos ⟨ha, hn⟩)

/-- Every other byte leaves the field. -/
theorem fieldRead_succ_outside {x : List Byte} {a n : Nat} (h : n < x.length) (hn : ¬(a ≤ n ∧ n < a + 4)) :
    fieldRead x a (n + 1) = fieldRead x a n :=
  (field_concat x n a (x.getD n 0) (take_succ_getD h) (List.length_take_of_le h.le)).trans (if_neg hn)

/-- A field whose four bytes have been read is the word at its offset (20_memory.md R68). -/
theorem fieldRead_full {x : List Byte} {a n : Nat} (ha : a + 4 ≤ n) (hn : n ≤ x.length) :
    fieldRead x a n = wordAt x a := by
  have hbytes : ((x.take n).drop a).take 4 = [x.getD a 0, x.getD (a + 1) 0, x.getD (a + 2) 0, x.getD (a + 3) 0] := by
    rw [List.drop_take, List.take_take, Nat.min_eq_left (by omega), drop_eq_getD_cons (by omega),
      drop_eq_getD_cons (by omega), drop_eq_getD_cons (by omega), drop_eq_getD_cons (by omega)]
    rfl
  rw [fieldRead, hbytes, shiftIn_four, wordAt]

/-- CHANNELS as the first `n` bytes of the input leave it: 0 until the byte at offset 12 (40_header.md R127). -/
def channelsRead (x : List Byte) (n : Nat) : Byte := if 12 < n then x.getD 12 0 else 0

theorem channelsRead_succ (x : List Byte) {n : Nat} (hn : n < 12) : channelsRead x (n + 1) = channelsRead x n := by
  rw [channelsRead, channelsRead, if_neg (by omega), if_neg (by omega)]

/-- The decode of `x` started from `s` after `n` header bytes, with what they left in WIDTH, HEIGHT and CHANNELS. -/
def State.inHeaderOf (s : State) (x : List Byte) (n : Nat) (w h : Word) (ch : Byte) : State :=
  State.headerRead
    { s.started with source := feed (x.drop n), edges := [], epoch := s.started.epoch + n, channels := ch } n w h

/-- The same, with the fields as the input's first `n` bytes have filled them. -/
def State.headerPrefix (s : State) (x : List Byte) (n : Nat) : State :=
  s.inHeaderOf x n (fieldRead x 4 n) (fieldRead x 8 n) (channelsRead x n)

theorem headerPrefix_zero {s : State} (x : List Byte) (hs : s.phase.busy = false) :
    s.headerPrefix x 0 = startedOn s x := by
  rw [startedOn, start_notBusy hs]
  rfl

/-- A byte of the header goes to the field of its offset. -/
theorem step_inHeaderOf (s : State) {x : List Byte} {n : Nat} (w h : Word) (ch : Byte) (hx : n < x.length)
    (hn : n < 14) :
    step (s.inHeaderOf x n w h ch) = .next (headerField n (x.getD n 0) (s.inHeaderOf x (n + 1) w h ch)) := by
  have hsource : (s.inHeaderOf x n w h ch).source = feed (x.getD n 0 :: x.drop (n + 1)) :=
    congrArg feed (drop_eq_getD_cons hx)
  exact (step_feed rfl hsource rfl).trans (headerRead_step (s := { s.started with
    source := feed (x.drop (n + 1)), edges := [], epoch := s.started.epoch + (n + 1), channels := ch }) rfl w h _ hn)

/-- The input has a byte at offset `n` that a header can hold there (60_exceptions.md R290 step 1). -/
theorem legal_of_headerFailure_none {x : List Byte} {n : Nat} (h : headerFailure x n = none) :
    n < x.length ∧ (n ≤ 3 → x.getD n 0 = magic.getD n 0) ∧ (n = 12 → x.getD n 0 = 3 ∨ x.getD n 0 = 4)
      ∧ (n = 13 → x.getD n 0 = 0 ∨ x.getD n 0 = 1) := by
  unfold headerFailure at h
  split at h
  · cases h
  split at h
  · cases h
  split at h
  · cases h
  split at h
  · cases h
  rename_i hlen hmagic hchannel hcolor
  refine ⟨by omega, fun hn => ?_, fun hn => ?_, fun hn => ?_⟩
  · by_contra hb
    exact hmagic ⟨hn, hb⟩
  · by_contra hb
    exact hchannel ⟨hn, not_or.1 hb⟩
  · by_contra hb
    exact hcolor ⟨hn, not_or.1 hb⟩

/-- A header byte that does not fail, before the last, is read into its field. -/
theorem headerPrefix_succ (s : State) {x : List Byte} {n : Nat} (hn : n < 13) (h : headerFailure x n = none) :
    step (s.headerPrefix x n) = .next (s.headerPrefix x (n + 1)) := by
  obtain ⟨hlen, hmagic, hchannel, -⟩ := legal_of_headerFailure_none h
  rw [State.headerPrefix, step_inHeaderOf s _ _ _ hlen (by omega), State.headerPrefix]
  congr 1
  by_cases h3 : n ≤ 3
  · rw [headerField_magic _ _ h3, magicByte, if_neg (not_not.2 (hmagic h3)), fieldRead_succ_outside hlen (by omega),
      fieldRead_succ_outside hlen (by omega), channelsRead_succ x (by omega)]
  by_cases h7 : n ≤ 7
  · rw [headerField_width _ _ (by omega) h7, fieldRead_succ_inside hlen (by omega) (by omega),
      fieldRead_succ_outside hlen (by omega), channelsRead_succ x (by omega)]
    rfl
  by_cases h11 : n ≤ 11
  · rw [headerField_height _ _ (by omega) h11, fieldRead_succ_outside hlen (by omega),
      fieldRead_succ_inside hlen (by omega) (by omega), channelsRead_succ x (by omega)]
    rfl
  obtain rfl : n = 12 := by omega
  rw [headerField_channel, channelByte, if_pos (hchannel rfl), fieldRead_succ_outside hlen (by omega),
    fieldRead_succ_outside hlen (by omega)]
  rfl

/-- A header byte that fails, or EOF in its place, is reported. -/
theorem headerPrefix_fails (s : State) {x : List Byte} {n : Nat} {f : Failure} (hn : n ≤ 13) (hx : n ≤ x.length)
    (h : headerFailure x n = some f) : ∃ t, step (s.headerPrefix x n) = .next t ∧ Reports x.length f t := by
  have hoffset : (BitVec.ofNat 64 n).toNat = n := (BitVec.toNat_ofNat n 64).trans (Nat.mod_eq_of_lt (by omega))
  unfold headerFailure at h
  split at h
  case isTrue hlen =>
    obtain rfl : n = x.length := by omega
    obtain rfl := Option.some.inj h
    refine step_eof_reports rfl (congrArg feed (List.drop_length)) rfl ?_
    rw [sat64, Nat.min_eq_left (by omega)]
    rfl
  case isFalse hlen =>
  refine ⟨_, step_inHeaderOf s _ _ _ (Nat.lt_of_not_le hlen) (by omega), ?_⟩
  split at h
  case isTrue hb =>
    obtain rfl := Option.some.inj h
    rw [headerField_magic _ _ hb.1, magicByte, if_pos hb.2]
    exact ⟨rfl, rfl, fun _ => ⟨rfl, hoffset, rfl⟩⟩
  split at h
  case isTrue hb =>
    obtain ⟨rfl, hb⟩ := hb
    obtain rfl := Option.some.inj h
    rw [headerField_channel, channelByte, if_neg (not_or.2 hb)]
    exact ⟨rfl, rfl, fun _ => ⟨rfl, rfl, rfl⟩⟩
  split at h
  case isTrue hb =>
    obtain ⟨rfl, hb⟩ := hb
    obtain rfl := Option.some.inj h
    rw [headerField_colorSpace, colorSpaceByte, if_neg (not_or.2 hb)]
    exact ⟨rfl, rfl, fun _ => ⟨rfl, rfl, rfl⟩⟩
  cases h

/-- As long as no header byte has failed, the input's bytes are read one per edge. -/
theorem headerPrefix_reached {s : State} {x : List Byte} (hs : s.phase.busy = false) :
    ∀ n ≤ 13, (∀ k < n, headerFailure x k = none) → clockEdges n (startedOn s x) = .next (s.headerPrefix x n)
  | 0, _, _ => congrArg _ (headerPrefix_zero x hs).symm
  | n + 1, hn, h =>
    clockEdges_succ (headerPrefix_reached hs n (by omega) fun k hk => h k (by omega))
      (headerPrefix_succ s (by omega) (h n (by omega)))

/-- The first failure in a range is one before which there is none. -/
theorem findSome?_range_eq_some {α : Type} {g : Nat → Option α} {b : α} : ∀ {n : Nat},
    (List.range n).findSome? g = some b → ∃ k < n, g k = some b ∧ ∀ j < k, g j = none := by
  intro n
  induction n with
  | zero => exact fun h => nomatch h
  | succ n ih =>
    intro h
    rw [List.range_succ, List.findSome?_append] at h
    cases hfirst : (List.range n).findSome? g with
    | some c =>
      rw [hfirst] at h
      obtain ⟨k, hk, hb⟩ := ih (hfirst.trans h)
      exact ⟨k, by omega, hb⟩
    | none =>
      rw [hfirst] at h
      refine ⟨n, by omega, by simpa using h, fun j hj => ?_⟩
      exact List.findSome?_eq_none_iff.1 hfirst j (List.mem_range.2 hj)

/-- The first header failure of the input is what the machine reports (60_exceptions.md R290 step 1). -/
theorem header_reports {s : State} {x : List Byte} {f : Failure} (hs : s.phase.busy = false)
    (h : (List.range 14).findSome? (headerFailure x) = some f) :
    ReachesWithin (x.length + 1) (startedOn s x) (Reports x.length f) := by
  obtain ⟨n, hn, hf, hbefore⟩ := findSome?_range_eq_some h
  have hx : n ≤ x.length := by
    cases n with
    | zero => exact Nat.zero_le _
    | succ n => exact (legal_of_headerFailure_none (hbefore n (by omega))).1
  obtain ⟨t, hstep, ht⟩ := headerPrefix_fails s (by omega) hx hf
  exact ⟨n + 1, t, by omega, clockEdges_succ (headerPrefix_reached hs n (by omega) hbefore) hstep, ht⟩

/-- The last byte of a legal header: CapacityExceeded, or the payload (60_exceptions.md R290 step 2). -/
theorem headerPrefix_last (s : State) {x : List Byte} (h12 : headerFailure x 12 = none)
    (h13 : headerFailure x 13 = none) :
    ∃ t, step (s.headerPrefix x 13) = .next t
      ∧ (s.fbBytes < (wordAt x 4).toNat * (wordAt x 8).toNat * (x.getD 12 0).toNat →
          Reports x.length ⟨.capacityExceeded, 0, 14, 0⟩ t)
      ∧ ((wordAt x 4).toNat * (wordAt x 8).toNat * (x.getD 12 0).toNat ≤ s.fbBytes → s.fb.wf = true →
          InPayloadOf s x [] (x.drop 14) t) := by
  obtain ⟨-, -, hchannel, -⟩ := legal_of_headerFailure_none h12
  obtain ⟨hlen, -, -, hcolor⟩ := legal_of_headerFailure_none h13
  have hstep : step (s.headerPrefix x 13) = .next (headerDone
      { s.inHeaderOf x 14 (wordAt x 4) (wordAt x 8) (x.getD 12 0) with colorspace := x.getD 13 0 }) := by
    rw [State.headerPrefix, step_inHeaderOf s _ _ _ hlen (by omega), headerField_colorSpace, colorSpaceByte,
      if_pos (hcolor rfl), fieldRead_full (by omega) hlen.le, fieldRead_full (by omega) hlen.le]
    rfl
  refine ⟨_, hstep, fun hexceeds => ?_, fun hfits hw => ?_⟩
  · rw [headerDone_exceeds (by exact hexceeds)]
    exact ⟨rfl, rfl, fun _ => ⟨rfl, rfl, rfl⟩⟩
  · rw [headerDone_fits (by exact hfits)]
    have hexact := expected_exact (wordAt x 4) (wordAt x 8)
    exact {
      edges := rfl
      source := rfl
      phase := rfl
      width := rfl
      height := rfl
      channels := rfl
      colorspace := rfl
      chan := hchannel rfl
      expected := hexact
      fbBytes := rfl
      capacity := hexact ▸ hfits
      canonical := hw
      errCode := rfl
      inOffset := rfl
      zpend := rfl
      rel := {
        payloadLen := rfl
        opCount := rfl
        cut := rfl
        opNeed := fun h => absurd rfl h
        opGot := fun h => absurd rfl h
        leadPos := fun h => absurd rfl h
        pixels := ⟨rfl, rfl, rfl, rfl, fun k hk => absurd hk (Nat.not_lt_zero k)⟩ } }

/-! ## The payload of an input -/

/-- The payload and the header are all of the input: EOF comes before an end marker (60_exceptions.md R290 step 3). -/
theorem InPayloadOf.eof_reports {s u : State} {x : List Byte} (h : InPayloadOf s x [] (x.drop 14) u)
    (hx : 14 ≤ x.length) (hm : markerEnd x = none) :
    ReachesWithin (x.length - 13) u (Reports x.length ⟨.endOfInput, 0, x.length, 0⟩) := by
  have hfree : ∀ q, q <+: [] ++ x.drop 14 → ¬ endMarker <:+ q := by
    intro q hq hs
    obtain ⟨hlt, hends⟩ := marker_suffix hx hq hs
    rcases markerEnd_cases x with ⟨-, hnone⟩ | ⟨m, hsome, -⟩
    · exact absurd (hends.symm.trans (hnone _ hlt)) (by decide)
    · exact absurd (hm.symm.trans hsome) (by simp)
  obtain ⟨v, hrun, hv⟩ := InPayloadOf.run (x.drop 14) (z := []) (by rw [List.append_nil]; exact h) hfree
  have hoffset : v.inOffset = sat64 x.length := by
    rw [hv.inOffset, List.nil_append, List.length_drop, Nat.add_sub_cancel' hx]
  obtain ⟨t, hstep, ht⟩ := step_eof_reports hv.edges hv.source (by rw [hv.phase]; rfl) hoffset
  exact ⟨_, t, by rw [List.length_drop]; omega, clockEdges_succ hrun hstep, ht⟩

/-- `s` with the end marker's last byte consumed, the bytes `z` and EOF still to come: what Finish runs on. -/
def State.markerRead (s : State) (z : List Byte) : State :=
  { s with source := feed z, epoch := s.epoch + 1, inOffset := sat64 (s.inOffset.toNat + 1), zpend := 0 }

/-- The last byte of the end marker runs Finish on the state that has released the payload `p` before the marker. -/
theorem InPayloadOf.marker {s u : State} {x p z : List Byte}
    (h : InPayloadOf s x (p ++ List.replicate 7 0) (1 :: z) u) :
    Released p (u.markerRead z) ∧ step u = .next (finish (sat64 (14 + p.length)) (u.markerRead z)) := by
  have hfold := extractFold_full (y := p ++ List.replicate 7 0) rfl
  have hz : u.zpend = 7 := by rw [h.zpend, hfold]; rfl
  have hrel := h.rel
  rw [hfold] at hrel
  have hmarker : markerOffset { u with source := feed z, epoch := u.epoch + 1 } = sat64 (14 + p.length) := by
    rw [markerOffset, hrel.payloadLen, Nat.add_comm, sat64_add, Nat.add_comm]
  refine ⟨released_of_frame hrel ⟨rfl, rfl, rfl, rfl, rfl, rfl⟩ rfl rfl rfl rfl rfl rfl rfl rfl rfl, ?_⟩
  rw [step_feed h.edges h.source (by rw [h.phase]; rfl),
    extractor_marker (s := { u with source := feed z, epoch := u.epoch + 1 }) h.phase hz, hmarker]
  rfl

/-! ## Stages 4 to 6 -/

section StagedPayload
variable {e : Nat} {p : List Byte} {ops : List Instr}

theorem stagedPayload_cut {cut : List Byte} (h : splitOps p.length p = (ops, cut)) (hc : cut ≠ []) :
    stagedPayload e p = .error ⟨.unexpectedEndOfInput, 0, 14 + (p.length - cut.length), ops.length⟩ := by
  simp only [stagedPayload, h, if_pos hc]

theorem stagedPayload_missing (h : splitOps p.length p = (ops, [])) (hr : reconstruct ops = none) :
    stagedPayload e p = .error ⟨.missingPredecessor, 0, 14, 0⟩ := by
  simp [stagedPayload, h, hr]

theorem stagedPayload_count {out : List Pixel} (h : splitOps p.length p = (ops, [])) (hr : reconstruct ops = some out)
    (ho : out.length ≠ e) : stagedPayload e p = .error ⟨.pixelCountMismatch, 0, 14 + p.length, ops.length⟩ := by
  simp [stagedPayload, h, hr, ho]

theorem stagedPayload_ok {out : List Pixel} (h : splitOps p.length p = (ops, [])) (hr : reconstruct ops = some out)
    (ho : out.length = e) : stagedPayload e p = .ok out := by
  simp [stagedPayload, h, hr, ho]

end StagedPayload

theorem openBytes_eq_nil_iff {s : State} : openBytes s = [] ↔ s.opNeed = 0 := by
  rw [openBytes]
  split <;> simp_all

/-- The framebuffer of `v` holds the pixels `out`, the result of the image (45_framebuffer.md R244). -/
def HoldsResult (v : State) (out : List Pixel) : Prop :=
  out.length = v.expected.toNat ∧ ∀ k, k < out.length → ∀ j, j < v.channels.toNat →
    v.fb.read (k * v.channels.toNat + j) = (serialize v.channels (out.getD k sentinel)).getD j 0

/-- Finish on `v` leaves `t` as the staged decoder's stages 4 to 6 say: the failure reported, or DONE with the pixels in
the framebuffer. -/
def FinishesAs (n : Nat) (v t : State) : Except Failure (List Pixel) → Prop
  | .error f => Reports n f t
  | .ok out => t = { v with phase := .done } ∧ HoldsResult v out

/-- Finish checks in the order of the stages: a cut operation, a missing predecessor, the pixel count. -/
theorem finish_finishesAs {p : List Byte} {v : State} {n : Nat} (h : Released p v) (he : v.expected.toNat < 2 ^ 64 - 1)
    (hn : p.length ≤ n) :
    FinishesAs n v (finish (sat64 (14 + p.length)) v) (stagedPayload v.expected.toNat p) := by
  rcases hsplit : splitOps p.length p with ⟨ops, cut⟩
  have hops : ops.length + cut.length ≤ p.length := by simpa [hsplit] using splitOps_cut_le p.length p
  have hcount : v.opCount = sat64 ops.length := by rw [h.opCount, hsplit]
  have hcut : openBytes v = cut := by rw [h.cut, hsplit]
  have hpixels : Reconstructs v ops := by simpa [hsplit] using h.pixels
  have hindex : n < 2 ^ 63 → v.opCount.toNat = ops.length := fun hlt => by
    rw [hcount, sat64_toNat]
    omega
  by_cases hopen : v.opNeed = 0
  · obtain rfl : cut = [] := hcut.symm.trans (openBytes_eq_nil_iff.2 hopen)
    unfold Reconstructs at hpixels
    cases hfold : ops.foldlM Recon.exec Recon.initial with
    | none =>
      rw [hfold] at hpixels
      rw [stagedPayload_missing hsplit (by rw [reconstruct, hfold]; rfl), finish_missing hopen hpixels]
      exact ⟨rfl, rfl, fun _ => ⟨rfl, rfl, rfl⟩⟩
    | some st =>
      rw [hfold] at hpixels
      obtain ⟨hm, hshows⟩ := hpixels
      have hout : reconstruct ops = some st.out := by rw [reconstruct, hfold]; rfl
      have hpix : v.pixCount = v.expected ↔ st.out.length = v.expected.toNat := by
        rw [hshows.pixCount, ← BitVec.toNat_inj, sat64_toNat]
        omega
      by_cases hlen : st.out.length = v.expected.toNat
      · rw [stagedPayload_ok hsplit hout hlen, finish_done hopen hm (hpix.2 hlen)]
        exact ⟨rfl, hlen, fun k hk => hshows.bytes k hk (hlen ▸ hk)⟩
      · rw [stagedPayload_count hsplit hout hlen, finish_count hopen hm (mt hpix.1 hlen)]
        refine ⟨rfl, rfl, fun hlt => ⟨rfl, ?_, hindex hlt⟩⟩
        rw [raise_errOffset, sat64_toNat]
        exact Nat.min_eq_left (by omega)
  · have hne : cut ≠ [] := fun hnil => hopen (openBytes_eq_nil_iff.1 (hcut.trans hnil))
    rw [stagedPayload_cut hsplit hne, finish_cut hopen]
    refine ⟨rfl, rfl, fun hlt => ⟨rfl, ?_, hindex hlt⟩⟩
    simpa [hsplit] using h.leadPos hopen (by omega)

/-- In DONE the read port shows the result: pixel after pixel, in the bytes of the channel mode (20_memory.md R67;
45_framebuffer.md R243). -/
theorem fbPortRead_of_holdsResult {v : State} {out : List Pixel} (hc : CanEmit v) (h : HoldsResult v out) {a : Nat}
    (ha : a < v.expected.toNat * v.channels.toNat) :
    fbPortRead { v with phase := .done } a = (out.flatMap (serialize v.channels)).getD a 0 := by
  obtain ⟨hlen, hbytes⟩ := h
  have hread : fbPortRead { v with phase := .done } a = v.fb.read a := by
    have hresult : inResult { v with phase := .done } a = true := decide_eq_true ha
    rw [fbPortRead, if_pos (by exact ha.trans_le hc.capacity), if_pos hresult]
  have hpos : 0 < v.channels.toNat := Nat.pos_of_ne_zero fun h0 => by simp [h0] at ha
  have hk : a / v.channels.toNat < out.length := hlen ▸ (Nat.div_lt_iff_lt_mul hpos).2 ha
  have hj : a % v.channels.toNat < v.channels.toNat := Nat.mod_lt a hpos
  have hsplit : a / v.channels.toNat * v.channels.toNat + a % v.channels.toNat = a :=
    Nat.div_add_mod' a v.channels.toNat
  rw [hread, ← hsplit, hbytes _ hk _ hj, serialize_flatMap_getD v.channels hc.channels out _ _ hk hj]

/-! ## Whole decodes -/

/-- The image the staged decoder puts together from the header of `x` and the pixels (60_exceptions.md R290 step 6). -/
def imageOf (x : List Byte) (out : List Pixel) : Image :=
  { width := wordAt x 4, height := wordAt x 8, channels := x.getD 12 0, colorspace := x.getD 13 0,
    bytes := out.flatMap (serialize (x.getD 12 0)) }

section Staged
variable {fbBytes : Nat} {x : List Byte}

theorem staged_headerFailure {f : Failure} (h : (List.range 14).findSome? (headerFailure x) = some f) :
    staged fbBytes x = .error f := by rw [staged, h]

theorem staged_exceeds (h : (List.range 14).findSome? (headerFailure x) = none)
    (hcap : fbBytes < (wordAt x 4).toNat * (wordAt x 8).toNat * (x.getD 12 0).toNat) :
    staged fbBytes x = .error ⟨.capacityExceeded, 0, 14, 0⟩ := by
  rw [staged, h]
  exact if_pos hcap

theorem staged_noMarker (h : (List.range 14).findSome? (headerFailure x) = none)
    (hcap : (wordAt x 4).toNat * (wordAt x 8).toNat * (x.getD 12 0).toNat ≤ fbBytes) (hm : markerEnd x = none) :
    staged fbBytes x = .error ⟨.endOfInput, 0, x.length, 0⟩ := by
  rw [staged, h, hm]
  exact if_neg (Nat.not_lt.2 hcap)

theorem staged_marker {m : Nat} (h : (List.range 14).findSome? (headerFailure x) = none)
    (hcap : (wordAt x 4).toNat * (wordAt x 8).toNat * (x.getD 12 0).toNat ≤ fbBytes) (hm : markerEnd x = some m) :
    staged fbBytes x =
      (stagedPayload ((wordAt x 4).toNat * (wordAt x 8).toNat) ((x.drop 14).take (m - 21))).map (imageOf x) := by
  rw [staged, h, hm]
  refine (if_neg (Nat.not_lt.2 hcap)).trans ?_
  dsimp only
  cases stagedPayload ((wordAt x 4).toNat * (wordAt x 8).toNat) ((x.drop 14).take (m - 21)) <;> rfl

end Staged

/-- `t` is how the decode of an input of `n` bytes ends by the staged decoder: DONE with its image, or its failure
reported. -/
def EndsAs (n : Nat) (t : State) : Except Failure Image → Prop
  | .error f => Reports n f t
  | .ok image => AgreesWith t (.ok image)

/-- The bytes after the header, cut at the end marker that ends at offset `m` (41_stream_extractor.md R142). -/
theorem drop_header_of_marker {x : List Byte} {m : Nat} (h : markerEndsAt x m = true) :
    21 ≤ m ∧ x.drop 14 = (x.drop 14).take (m - 21) ++ List.replicate 7 0 ++ 1 :: x.drop (m + 1) := by
  rw [markerEndsAt, Bool.and_eq_true, decide_eq_true_eq, beq_iff_eq] at h
  obtain ⟨hm, hmarker⟩ := h
  refine ⟨hm, ?_⟩
  calc x.drop 14
      = (x.drop 14).take (m - 21) ++ x.drop (m - 7) := by
        have e : m - 7 = 14 + (m - 21) := by omega
        rw [e, ← List.drop_drop, List.take_append_drop]
    _ = (x.drop 14).take (m - 21) ++ (endMarker ++ x.drop (m + 1)) := by
        have e : m + 1 = m - 7 + 8 := by omega
        rw [e, ← List.drop_drop, ← hmarker, List.take_append_drop]
    _ = _ := by rw [List.append_assoc]; rfl

/-- No end marker ends before the first one. -/
theorem not_endMarker_suffix_before {x q : List Byte} {m : Nat} (hx : 14 ≤ x.length)
    (hfirst : ∀ j < m, markerEndsAt x j = false) (hq : q <+: x.drop 14) (hlen : 14 + q.length ≤ m) :
    ¬ endMarker <:+ q := by
  intro hs
  have hends := (marker_suffix hx hq hs).2
  have hlen8 : 8 ≤ q.length := hs.length_le
  exact absurd (hends.symm.trans (hfirst _ (by omega))) (by decide)

/-- What Finish leaves of a decode of `x` in its payload is what the staged decoder makes of the payload's pixels. -/
theorem InPayloadOf.endsAs {s u t : State} {x y z w : List Byte} {n : Nat} {r : Except Failure (List Pixel)}
    (h : InPayloadOf s x y z u) (hf : FinishesAs n (u.markerRead w) t r) : EndsAs n t (r.map (imageOf x)) := by
  cases r with
  | error f => exact hf
  | ok out =>
    obtain ⟨rfl, hresult⟩ := hf
    have hbytes : (imageOf x out).bytes = out.flatMap (serialize u.channels) := by rw [imageOf, h.channels]
    have hlen : (imageOf x out).bytes.length = u.expected.toNat * u.channels.toNat := by
      rw [hbytes, serialize_flatMap_length u.channels h.chan]
      exact congrArg (· * u.channels.toNat) hresult.1
    refine ⟨rfl, h.width, h.height, h.channels, h.colorspace, hlen, fun a ha => ?_⟩
    rw [hbytes]
    exact fbPortRead_of_holdsResult (v := u.markerRead w) ⟨h.chan, h.capacity, h.canonical⟩ hresult (hlen ▸ ha)

/-- The payload up to the first end marker is released and the marker finishes the decode (60_exceptions.md R290 steps 3
to 6). -/
theorem InPayloadOf.finishes {s u : State} {x : List Byte} {m : Nat} (h : InPayloadOf s x [] (x.drop 14) u)
    (hx : 14 ≤ x.length) (hm : markerEnd x = some m) :
    ReachesWithin (x.length - 13) u fun t => EndsAs x.length t
      ((stagedPayload ((wordAt x 4).toNat * (wordAt x 8).toNat) ((x.drop 14).take (m - 21))).map (imageOf x)) := by
  obtain ⟨m', hsome, hlt, hends, hfirst⟩ : ∃ m', markerEnd x = some m' ∧ m' < x.length
      ∧ markerEndsAt x m' = true ∧ ∀ j < m', markerEndsAt x j = false :=
    (markerEnd_cases x).resolve_left fun hnone => absurd (hm.symm.trans hnone.1) (by simp)
  obtain rfl : m = m' := Option.some.inj (hm.symm.trans hsome)
  obtain ⟨hm21, hsplit⟩ := drop_header_of_marker hends
  have hplen : ((x.drop 14).take (m - 21)).length = m - 21 := by
    rw [List.length_take, List.length_drop]
    omega
  generalize (x.drop 14).take (m - 21) = p at hsplit hplen ⊢
  have hylen : (p ++ List.replicate 7 (0 : Byte)).length = m - 14 := by
    rw [List.length_append, List.length_replicate]
    omega
  have hfree : ∀ q, q <+: p ++ List.replicate 7 0 → ¬ endMarker <:+ q := by
    intro q hq
    have hle := hq.length_le
    exact not_endMarker_suffix_before hx hfirst (hsplit ▸ hq.trans (List.prefix_append _ _)) (by omega)
  rw [hsplit] at h
  obtain ⟨v, hrun, hv⟩ := InPayloadOf.run (p ++ List.replicate 7 0) h hfree
  obtain ⟨hreleased, hstep⟩ := hv.marker
  refine ⟨_, _, by omega, clockEdges_succ hrun hstep, hv.endsAs (w := x.drop (m + 1)) ?_⟩
  rw [← hv.expected]
  exact finish_finishesAs hreleased hv.small (by omega)

/-- The machine ends the decode of `x`, one edge per token at most, as the staged decoder does (60_exceptions.md
R290). -/
theorem decode_endsAs_staged {s : State} (x : List Byte) (hs : s.phase.busy = false) (hw : s.fb.wf = true) :
    ReachesWithin (x.length + 1) (startedOn s x) fun t => EndsAs x.length t (staged s.fbBytes x) := by
  cases hheader : (List.range 14).findSome? (headerFailure x) with
  | some f =>
    rw [staged_headerFailure hheader]
    exact header_reports hs hheader
  | none =>
    have hlegal : ∀ k < 14, headerFailure x k = none := fun k hk =>
      List.findSome?_eq_none_iff.1 hheader k (List.mem_range.2 hk)
    have hx : 14 ≤ x.length := (legal_of_headerFailure_none (hlegal 13 (by decide))).1
    obtain ⟨u, hstep, hexceeds, hfits⟩ := headerPrefix_last s (hlegal 12 (by decide)) (hlegal 13 (by decide))
    have hread : clockEdges 14 (startedOn s x) = .next u :=
      clockEdges_succ (headerPrefix_reached hs 13 (by decide) fun k hk => hlegal k (by omega)) hstep
    rcases Nat.lt_or_ge s.fbBytes ((wordAt x 4).toNat * (wordAt x 8).toNat * (x.getD 12 0).toNat) with hcap | hcap
    · rw [staged_exceeds hheader hcap]
      exact ⟨14, u, by omega, hread, hexceeds hcap⟩
    · cases hm : markerEnd x with
      | none =>
        rw [staged_noMarker hheader hcap hm]
        exact ((hfits hcap hw).eof_reports hx hm).after hread (by omega)
      | some m =>
        rw [staged_marker hheader hcap hm]
        exact ((hfits hcap hw).finishes hx hm).after hread (by omega)

/-- Settles O49: the staged decoder's failure is reported with its code, or its image is the machine's result. -/
theorem machineAgreesWithTheStagedDecoder : Obligations.MachineAgreesWithTheStagedDecoder := by
  intro s x hs hw
  obtain ⟨k, t, hk, hrun, ht⟩ := decode_endsAs_staged x hs hw
  refine ⟨k, t, hk, hrun, ?_⟩
  cases hstaged : staged s.fbBytes x with
  | error f =>
    rw [hstaged] at ht
    exact ⟨Reports.phase ht, Reports.errCode ht⟩
  | ok image =>
    rw [hstaged] at ht
    exact ht

/-- Settles O50: an input the counters can count is reported with the failure's whole context. -/
theorem errorReportIsThatOfTheStagedDecoder : Obligations.ErrorReportIsThatOfTheStagedDecoder := by
  intro s x f hs hw hlen hstaged
  obtain ⟨k, t, hk, hrun, ht⟩ := decode_endsAs_staged x hs hw
  rw [hstaged] at ht
  obtain ⟨hphase, hcode, hcontext⟩ := ht
  exact ⟨k, t, hk, hrun, hphase, hcode, hcontext hlen⟩

end Sys2Proof.Machine
end

section
/-! PROOFS. The family 70_reset_and_hazards: the reset edge, the transition relation of PHASE, and what a decode leaves
to the next. -/

namespace Sys2Proof.Machine

open Sys2Proof

/-! ## Reset -/

/-- Settles O44: the step is the reset alone, which clears the trailing bytes with everything else. -/
theorem resetEdgeRestoresEveryElement : Obligations.ResetEdgeRestoresEveryElement := fun s h =>
  ⟨_, step_reset h, rfl, opTb_replicate (resetEdge_opTb s.popEdge)⟩

/-- The decoder's elements as State.reset has them, beside the parameter and the model's own fields of `f`: what
State.reset and a reset edge share. -/
def State.resetBeside (f : State) : State :=
  { State.reset with fbBytes := f.fbBytes, epoch := f.epoch, source := f.source, edges := f.edges,
                     regRdata := f.regRdata, fbRdata := f.fbRdata }

theorem resetBeside_reset : State.reset.resetBeside = State.reset := rfl

theorem resetEdge_eq_resetBeside (s : State) : s.resetEdge = { s with epoch := s.epoch + 1 }.resetBeside := rfl

/-- A register shows only fields that reset clears: in IDLE the counts are live and no free value is read. -/
theorem registerValue_resetBeside (f : State) (r : HostReg) :
    registerValue f.resetBeside r = registerValue State.reset r := by
  cases r <;> rfl

theorem registerValue_reset (r : HostReg) : registerValue State.reset r = 0 := by
  cases r <;> decide

theorem registerRead_resetBeside (f : State) (addr : Byte) : registerRead f.resetBeside addr = 0 := by
  rw [registerRead]
  split
  · exact (registerValue_resetBeside f _).trans (registerValue_reset _)
  · rfl

/-- Settles O45: in IDLE with IRQ_EN = 0 both outputs are 0, and every register a host can name reads 0. -/
theorem outputsAfterReset : Obligations.OutputsAfterReset := by
  refine ⟨rfl, rfl, registerRead_resetBeside State.reset, fun s t hr h => ?_⟩
  obtain rfl := Host.Outcome.next.inj ((step_reset hr).symm.trans h)
  exact ⟨rfl, rfl, registerRead_resetBeside { s.popEdge with epoch := s.popEdge.epoch + 1 }⟩

/-! ## The transitions of PHASE -/

theorem consumedToken_rst {s : State} {tok : Token} (h : consumedToken s = some tok) : s.nextEdge.rst = false := by
  cases hr : s.nextEdge.rst with
  | false => rfl
  | true => simp [consumedToken, hr] at h

theorem takesStart_of_busy {s : State} (h : s.phase.busy = true) : takesStart s = false := by
  rw [takesStart_eq, h, Bool.not_true, Bool.and_false]

/-- A step that consumes a token is the decoder step on it, up to what the host and the source can change. -/
theorem step_of_consumedToken {s t : State} {tok : Token} (h : step s = .next t) (hc : consumedToken s = some tok) :
    ∃ f, t = (s.withAgents f).stepped tok := by
  rcases step_plain_cases h (consumedToken_rst hc) (takesStart_of_busy (consumedToken_busy hc)) with
    ⟨tok', f, hc', ht⟩ | ⟨f, hc', -⟩
  · obtain rfl := Option.some.inj (hc.symm.trans hc')
    exact ⟨f, ht⟩
  · exact absurd (hc.symm.trans hc') (by simp)

theorem step_phase_reset {s t : State} (h : step s = .next t) (hr : s.nextEdge.rst = true) : t.phase = .idle := by
  obtain rfl := Host.Outcome.next.inj ((step_reset hr).symm.trans h)
  rfl

theorem step_phase_start {s t : State} (h : step s = .next t) (hs : takesStart s = true) : t.phase = .header := by
  obtain rfl := Host.Outcome.next.inj ((step_start hs).symm.trans h)
  rfl

theorem step_phase_noToken {s t : State} (h : step s = .next t) (hr : s.nextEdge.rst = false)
    (hs : takesStart s = false) (hc : consumedToken s = none) : t.phase = s.phase := by
  rcases step_plain_cases h hr hs with ⟨tok, f, hc', -⟩ | ⟨f, -, rfl⟩
  · exact absurd (hc.symm.trans hc') (by simp)
  · rfl

theorem step_phase_eof {s t : State} (h : step s = .next t) (hc : consumedToken s = some .eof) : t.phase = .error := by
  obtain ⟨f, rfl⟩ := step_of_consumedToken h hc
  rw [stepped_eof (s := s.withAgents f) (consumedToken_busy (s := s) hc)]
  rfl

/-- A header byte leads on by the check of its offset, and by the capacity check at the last one (40_header.md R121). -/
theorem step_phase_headerByte {s t : State} {b : Byte} (h : step s = .next t) (hc : consumedToken s = some (.byte b))
    (hp : s.phase = .header) (hpos : s.inOffset.toNat ≤ 13) :
    t.phase =
      if s.inOffset.toNat ≤ 3 then if b = magic.getD s.inOffset.toNat 0 then .header else .error
      else if s.inOffset.toNat ≤ 11 then .header
      else if s.inOffset.toNat = 12 then if b = 3 ∨ b = 4 then .header else .error
      else
        if (b = 0 ∨ b = 1) ∧ s.width.toNat * s.height.toNat * s.channels.toNat ≤ s.fbBytes then .payload
        else .error := by
  obtain ⟨f, rfl⟩ := step_of_consumedToken h hc
  rw [stepped_headerByte (s := s.withAgents f) b hp]
  exact headerField_phase (s := (s.withAgents f).countInput) b hp hpos

/-- A payload byte ends the decode only as the last one of an end marker (41_stream_extractor.md R141). -/
theorem step_phase_payloadByte {s t : State} {b : Byte} (h : step s = .next t) (hc : consumedToken s = some (.byte b))
    (hp : s.phase = .payload) :
    t.phase =
      if b = 0x01 ∧ s.zpend = 7 then
        (if s.opNeed = 0 ∧ s.mp = false ∧ s.pixCount = s.expected then .done else .error)
      else .payload := by
  obtain ⟨f, rfl⟩ := step_of_consumedToken h hc
  rw [stepped_payloadByte (s := s.withAgents f) b hp, extracted_phase]
  exact congrArg (ite _ _) hp

/-- Settles O31: one row of the table each, a header byte's split by its offset, which the invariant bounds by 13. -/
theorem phaseTransitionsAreThoseOfTheTable : Obligations.PhaseTransitionsAreThoseOfTheTable := by
  intro s t hs h
  refine ⟨step_phase_reset h, step_phase_start h, step_phase_noToken h,
    fun tok hc => (busy_iff s.phase).1 (consumedToken_busy hc), step_phase_eof h, fun b hc hp => ?_,
    fun b => step_phase_payloadByte h⟩
  have ht := step_phase_headerByte h hc hp (hs.header hp).1
  rwa [apply_ite (t.phase = ·), apply_ite (t.phase = ·) (s.inOffset.toNat ≤ 11),
    apply_ite (t.phase = ·) (s.inOffset.toNat = 12)] at ht

/-! ## A decode ends, and leaves the next one nothing -/

theorem ended_iff (p : Phase) : p.ended = true ↔ p = .done ∨ p = .error := by
  cases p <;> decide

/-- A state that agrees with an outcome of the staged decoder is in DONE or ERROR. -/
theorem phase_ended_of_agreesWith {t : State} {r : Except Failure Image} (h : AgreesWith t r) :
    t.phase = .done ∨ t.phase = .error := by
  cases r with
  | ok image => exact .inl h.1
  | error f => exact .inr h.1

/-- Settles O51: the decode ends as the staged decoder's does, within as many edges. -/
theorem everyDecodeEnds : Obligations.EveryDecodeEnds := by
  intro s x hs hw
  obtain ⟨k, t, hk, hrun, ht⟩ := machineAgreesWithTheStagedDecoder s x hs hw
  exact ⟨k, t, hk, hrun, phase_ended_of_agreesWith ht⟩

/-- ERR_CODE is 0 outside ERROR (60_exceptions.md R284): of `Inv`, the clause a decode keeps whatever the
framebuffer holds when it starts. -/
def CodeOnlyInError (s : State) : Prop := s.phase ≠ .error → s.errCode = .none

/-- Of the branches a header byte can take, those that raise end in ERROR and the others leave ERR_CODE. -/
theorem headerField_errCode (pos : Nat) (b : Byte) (s : State) :
    (headerField pos b s).phase = .error ∨ (headerField pos b s).errCode = s.errCode := by
  unfold headerField magicByte widthByte heightByte channelByte colorSpaceByte headerDone capacityCheck
  repeat' split
  · exact .inl rfl
  · exact .inr rfl
  · exact .inr rfl
  · exact .inr rfl
  · exact .inr rfl
  · exact .inl rfl
  · exact .inl rfl
  · exact .inr rfl
  · exact .inl rfl
  · exact .inr rfl

theorem finish_errCode (m : U64) (s : State) : (finish m s).phase = .error ∨ (finish m s).errCode = s.errCode := by
  by_cases hdone : s.opNeed = 0 ∧ s.mp = false ∧ s.pixCount = s.expected
  · obtain ⟨hopen, hm, hcount⟩ := hdone
    rw [finish_done hopen hm hcount]
    exact .inr rfl
  · exact .inl ((finish_phase m s).trans (if_neg hdone))

theorem releasedAll_errCode (bs : List Byte) (s : State) : (s.releasedAll bs).errCode = s.errCode := by
  rw [releasedAll_only bs s]

theorem extracted_errCode (b : Byte) (s : State) :
    (s.extracted b).phase = .error ∨ (s.extracted b).errCode = s.errCode := by
  unfold State.extracted
  split
  · split
    · exact .inr rfl
    · exact .inr (released_errCode s 0)
  · split
    · exact finish_errCode (markerOffset s) (s.setZpend 0)
    · exact .inr (by rw [released_errCode, setZpend_errCode, releasedAll_errCode])

/-- A decoder step that does not end in ERROR leaves ERR_CODE (60_exceptions.md R284). -/
theorem stepped_errCode (tok : Token) (s : State) :
    (s.stepped tok).phase = .error ∨ (s.stepped tok).errCode = s.errCode := by
  cases hb : s.phase.busy with
  | false => exact .inr (by rw [stepped_quiescent tok hb])
  | true =>
    cases tok with
    | eof =>
      rw [stepped_eof hb]
      exact .inl rfl
    | byte b =>
      rcases (busy_iff s.phase).1 hb with hp | hp
      · rw [stepped_headerByte b hp]
        exact headerField_errCode s.inOffset.toNat b s.countInput
      · rw [stepped_payloadByte b hp]
        exact extracted_errCode b s.countInput

/-- Every step keeps it: reset and START clear the code, and only a raise, which ends in ERROR, sets it. -/
theorem step_codeOnlyInError {s t : State} (h : step s = .next t) (hs : CodeOnlyInError s) : CodeOnlyInError t := by
  cases hr : s.nextEdge.rst with
  | true =>
    obtain rfl := Host.Outcome.next.inj ((step_reset hr).symm.trans h)
    exact fun _ => rfl
  | false =>
    cases hst : takesStart s with
    | true =>
      obtain rfl := Host.Outcome.next.inj ((step_start hst).symm.trans h)
      exact fun _ => rfl
    | false =>
      rcases step_plain_cases h hr hst with ⟨tok, f, hc, rfl⟩ | ⟨f, -, rfl⟩
      · intro ht
        have hp : s.phase ≠ .error := fun he => by simpa [he, Phase.busy] using consumedToken_busy hc
        exact ((stepped_errCode tok (s.withAgents f)).resolve_left ht).trans (hs hp)
      · exact hs

/-- What holds of a state and is kept by every step holds after any number of clock edges. -/
theorem clockEdges_induction {P : State → Prop} (hstep : ∀ s t, step s = .next t → P s → P t) :
    ∀ (k : Nat) {s t : State}, clockEdges k s = .next t → P s → P t
  | 0, _, _, h, hs => Host.Outcome.next.inj h ▸ hs
  | k + 1, s, _, h, hs =>
    have ⟨u, hu, ht⟩ := andThen_eq_next.1 h
    clockEdges_induction hstep k ht (hstep s u hu hs)

theorem startedOn_codeOnlyInError {s : State} (x : List Byte) (hs : s.phase.busy = false) :
    CodeOnlyInError (startedOn s x) := by
  rw [startedOn, start_notBusy hs]
  exact fun _ => rfl

/-- What a host compares of two decodes that have ended: PHASE, the code, and in DONE the header fields and the result
bytes (45_framebuffer.md R244). -/
def SameOutcome (t t' : State) : Prop :=
  t.phase.ended = true ∧ t.phase = t'.phase ∧ t.errCode = t'.errCode
    ∧ (t.phase = .done → t.width = t'.width ∧ t.height = t'.height ∧ t.channels = t'.channels
        ∧ t.colorspace = t'.colorspace
        ∧ ∀ a, a < t.expected.toNat * t.channels.toNat → fbPortRead t a = fbPortRead t' a)

/-- Two states that agree with one outcome of the staged decoder show the host the same. -/
theorem sameOutcome_of_agreesWith {t t' : State} {r : Except Failure Image} (h : AgreesWith t r) (h' : AgreesWith t' r)
    (hc : CodeOnlyInError t) (hc' : CodeOnlyInError t') : SameOutcome t t' := by
  refine ⟨(ended_iff t.phase).2 (phase_ended_of_agreesWith h), ?_⟩
  cases r with
  | error f =>
    obtain ⟨hphase, hcode⟩ := h
    obtain ⟨hphase', hcode'⟩ := h'
    exact ⟨hphase.trans hphase'.symm, hcode.trans hcode'.symm, fun hd => Phase.noConfusion (hphase.symm.trans hd)⟩
  | ok image =>
    obtain ⟨hphase, hwidth, hheight, hchannels, hcolorspace, hlen, hbytes⟩ := h
    obtain ⟨hphase', hwidth', hheight', hchannels', hcolorspace', -, hbytes'⟩ := h'
    have hcode : t.errCode = .none := hc (by rw [hphase]; decide)
    have hcode' : t'.errCode = .none := hc' (by rw [hphase']; decide)
    refine ⟨hphase.trans hphase'.symm, hcode.trans hcode'.symm, fun _ => ⟨hwidth.trans hwidth'.symm,
      hheight.trans hheight'.symm, hchannels.trans hchannels'.symm, hcolorspace.trans hcolorspace'.symm,
      fun a ha => ?_⟩⟩
    have hlt : a < image.bytes.length := hlen ▸ ha
    exact (hbytes a hlt).trans (hbytes' a hlt).symm

/-- Settles O52: both decodes agree with what the staged decoder, which knows no earlier decode, makes of the input. -/
theorem earlierDecodesDoNotMatter : Obligations.EarlierDecodesDoNotMatter := by
  intro s s' x hs hs' hfb hw hw'
  obtain ⟨k, t, -, hrun, ht⟩ := machineAgreesWithTheStagedDecoder s x hs hw
  obtain ⟨k', t', -, hrun', ht'⟩ := machineAgreesWithTheStagedDecoder s' x hs' hw'
  have hc := clockEdges_induction (fun _ _ => step_codeOnlyInError) k hrun (startedOn_codeOnlyInError x hs)
  have hc' := clockEdges_induction (fun _ _ => step_codeOnlyInError) k' hrun' (startedOn_codeOnlyInError x hs')
  rw [← hfb] at ht'
  exact ⟨k, k', t, t', hrun, hrun', sameOutcome_of_agreesWith ht ht' hc hc'⟩

end Sys2Proof.Machine
end
